-- ==== Sys2Proof/Word.lean ====
section
/-! DEFINITION. Bytes, words and the fixed-size register arrays of CTB-CORE (spec/00_scope.md R10, R12; spec/10_state.md R24, R32). -/

namespace Sys2Proof

/-- One byte (R12). -/
abbrev Byte := BitVec 8

/-- A byte string; index 0 comes first (R12). -/
abbrev Bytes := List Byte

/-- A word of the 32-bit cores (R11 with W = 32). -/
abbrev Word32 := BitVec 32

/-- A word of the 64-bit core, and the width of one element of the chaining state (R11, R24). -/
abbrev Word64 := BitVec 64

/-- The chaining state `H[0..7]`: eight words of 64 bits (R24). -/
abbrev HWords := Vector Word64 8

/-- A 128-byte register: `BUF`, `IPAD` or `OPAD` (R24, R32). -/
abbrev Reg128 := Vector Byte 128

end Sys2Proof
end

