-- ==== Sys2Proof/Config.lean ====
section
/-! DEFINITION. The implementation parameters the spec leaves open (spec/00_scope.md R9), as constants without a body, and
the one it fixes. -/

namespace Sys2Proof

/-- The allocator's answer to one draw (spec/46_pbkdf2.md R222). -/
inductive AllocDraw where
  | ok
  | fail
deriving DecidableEq, Repr, Inhabited

/-- `MAX_MSG_BITS`: the bound on the bits one digest context absorbs (R9, R31). -/
def Config.maxMsgBits : Nat := 2 ^ 64

/-- How many digest units there are beyond the first (open, R9; log 4). -/
opaque Config.moreDigestUnits : Nat

/-- How many HMAC engines there are beyond the first (open, R9; log 4). -/
opaque Config.moreHmacUnits : Nat

/-- How many PBKDF2 units there are beyond the first (open, R9; log 4). -/
opaque Config.morePbkdf2Units : Nat

/-- `N_DIGEST`, at least 1 (R9). -/
def Config.nDigest : Nat := Config.moreDigestUnits + 1

/-- `N_HMAC`, at least 1 (R9). -/
def Config.nHmac : Nat := Config.moreHmacUnits + 1

/-- `N_PBKDF2`, at least 1 (R9). -/
def Config.nPbkdf2 : Nat := Config.morePbkdf2Units + 1

/-- `SCRATCH_FROM_ALLOCATOR` (open, R9 and R222; log 5). The value a machine comes up with; State carries it. -/
opaque Config.scratchFromAllocator : Bool

/-- The allocator's answers to the draws of each unit instance, by the unit's number and the number of the draw: FREE VALUES
(R222; log 5). -/
opaque Config.allocDraw : Nat → Nat → AllocDraw

end Sys2Proof
end

