-- ==== Sys2Proof/Syntax.lean ====
section
/-! DEFINITION. The command set as data: algorithms, unit kinds, and one constructor for each row of
spec/opcode_table.json (spec/30_encoding.md R74). -/

namespace Sys2Proof

/-- The six digest algorithms (spec/00_scope.md R8). Their codes are `Alg.code`. -/
inductive Alg where
  | sha1
  | sha224
  | sha256
  | sha384
  | sha512
  | ripemd160
deriving DecidableEq, Repr

/-- The three kinds of unit instance (R1, R71). -/
inductive UnitKind where
  | digest
  | hmac
  | pbkdf2
deriving DecidableEq, Repr

/-- The eight commands with their operands (R74, R76). -/
inductive Instr where
  /-- `DINIT A` (R100). -/
  | dinit (alg : Alg)
  /-- `DUPD data` (R101). -/
  | dupd (data : Bytes)
  /-- `DFIN` (R103). -/
  | dfin
  /-- `HKEY A, key` (R200). -/
  | hkey (alg : Alg) (key : Bytes)
  /-- `HUPD data` (R203). -/
  | hupd (data : Bytes)
  /-- `HFIN macLength` (R204). -/
  | hfin (macLength : BitVec 32)
  /-- `HREINIT` (R206). -/
  | hreinit
  /-- `PBKDF2 A, password, salt, iterations, outputLength` (R220). -/
  | pbkdf2 (alg : Alg) (password salt : Bytes) (iterations : BitVec 32) (outputLength : BitVec 64)
deriving DecidableEq, Repr

/-- The unit kind a command belongs to: the `unit` column of R74. -/
def Instr.unit : Instr → UnitKind
  | .dinit _ | .dupd _ | .dfin => .digest
  | .hkey _ _ | .hupd _ | .hfin _ | .hreinit => .hmac
  | .pbkdf2 _ _ _ _ _ => .pbkdf2

/-- The four causes of ILLEGAL_COMMAND (spec/60_exceptions.md R241), in the order of their DETAIL codes. -/
inductive IllegalCause where
  /-- DETAIL 1: reserved `OPC`, or an opcode of another unit kind. -/
  | opcode
  /-- DETAIL 2: `RSV` is not zero. -/
  | reservedBits
  /-- DETAIL 3: `ALG` is not in 1..6 on a command that chooses an algorithm. -/
  | badAlg
  /-- DETAIL 4: `ALG` is not 0 on a command that chooses none. -/
  | algNotZero
deriving DecidableEq, Repr

end Sys2Proof
end

