-- ==== Sys2Proof/Machine/Operands.lean ====
section
/-! DEFINITION. The operand forms and the helpers on bytes and words that the rules share: byte order, byte strings,
rotations, and the per-algorithm parameters (spec/00_scope.md R8, R11, R12; spec/20_memory.md R52 to R54). -/

namespace Sys2Proof

/-! ## Byte strings (R12) -/

/-- `LE_n(v)`: the `n`-byte little-endian encoding of `v` (R12). -/
def leBytes : Nat → Nat → Bytes
  | 0, _ => []
  | n + 1, v => BitVec.ofNat 8 v :: leBytes n (v / 256)

/-- `BE_n(v)`: the `n`-byte big-endian encoding of `v` (R12). -/
def beBytes (n v : Nat) : Bytes := (leBytes n v).reverse

/-- `fromLE(b)`: the unsigned integer a byte string holds, least significant byte first (R12). -/
def fromLE : Bytes → Nat
  | [] => 0
  | b :: bs => b.toNat + 256 * fromLE bs

/-- `fromBE(b)`: the unsigned integer a byte string holds, most significant byte first (R12). -/
def fromBE (bs : Bytes) : Nat := fromLE bs.reverse

/-- `zeros(n)` (R12). -/
def zeros (n : Nat) : Bytes := List.replicate n 0

/-- Byte-wise XOR of two byte strings of one length (spec/46_pbkdf2.md R223). -/
def xorBytes (a b : Bytes) : Bytes := List.zipWith (· ^^^ ·) a b

/-- XOR of every byte with a mask: the pads of HMAC (spec/45_hmac.md R200). -/
def maskBytes (mask : Byte) (m : Bytes) : Bytes := m.map (· ^^^ mask)

/-- The bytes `bs` written into a 128-byte register from index `i` on; the other bytes keep their value (log 13). -/
def writeBytes (r : Reg128) : Nat → Bytes → Reg128
  | _, [] => r
  | i, b :: bs => writeBytes (r.setIfInBounds i b) (i + 1) bs

/-- The first `n` bytes of a 128-byte register. -/
def firstBytes (r : Reg128) (n : Nat) : Bytes := r.toList.take n

/-! ## Words (R11) -/

/-- `rotl_n` within `w` bits (R11). -/
def rotl {w : Nat} (n : Nat) (x : BitVec w) : BitVec w := (x <<< n) ||| (x >>> (w - n))

/-- `rotr_n` within `w` bits (R11). -/
def rotr {w : Nat} (n : Nat) (x : BitVec w) : BitVec w := (x >>> n) ||| (x <<< (w - n))

/-- Word `k` of a block of `w`-bit words, big-endian (R52). -/
def beWord (w : Nat) (blk : Bytes) (k : Nat) : BitVec w :=
  BitVec.ofNat w (fromBE ((blk.drop (k * (w / 8))).take (w / 8)))

/-- Word `k` of a block of `w`-bit words, little-endian (R53). -/
def leWord (w : Nat) (blk : Bytes) (k : Nat) : BitVec w :=
  BitVec.ofNat w (fromLE ((blk.drop (k * (w / 8))).take (w / 8)))

/-! ## The per-algorithm parameters: the table of R8 -/

/-- The `ALG` code. -/
def Alg.code : Alg → BitVec 4
  | .sha1 => 1
  | .sha224 => 2
  | .sha256 => 3
  | .sha384 => 4
  | .sha512 => 5
  | .ripemd160 => 6

/-- Every algorithm, in the order of the table. -/
def Alg.all : List Alg := [.sha1, .sha224, .sha256, .sha384, .sha512, .ripemd160]

/-- The algorithm an `ALG` code names; none for 0 and 7 to 15 (R72). -/
def Alg.ofCode? (c : BitVec 4) : Option Alg := Alg.all.find? fun a => a.code == c

/-- `B`: block size in bytes. -/
def Alg.blockBytes : Alg → Nat
  | .sha1 | .sha224 | .sha256 | .ripemd160 => 64
  | .sha384 | .sha512 => 128

/-- `D`: digest size in bytes. -/
def Alg.digestBytes : Alg → Nat
  | .sha1 => 20
  | .sha224 => 28
  | .sha256 => 32
  | .sha384 => 48
  | .sha512 => 64
  | .ripemd160 => 20

/-- `W`: word size in bits. -/
def Alg.wordBits : Alg → Nat
  | .sha1 | .sha224 | .sha256 | .ripemd160 => 32
  | .sha384 | .sha512 => 64

/-- `NS`: state words held. -/
def Alg.stateWords : Alg → Nat
  | .sha1 | .ripemd160 => 5
  | .sha224 | .sha256 | .sha384 | .sha512 => 8

/-- Digest words emitted. -/
def Alg.digestWords : Alg → Nat
  | .sha1 => 5
  | .sha224 => 7
  | .sha256 => 8
  | .sha384 => 6
  | .sha512 => 8
  | .ripemd160 => 5

/-- `LF`: size of the padding's length field in bytes. -/
def Alg.lengthBytes : Alg → Nat
  | .sha1 | .sha224 | .sha256 | .ripemd160 => 8
  | .sha384 | .sha512 => 16

/-- Little-endian (RIPEMD-160, R53) or big-endian (the SHA family, R52). -/
def Alg.littleEndian : Alg → Bool
  | .ripemd160 => true
  | .sha1 | .sha224 | .sha256 | .sha384 | .sha512 => false

/-- The `n`-byte encoding of `v` in the algorithm's byte order (R52, R53). -/
def Alg.encodeInt (a : Alg) (n v : Nat) : Bytes := if a.littleEndian then leBytes n v else beBytes n v

end Sys2Proof
end

