-- ==== Sys2Proof/WellFormed.lean ====
section
/-! DEFINITION. Which commands can be sent: the bounds the frame format puts on operands (spec/30_encoding.md R76,
spec/20_memory.md R55). The widths of the scalars and the legal algorithm codes are in the types of Syntax.lean. -/

namespace Sys2Proof

/-- A byte string fits a frame when its length fits the `u64` length field (R55, R76). -/
def fitsFrame (m : Bytes) : Bool := m.length < 2 ^ 64

/-- The checks on a command's operands, one for each byte string it carries. -/
def Instr.wellFormed : Instr → Bool
  | .dinit _ => true
  | .dupd m => fitsFrame m
  | .dfin => true
  | .hkey _ k => fitsFrame k
  | .hupd m => fitsFrame m
  | .hfin _ => true
  | .hreinit => true
  | .pbkdf2 _ p s _ _ => fitsFrame p && fitsFrame s

/-- A command that a frame can carry. -/
abbrev Instr.WellFormed (i : Instr) : Prop := i.wellFormed = true

end Sys2Proof
end

