-- ==== Sys2Proof/Decode.lean ====
section
/-! DEFINITION. Decoding of command frames, total on any bytes, and the encoder (spec/30_encoding.md R70 to R82). -/

namespace Sys2Proof

/-! ## The opcode map (R74) -/

/-- The eight mnemonics. -/
inductive Op where
  | dinit
  | dupd
  | dfin
  | hkey
  | hupd
  | hfin
  | hreinit
  | pbkdf2
deriving DecidableEq, Repr

/-- The `OPC` column of R74. -/
def Op.opc : Op → BitVec 8
  | .dinit => 0x01
  | .dupd => 0x02
  | .dfin => 0x03
  | .hkey => 0x11
  | .hupd => 0x12
  | .hfin => 0x13
  | .hreinit => 0x14
  | .pbkdf2 => 0x21

/-- The rows of R74, in order. -/
def Op.all : List Op := [.dinit, .dupd, .dfin, .hkey, .hupd, .hfin, .hreinit, .pbkdf2]

/-- The mnemonic of an `OPC` value; none for a reserved one. -/
def Op.ofOpc? (b : BitVec 8) : Option Op := Op.all.find? fun o => o.opc == b

/-- What `OPC[7:4]` says of a unit kind (R71). -/
def UnitKind.code : UnitKind → BitVec 4
  | .digest => 0x0
  | .hmac => 0x1
  | .pbkdf2 => 0x2

/-- The unit kind `OPC[7:4]` names; none for 3 to 15 (R71). -/
def UnitKind.ofCode? (c : BitVec 4) : Option UnitKind :=
  [UnitKind.digest, .hmac, .pbkdf2].find? fun k => k.code == c

/-! ## The command word (R70) -/

/-- `OPC`, bits `[7:0]`. -/
def opcField (w : BitVec 32) : BitVec 8 := w.extractLsb' 0 8

/-- `OPC[7:4]`, the unit kind (R71). -/
def kindField (w : BitVec 32) : BitVec 4 := w.extractLsb' 4 4

/-- `ALG`, bits `[11:8]`. -/
def algField (w : BitVec 32) : BitVec 4 := w.extractLsb' 8 4

/-- `RSV`, bits `[31:12]`. -/
def rsvField (w : BitVec 32) : BitVec 20 := w.extractLsb' 12 20

/-- A legal command word: the mnemonic, with the algorithm of the three commands that choose one (R72). -/
inductive Head where
  | dinit (alg : Alg)
  | dupd
  | dfin
  | hkey (alg : Alg)
  | hupd
  | hfin
  | hreinit
  | pbkdf2 (alg : Alg)
deriving DecidableEq, Repr

/-- The command chooses an algorithm: `ALG` must be 1 to 6 (R72). -/
def headWithAlg (w : BitVec 32) (mk : Alg → Head) : Except IllegalCause Head :=
  match Alg.ofCode? (algField w) with
  | some a => .ok (mk a)
  | none => .error .badAlg

/-- The command chooses none: `ALG` must be 0 (R72). -/
def headWithoutAlg (w : BitVec 32) (h : Head) : Except IllegalCause Head :=
  if algField w = 0 then .ok h else .error .algNotZero

/-- `decode(w, unit)` of R81, its tests in that order. -/
def decodeWord (w : BitVec 32) (unit : UnitKind) : Except IllegalCause Head :=
  match Op.ofOpc? (opcField w) with
  | none => .error .opcode
  | some op =>
    if kindField w ≠ unit.code then .error .opcode
    else if rsvField w ≠ 0 then .error .reservedBits
    else match op with
      | .dinit => headWithAlg w .dinit
      | .dupd => headWithoutAlg w .dupd
      | .dfin => headWithoutAlg w .dfin
      | .hkey => headWithAlg w .hkey
      | .hupd => headWithoutAlg w .hupd
      | .hfin => headWithoutAlg w .hfin
      | .hreinit => headWithoutAlg w .hreinit
      | .pbkdf2 => headWithAlg w .pbkdf2

/-! ## Operands (R76, R77) -/

/-- An `n`-byte big-endian scalar and the bytes after it; none if the bytes run out. -/
def takeScalar (n : Nat) (bs : Bytes) : Option (Nat × Bytes) :=
  if bs.length < n then none else some (fromBE (bs.take n), bs.drop n)

/-- A byte string, sent as `u64 L` and then `L` bytes, and the bytes after it; none if the bytes run out. -/
def takeBytes (bs : Bytes) : Option (Bytes × Bytes) :=
  match takeScalar 8 bs with
  | none => none
  | some (len, rest) => if rest.length < len then none else some (rest.take len, rest.drop len)

/-- The operands of PBKDF2 in frame order, and the bytes after them (R78). -/
def takePbkdf2 (bs : Bytes) : Option ((Bytes × Bytes × Nat × Nat) × Bytes) := do
  let (p, r1) ← takeBytes bs
  let (s, r2) ← takeBytes r1
  let (c, r3) ← takeScalar 4 r2
  let (dk, r4) ← takeScalar 8 r3
  return ((p, s, c, dk), r4)

/-- The command a legal word begins, with the operands that follow it, and the bytes after the frame. -/
def readCommand (h : Head) (bs : Bytes) : Option (Instr × Bytes) :=
  match h with
  | .dinit a => some (.dinit a, bs)
  | .dupd => (takeBytes bs).map fun r => (.dupd r.1, r.2)
  | .dfin => some (.dfin, bs)
  | .hkey a => (takeBytes bs).map fun r => (.hkey a r.1, r.2)
  | .hupd => (takeBytes bs).map fun r => (.hupd r.1, r.2)
  | .hfin => (takeScalar 4 bs).map fun r => (.hfin (BitVec.ofNat 32 r.1), r.2)
  | .hreinit => some (.hreinit, bs)
  | .pbkdf2 a => (takePbkdf2 bs).map fun r =>
      (.pbkdf2 a r.1.1 r.1.2.1 (BitVec.ofNat 32 r.1.2.2.1) (BitVec.ofNat 64 r.1.2.2.2), r.2)

/-- The bytes after the operands of an opcode: the frame length depends on `OPC` alone (R80, 90_conflicts.md C8). -/
def skipOperands (op : Op) (bs : Bytes) : Option Bytes :=
  match op with
  | .dinit | .dfin | .hreinit => some bs
  | .dupd | .hkey | .hupd => (takeBytes bs).map (·.2)
  | .hfin => (takeScalar 4 bs).map (·.2)
  | .pbkdf2 => (takePbkdf2 bs).map (·.2)

/-- What the front of a command stream holds. -/
inductive Decoded where
  /-- A legal command, and the bytes after its frame. -/
  | command (i : Instr) (rest : Bytes)
  /-- An illegal word (R82), and the bytes after its frame; its operands are discarded. -/
  | illegal (why : IllegalCause) (rest : Bytes)
  /-- Not a whole frame: no hardware sees this (R80, R273). -/
  | truncated
deriving DecidableEq, Repr

/-- The bytes that stay in the stream after the frame; none if there is no whole frame. -/
def Decoded.rest? : Decoded → Option Bytes
  | .command _ rest => some rest
  | .illegal _ rest => some rest
  | .truncated => none

/-- Decode the frame whose word is `w` and whose other bytes are the front of `bs`. -/
def decodeAfterWord (unit : UnitKind) (w : BitVec 32) (bs : Bytes) : Decoded :=
  match decodeWord w unit with
  | .ok h =>
    match readCommand h bs with
    | some (i, rest) => .command i rest
    | none => .truncated
  | .error why =>
    match Op.ofOpc? (opcField w) with
    | none => .illegal why bs
    | some op =>
      match skipOperands op bs with
      | some rest => .illegal why rest
      | none => .truncated

/-- Decode the frame at the front of the stream of a unit of kind `unit`: total on any bytes (R77, R80, R81). -/
def decodeFrame (unit : UnitKind) (bs : Bytes) : Decoded :=
  match takeScalar 4 bs with
  | none => .truncated
  | some (w, rest) => decodeAfterWord unit (BitVec.ofNat 32 w) rest

/-- The bytes are one whole frame and nothing more: all the bytes its `OPC` and length fields say (R80, R273). -/
def wholeFrame (unit : UnitKind) (bs : Bytes) : Bool := (decodeFrame unit bs).rest? == some []

/-! ## The encoder (R78) -/

/-- The command word of an opcode and an `ALG` field, `RSV` zero (R70). -/
def commandWord (op : Op) (alg : BitVec 4) : BitVec 32 := (0 : BitVec 20) ++ alg ++ op.opc

/-- A command word as it is sent (R77). -/
def wordBytes (w : BitVec 32) : Bytes := beBytes 4 w.toNat

/-- A byte-string operand as it is sent (R76). -/
def stringBytes (m : Bytes) : Bytes := beBytes 8 m.length ++ m

/-- The frame of a command (R78). -/
def encode : Instr → Bytes
  | .dinit a => wordBytes (commandWord .dinit a.code)
  | .dupd m => wordBytes (commandWord .dupd 0) ++ stringBytes m
  | .dfin => wordBytes (commandWord .dfin 0)
  | .hkey a k => wordBytes (commandWord .hkey a.code) ++ stringBytes k
  | .hupd m => wordBytes (commandWord .hupd 0) ++ stringBytes m
  | .hfin n => wordBytes (commandWord .hfin 0) ++ beBytes 4 n.toNat
  | .hreinit => wordBytes (commandWord .hreinit 0)
  | .pbkdf2 a p s c dk =>
      wordBytes (commandWord .pbkdf2 a.code) ++ stringBytes p ++ stringBytes s ++ beBytes 4 c.toNat ++ beBytes 8 dk.toNat

/-! ## The host's one-word questions (log 17) -/

/-- The 32-byte frame whose words are the 32-bit groups of `w`'s low `nbits` bits, each word big-endian (R77). -/
def tableFrame (nbits w : Nat) : Bytes :=
  (List.range 8).flatMap fun k => beBytes 4 ((w % 2 ^ nbits) / 2 ^ (32 * k))

/-- The unit kind whose channel a word is sent to: the one its `OPC[7:4]` names (R71), the digest unit where it names none. -/
def tableKind (w : Nat) : UnitKind := (UnitKind.ofCode? (kindField (BitVec.ofNat 32 w))).getD .digest

/-- The command the decoder reads from a word numbered as spec/opcode_table.json numbers it. -/
def decodeTableWord (nbits w : Nat) : Option Instr :=
  match decodeFrame (tableKind w) (tableFrame nbits w) with
  | .command i _ => some i
  | .illegal _ _ => none
  | .truncated => none

/-- The bytes of `tableFrame` that belong to the one frame at its front. -/
def tableFrameExact (nbits w : Nat) : Bytes :=
  match (decodeFrame (tableKind w) (tableFrame nbits w)).rest? with
  | some rest => (tableFrame nbits w).take ((tableFrame nbits w).length - rest.length)
  | none => tableFrame nbits w

end Sys2Proof
end

