-- ==== Sys2Proof/Machine/State.lean ====
section
/-! DEFINITION. The state of CTB-CORE as plain data: the contexts of every unit instance (spec/10_state.md R20 to R34), their
channels, and the platform's inputs; the reasons a step stops; the state after reset (R40). -/

namespace Sys2Proof.Machine

/-! ## Statuses and responses (spec/60_exceptions.md R240 to R245, spec/30_encoding.md R79) -/

/-- The causes of MISUSE, in the order of their DETAIL codes (R242). -/
inductive MisuseCause where
  /-- DETAIL 1: the context is `EMPTY`. -/
  | contextEmpty
  /-- DETAIL 2: the context is `FINALIZED`. -/
  | contextFinalized
deriving DecidableEq, Repr

/-- The causes of PRECONDITION, in the order of their DETAIL codes (R244). -/
inductive PreconditionCause where
  /-- DETAIL 1: `iterations = 0`. -/
  | noIterations
  /-- DETAIL 2: `outputLength = 0`. -/
  | noOutput
  /-- DETAIL 3: `outputLength > (2^32 - 1) * hLen`. -/
  | outputTooLong
  /-- DETAIL 4: `macLength = 0`. -/
  | noMac
  /-- DETAIL 5: `macLength > D`. -/
  | macTooLong
deriving DecidableEq, Repr

/-- The statuses a command answers with (R240). -/
inductive Status where
  | ok
  | illegalCommand (why : IllegalCause)
  | misuse (why : MisuseCause)
  | precondition (why : PreconditionCause)
  /-- ALLOC_FAIL(1): no other DETAIL exists (R245). -/
  | allocFail
deriving DecidableEq, Repr

/-- A response: a status, and an output byte string when the command returns one (R79). Its bytes are `Response.frame`. -/
structure Response where
  status : Status
  output : Option Bytes
deriving DecidableEq, Repr

/-! ## Contexts -/

/-- `PHASE` of a digest context (R25); its two-bit code is `Phase.code`. -/
inductive Phase where
  | empty
  | active
  | finalized
deriving DecidableEq, Repr

/-- `HPHASE` of an HMAC context (R33); its two-bit code is `HPhase.code`. -/
inductive HPhase where
  | empty
  | keyed
  | finalized
deriving DecidableEq, Repr

/-- `DCTX`: a digest context register set (R24). -/
structure DCtx where
  /-- `PHASE`. -/
  phase : Phase
  /-- `ALG`. -/
  alg : Alg
  /-- `H[0..7]`. -/
  h : HWords
  /-- `BUF[0..127]`. -/
  buf : Reg128
  /-- `BUFLEN`. -/
  bufLen : BitVec 7
  /-- `TOTBITS`. -/
  totBits : BitVec 128
deriving DecidableEq, Repr

/-- `HCTX`: an HMAC context register set (R32). -/
structure HCtx where
  /-- `HPHASE`. -/
  phase : HPhase
  /-- `HALG`. -/
  alg : Alg
  /-- `IPAD[0..127]`. -/
  ipad : Reg128
  /-- `OPAD[0..127]`. -/
  opad : Reg128
  /-- `INNER`. -/
  inner : DCtx
  /-- `OUTER`. -/
  outer : DCtx
  /-- `IBASE`. -/
  ibase : DCtx
  /-- `OBASE`. -/
  obase : DCtx
deriving DecidableEq, Repr

/-- What a unit instance is, with the context it owns (R7, R20). A PBKDF2 unit holds no register (R35). -/
inductive Engine where
  | digest (ctx : DCtx)
  | hmac (ctx : HCtx)
  | pbkdf2
deriving DecidableEq, Repr

/-- The kind of a unit instance. -/
def Engine.kind : Engine → UnitKind
  | .digest _ => .digest
  | .hmac _ => .hmac
  | .pbkdf2 => .pbkdf2

/-- A unit instance with its own command channel (spec/20_memory.md R57). -/
structure HwUnit where
  /-- The context. -/
  engine : Engine
  /-- The bytes the host has submitted and the unit has not consumed, first byte first (R59, R80): by the host's moves one whole
  frame or none (`State.submit`, `State.Serial`). -/
  cmd : Bytes
  /-- The responses sent and not yet collected by the host, oldest first (R79, R278). -/
  rsp : List Response
  /-- The allocator's answer to the next draw of this unit; only a PBKDF2 unit draws (spec/46_pbkdf2.md R222; log 5). -/
  allocNext : AllocDraw
  /-- How many answers the allocator has given this unit, counting `allocNext`: the number of its next free value (log 5). -/
  drawCount : Nat
deriving DecidableEq, Repr

/-- The machine: every unit instance, and what the platform sets. -/
structure State where
  /-- The unit instances; an index in this list is the name of a channel (R254). -/
  units : List HwUnit
  /-- The unit served next (log 3). -/
  cur : Nat
  /-- The units served after it; round robin once the list is used up (R7, R277; log 3). -/
  turns : List Nat
  /-- The platform's reset signal (spec/70_reset_and_hazards.md R270; log 8). -/
  resetLine : Bool
  /-- `SCRATCH_FROM_ALLOCATOR` (spec/46_pbkdf2.md R222; log 5). -/
  scratchFromAllocator : Bool
deriving DecidableEq, Repr

/-! ## Stops -/

/-- Why a step faults. -/
inductive Fault where
  /-- Raised by every meaning and by the step when `cur` names no element of `units`: no such channel exists (R254; log 18).
  Safe: no state that meets the invariant of Safety.lean raises it. -/
  | noUnit
deriving DecidableEq, Repr

/-- Why a step is refused. -/
inductive Refusal where
  /-- Raised by an arm of `exec` for a command without a meaning; safe. No arm raises it: every command has its meaning. -/
  | notModelled (mnemonic : String)
  /-- Raised by DUPD, HUPD, HKEY and PBKDF2 for an input that would take a context to 2^64 bits (R31, R256). The spec calls the
  hardware's behaviour there unspecified and has the model refuse it. Safe. -/
  | messageTooLong
  /-- Raised by the step when the stream of the served unit holds part of a frame: whole frames are a host duty (R80, R273,
  spec/93_implementation_defined.md U13), and no move of the host leads there (log 6). Safe. -/
  | truncatedFrame
deriving DecidableEq, Repr

/-! ## Reset (R40) -/

/-- A digest context after reset: `EMPTY`. R40 leaves every other field unspecified, and no rule reads one while the phase is
`EMPTY`; the values here are the model's (DESIGN CHOICE, log 1 and log 2). -/
def DCtx.initial : DCtx where
  phase := .empty
  alg := .sha1
  h := Vector.replicate 8 0
  buf := Vector.replicate 128 0
  bufLen := 0
  totBits := 0

/-- An HMAC context after reset: `EMPTY`, the rest as for a digest context (R40; DESIGN CHOICE, log 1 and log 2). -/
def HCtx.initial : HCtx where
  phase := .empty
  alg := .sha1
  ipad := Vector.replicate 128 0
  opad := Vector.replicate 128 0
  inner := DCtx.initial
  outer := DCtx.initial
  ibase := DCtx.initial
  obase := DCtx.initial

/-- The context of a unit of a kind after reset. -/
def Engine.initial : UnitKind → Engine
  | .digest => .digest DCtx.initial
  | .hmac => .hmac HCtx.initial
  | .pbkdf2 => .pbkdf2

/-- Unit `n`, of a kind, after reset: nothing submitted, nothing to collect (R257, R270), its first draw a free value (R222;
log 5). -/
def HwUnit.initial (n : Nat) (k : UnitKind) : HwUnit where
  engine := Engine.initial k
  cmd := []
  rsp := []
  allocNext := Config.allocDraw n 0
  drawCount := 1

/-- The units of these kinds after reset, numbered from `n` on. -/
def initialUnits : Nat → List UnitKind → List HwUnit
  | _, [] => []
  | n, k :: ks => HwUnit.initial n k :: initialUnits (n + 1) ks

/-- The kinds of the unit instances: one of each, then the further ones Config leaves open (R9; log 4). -/
def unitKinds : List UnitKind :=
  [.digest, .hmac, .pbkdf2] ++ List.replicate Config.moreDigestUnits .digest
    ++ List.replicate Config.moreHmacUnits .hmac ++ List.replicate Config.morePbkdf2Units .pbkdf2

/-- The machine right after reset (R40, R270). -/
def State.reset : State where
  units := initialUnits 0 unitKinds
  cur := 0
  turns := []
  resetLine := false
  scratchFromAllocator := Config.scratchFromAllocator

end Sys2Proof.Machine
end

