-- ==== Sys2Proof/Machine/Flags.lean ====
section
/-! DEFINITION. CTB-CORE has no flags (spec/10_state.md R23): the status word of a response takes their place. Its fields, its
bytes, and the codes of the lifecycle fields (spec/60_exceptions.md R240 to R245, spec/30_encoding.md R79, spec/10_state.md R25, R33). -/

namespace Sys2Proof.Machine

/-- `PHASE` as the two-bit field holds it (R25). -/
def Phase.code : Phase → BitVec 2
  | .empty => 0
  | .active => 1
  | .finalized => 2

/-- `HPHASE` as the two-bit field holds it (R33). -/
def HPhase.code : HPhase → BitVec 2
  | .empty => 0
  | .keyed => 1
  | .finalized => 2

/-- `CODE`, bits `[7:0]` of the status word (R240). -/
def Status.code : Status → BitVec 8
  | .ok => 0
  | .illegalCommand _ => 1
  | .misuse _ => 2
  | .precondition _ => 3
  | .allocFail => 4

/-- `DETAIL`, bits `[15:8]` of the status word (R241, R242, R244, R245). -/
def Status.detail : Status → BitVec 8
  | .ok => 0
  | .illegalCommand .opcode => 1
  | .illegalCommand .reservedBits => 2
  | .illegalCommand .badAlg => 3
  | .illegalCommand .algNotZero => 4
  | .misuse .contextEmpty => 1
  | .misuse .contextFinalized => 2
  | .precondition .noIterations => 1
  | .precondition .noOutput => 2
  | .precondition .outputTooLong => 3
  | .precondition .noMac => 4
  | .precondition .macTooLong => 5
  | .allocFail => 1

/-- The 32-bit status word; bits `[31:16]` are 0 (R240). -/
def Status.word (st : Status) : BitVec 32 := (0 : BitVec 16) ++ st.detail ++ st.code

/-- The bytes of a response: the status word, and after an OK with an output the output as a byte string (R79). -/
def Response.frame (r : Response) : Bytes :=
  wordBytes r.status.word ++
    match r.status, r.output with
    | .ok, some out => stringBytes out
    | _, _ => []

end Sys2Proof.Machine
end

