-- ==== Sys2Proof/Machine/Ops.lean ====
section
/-! DEFINITION. The operations the commands share: reading and writing the served unit, answering a command, raising a status
(CTB-CORE's exceptions: spec/60_exceptions.md R243, R247), the allocator's draw, the order of service, and the host's moves. -/

namespace Sys2Proof.Machine

/-- The outcome of a step of this machine. -/
abbrev Outcome := Host.Outcome State Fault Refusal

/-- Why the body of a command does not complete: it raises a status, or the model refuses it. -/
inductive Stop where
  | raise (st : Status)
  | refuse (r : Refusal)
deriving DecidableEq, Repr

/-! ## The served unit -/

/-- The kind of a unit. -/
def HwUnit.kind (u : HwUnit) : UnitKind := u.engine.kind

/-- The unit served. -/
def State.unit? (s : State) : Option HwUnit := s.units[s.cur]?

/-- The context of the unit served. -/
def State.engine? (s : State) : Option Engine := s.unit?.map (·.engine)

/-- Change the unit served and no other (R56, R60). -/
def State.modifyUnit (s : State) (f : HwUnit → HwUnit) : State := { s with units := s.units.modify s.cur f }

/-- A unit that sends one more response (R79). -/
def HwUnit.respond (u : HwUnit) (r : Response) : HwUnit := { u with rsp := u.rsp ++ [r] }

/-- `Respond`: the served unit sends a response (spec/00_scope.md R13, R79). -/
def State.respond (s : State) (r : Response) : State := s.modifyUnit (·.respond r)

/-- The served unit's context is written. -/
def State.setEngine (s : State) (e : Engine) : State := s.modifyUnit fun u => { u with engine := e }

/-- The served unit's stream is what follows the frame it has taken (R59, R80). -/
def State.consume (s : State) (rest : Bytes) : State := s.modifyUnit fun u => { u with cmd := rest }

/-! ## Completing a command, and raising a status -/

/-- `Respond(OK, out)` with the context the command leaves (R13). -/
def State.complete (s : State) (e : Engine) (out : Option Bytes) : State := (s.setEngine e).respond ⟨.ok, out⟩

/-- TAKING AN EXCEPTION. CTB-CORE has no traps: an exception saves nothing, changes no mode and goes to no handler; its only
effect is the status in the response to the command that raised it (R247). No context is written and no output returned
(R243). There is no return from it: the unit takes its next command (R248). -/
def State.raise (s : State) (st : Status) : Outcome := .next (s.respond ⟨st, none⟩)

/-- The end of a command's body: completed with a context and an output, raised, or refused. -/
def State.conclude (s : State) : Except Stop (Engine × Option Bytes) → Outcome
  | .ok r => .next (s.complete r.1 r.2)
  | .error (.raise st) => s.raise st
  | .error (.refuse why) => .refused why

/-- A command of the digest unit, on the context of the unit served. On a unit of another kind it is illegal (R71; log 10). -/
def State.onDigest (s : State) (f : DCtx → Outcome) : Outcome :=
  match s.engine? with
  | none => .fault .noUnit
  | some (.digest c) => f c
  | some (.hmac _) => s.raise (.illegalCommand .opcode)
  | some .pbkdf2 => s.raise (.illegalCommand .opcode)

/-- A command of the HMAC engine, on the context of the unit served (R71; log 10). -/
def State.onHmac (s : State) (f : HCtx → Outcome) : Outcome :=
  match s.engine? with
  | none => .fault .noUnit
  | some (.digest _) => s.raise (.illegalCommand .opcode)
  | some (.hmac c) => f c
  | some .pbkdf2 => s.raise (.illegalCommand .opcode)

/-- A command of the PBKDF2 unit (R71; log 10). -/
def State.onPbkdf2 (s : State) (f : Outcome) : Outcome :=
  match s.engine? with
  | none => .fault .noUnit
  | some (.digest _) => s.raise (.illegalCommand .opcode)
  | some (.hmac _) => s.raise (.illegalCommand .opcode)
  | some .pbkdf2 => f

/-! ## The scratch allocator (R222) -/

/-- The allocator's answer to the next draw of the unit served. -/
def State.allocNext? (s : State) : Option AllocDraw := s.unit?.map (·.allocNext)

/-- A draw is taken and answers FAIL. -/
def State.drawFails (s : State) : Bool := s.scratchFromAllocator && s.allocNext? == some .fail

/-- Unit `n` uses up the allocator's answer to its draw, and the answer to its next one is a free value. -/
def HwUnit.draw (u : HwUnit) (n : Nat) : HwUnit :=
  { u with allocNext := Config.allocDraw n u.drawCount, drawCount := u.drawCount + 1 }

/-- `ALLOC_DRAW()`: where scratch comes from the allocator, the unit served takes a draw. R222 says only that a command takes one
draw from outside, not whether PBKDF2 units share one sequence of answers; THE MODEL'S CHOICE (log 5): each unit has its own, so
that units share no mutable state (R60). -/
def State.takeDraw (s : State) : State :=
  if s.scratchFromAllocator then s.modifyUnit (·.draw s.cur) else s

/-! ## The order of service (R7, R60, R277; log 3) -/

/-- The next unit is served: the platform's list first, round robin once it is used up. -/
def State.passTurn (s : State) : State :=
  match s.turns with
  | k :: ks => { s with cur := k % s.units.length, turns := ks }
  | [] => { s with cur := (s.cur + 1) % s.units.length }

/-! ## The host and the platform -/

/-- A unit with no command submitted (R257): the last one's response has been sent. -/
def HwUnit.idle (u : HwUnit) : Bool := u.cmd.isEmpty

/-- The host submits a frame to the channel of unit `k` (R57, R78). It has no such move (`none`) while a command to that unit is
without its response (R61), with anything but one whole frame (R80), or where there is no unit `k`: the host's duties (R273). -/
def State.submit (s : State) (k : Nat) (frame : Bytes) : Option State :=
  match s.units[k]? with
  | none => none
  | some u =>
    if u.idle && wholeFrame u.kind frame then some { s with units := s.units.set k { u with cmd := frame } } else none

/-- The host collects the responses of unit `k`. -/
def State.collect (s : State) (k : Nat) : State :=
  { s with units := s.units.modify k fun u => { u with rsp := [] } }

/-- The platform asserts the reset signal (R270). -/
def State.assertReset (s : State) : State := { s with resetLine := true }

/-- A unit at the reset event: its context is as after reset, its stream and its responses are empty (R270; log 8); the allocator,
outside the machine, goes on with its draws (log 5). -/
def HwUnit.reset (u : HwUnit) : HwUnit := { u with engine := Engine.initial u.kind, cmd := [], rsp := [] }

/-- The reset event: every unit instance is reset at once, and the signal is taken (R270, R271; log 8). -/
def State.platformReset (s : State) : State := { s with units := s.units.map (·.reset), resetLine := false }

/-- The first unit of a kind; the unit served where there is none (log 17). -/
def State.unitOfKind (s : State) (k : UnitKind) : Nat :=
  (s.units.findIdx? fun u => u.kind == k).getD s.cur

/-- The frame is all the next step finds: it is the stream of the first unit of its kind, and that unit is served (log 17). -/
def State.loadFrame (s : State) (k : UnitKind) (frame : Bytes) : State :=
  { s with
    cur := s.unitOfKind k
    units := s.units.modify (s.unitOfKind k) fun u => { u with cmd := frame }
    resetLine := false }

end Sys2Proof.Machine
end

