-- ==== Sys2Proof/Machine/Sha1.lean ====
section
/-! DEFINITION. `sha1_core`: the SHA-1 compression (spec/41_sha1.md R120 to R125). -/

namespace Sys2Proof

/-- The working variables `a..e` of SHA-1, and one line `al..el` or `ar..er` of RIPEMD-160 (spec/10_state.md R36). -/
structure Five where
  a : Word32
  b : Word32
  c : Word32
  d : Word32
  e : Word32
deriving DecidableEq, Repr

/-- `H[0..4]` as 32-bit words. -/
def Five.load (h : HWords) : Five :=
  ⟨h[0].setWidth 32, h[1].setWidth 32, h[2].setWidth 32, h[3].setWidth 32, h[4].setWidth 32⟩

/-- `H[0..4]` written, `H[5..7]` as they were (R27). -/
def Five.store (v : Five) (h : HWords) : HWords :=
  #v[v.a.setWidth 64, v.b.setWidth 64, v.c.setWidth 64, v.d.setWidth 64, v.e.setWidth 64, h[5], h[6], h[7]]

/-- The round constant `K(t)` (R121). -/
def sha1K (t : Nat) : Word32 :=
  if t < 20 then 0x5a827999 else if t < 40 then 0x6ed9eba1 else if t < 60 then 0x8f1bbcdc else 0xca62c1d6

/-- The round function `f(t, b, c, d)` (R122). -/
def sha1F (t : Nat) (b c d : Word32) : Word32 :=
  if t < 20 then (b &&& c) ||| (~~~b &&& d)
  else if t < 40 then b ^^^ c ^^^ d
  else if t < 60 then (b &&& c) ||| (b &&& d) ||| (c &&& d)
  else b ^^^ c ^^^ d

/-- The next word of the schedule, `W[t]` with `t` the number of words there are (R123). -/
def sha1NextWord (ws : List Word32) : Word32 :=
  let t := ws.length
  rotl 1 (ws.getD (t - 3) 0 ^^^ ws.getD (t - 8) 0 ^^^ ws.getD (t - 14) 0 ^^^ ws.getD (t - 16) 0)

/-- `n` more words of the schedule. -/
def sha1Extend : Nat → List Word32 → List Word32
  | 0, ws => ws
  | n + 1, ws => sha1Extend n (ws ++ [sha1NextWord ws])

/-- The message schedule `W[0..79]` of a block (R123). -/
def sha1Schedule (blk : Bytes) : List Word32 := sha1Extend 64 ((List.range 16).map (beWord 32 blk))

/-- Round `t` with its schedule word (R124, as the simultaneous assignment of R125). -/
def sha1Round (t : Nat) (w : Word32) (v : Five) : Five where
  a := rotl 5 v.a + sha1F t v.b v.c v.d + v.e + sha1K t + w
  b := v.a
  c := rotl 30 v.b
  d := v.c
  e := v.d

/-- The rounds from `t` on, one for each schedule word. -/
def sha1Rounds : Nat → List Word32 → Five → Five
  | _, [], v => v
  | t, w :: ws, v => sha1Rounds (t + 1) ws (sha1Round t w v)

/-- `Compress_SHA1(H, blk)` (R124). -/
def compressSha1 (h : Five) (blk : Bytes) : Five :=
  let v := sha1Rounds 0 (sha1Schedule blk) h
  ⟨h.a + v.a, h.b + v.b, h.c + v.c, h.d + v.d, h.e + v.e⟩

end Sys2Proof
end

