-- ==== Sys2Proof/Machine/Ripemd160.lean ====
section
/-! DEFINITION. `ripemd160_core`: the RIPEMD-160 compression (spec/44_ripemd160.md R170 to R178). -/

namespace Sys2Proof

/-- The boolean functions `f1` to `f5`, numbered from 0 (R172). -/
def rmdF (n : Nat) (x y z : Word32) : Word32 :=
  match n with
  | 0 => x ^^^ y ^^^ z
  | 1 => (x &&& y) ||| (~~~x &&& z)
  | 2 => (x ||| ~~~y) ^^^ z
  | 3 => (x &&& z) ||| (y &&& ~~~z)
  | _ => x ^^^ (y ||| ~~~z)

/-- The constants `K` of the left line, one for each round of 16 steps (R173). -/
def rmdK : List Word32 := [0x00000000, 0x5a827999, 0x6ed9eba1, 0x8f1bbcdc, 0xa953fd4e]

/-- The constants `K'` of the right line (R173). -/
def rmdK' : List Word32 := [0x50a28be6, 0x5c4dd124, 0x6d703ef3, 0x7a6d76e9, 0x00000000]

/-- The message word selection `r` of the left line (R174). -/
def rmdR : List Nat :=
    [0, 1, 2, 3, 4, 5, 6, 7, 8, 9, 10, 11, 12, 13, 14, 15]
    ++ [7, 4, 13, 1, 10, 6, 15, 3, 12, 0, 9, 5, 2, 14, 11, 8]
    ++ [3, 10, 14, 4, 9, 15, 8, 1, 2, 7, 0, 6, 13, 11, 5, 12]
    ++ [1, 9, 11, 10, 0, 8, 12, 4, 13, 3, 7, 15, 14, 5, 6, 2]
    ++ [4, 0, 5, 9, 7, 12, 2, 10, 14, 1, 3, 8, 11, 6, 15, 13]

/-- The message word selection `r'` of the right line (R174). -/
def rmdR' : List Nat :=
    [5, 14, 7, 0, 9, 2, 11, 4, 13, 6, 15, 8, 1, 10, 3, 12]
    ++ [6, 11, 3, 7, 0, 13, 5, 10, 14, 15, 8, 12, 4, 9, 1, 2]
    ++ [15, 5, 1, 3, 7, 14, 6, 9, 11, 8, 12, 2, 10, 0, 4, 13]
    ++ [8, 6, 4, 1, 3, 11, 15, 0, 5, 12, 2, 13, 9, 7, 10, 14]
    ++ [12, 15, 10, 4, 1, 5, 8, 7, 6, 2, 13, 14, 0, 3, 9, 11]

/-- The rotation amounts `s` of the left line (R175). -/
def rmdS : List Nat :=
    [11, 14, 15, 12, 5, 8, 7, 9, 11, 13, 14, 15, 6, 7, 9, 8]
    ++ [7, 6, 8, 13, 11, 9, 7, 15, 7, 12, 15, 9, 11, 7, 13, 12]
    ++ [11, 13, 6, 7, 14, 9, 13, 15, 14, 8, 13, 6, 5, 12, 7, 5]
    ++ [11, 12, 14, 15, 14, 15, 9, 8, 9, 14, 5, 6, 8, 6, 5, 12]
    ++ [9, 15, 5, 11, 6, 8, 13, 12, 5, 12, 13, 14, 11, 8, 5, 6]

/-- The rotation amounts `s'` of the right line (R175). -/
def rmdS' : List Nat :=
    [8, 9, 9, 11, 13, 15, 15, 5, 7, 7, 8, 11, 14, 14, 12, 6]
    ++ [9, 13, 15, 7, 12, 8, 9, 11, 7, 7, 12, 7, 6, 15, 13, 11]
    ++ [9, 7, 15, 11, 8, 6, 6, 14, 12, 13, 5, 14, 13, 13, 7, 5]
    ++ [15, 5, 8, 11, 14, 14, 6, 14, 6, 9, 12, 9, 12, 5, 15, 8]
    ++ [8, 5, 12, 9, 12, 5, 14, 6, 8, 13, 6, 5, 15, 13, 11, 11]

/-- The message words `X[0..15]`, little-endian (R171). -/
def rmdWords (blk : Bytes) : List Word32 := (List.range 16).map (leWord 32 blk)

/-- One step of a line: with its boolean function, its message word, its constant and its rotation (R176). -/
def rmdStep (f : Word32 → Word32 → Word32 → Word32) (x k : Word32) (s : Nat) (v : Five) : Five where
  a := v.e
  b := rotl s (v.a + f v.b v.c v.d + x + k) + v.e
  c := v.b
  d := rotl 10 v.c
  e := v.d

/-- Step `j` of the left line (R176). -/
def rmdLeft (xs : List Word32) (j : Nat) (v : Five) : Five :=
  rmdStep (rmdF (j / 16)) (xs.getD (rmdR.getD j 0) 0) (rmdK.getD (j / 16) 0) (rmdS.getD j 0) v

/-- Step `j` of the right line (R176). -/
def rmdRight (xs : List Word32) (j : Nat) (v : Five) : Five :=
  rmdStep (rmdF (4 - j / 16)) (xs.getD (rmdR'.getD j 0) 0) (rmdK'.getD (j / 16) 0) (rmdS'.getD j 0) v

/-- `n` steps of a line, from step `j` on. -/
def rmdLine (step : Nat → Five → Five) : Nat → Nat → Five → Five
  | 0, _, v => v
  | n + 1, j, v => rmdLine step n (j + 1) (step j v)

/-- `Compress_RMD160(H, blk)`: the two lines and their rotated addition (R177). -/
def compressRmd160 (h : Five) (blk : Bytes) : Five :=
  let xs := rmdWords blk
  let l := rmdLine (rmdLeft xs) 80 0 h
  let r := rmdLine (rmdRight xs) 80 0 h
  ⟨h.b + l.c + r.d, h.c + l.d + r.e, h.d + l.e + r.a, h.e + l.a + r.b, h.a + l.b + r.c⟩

end Sys2Proof
end

