-- ==== Sys2Proof/Machine/Sha256.lean ====
section
/-! DEFINITION. `sha256_core`: the SHA-224 and SHA-256 compression (spec/42_sha256.md R130 to R137). -/

namespace Sys2Proof

/-- The working variables `a..h` of SHA-2, with `w`-bit words (spec/10_state.md R36). -/
structure Eight (w : Nat) where
  a : BitVec w
  b : BitVec w
  c : BitVec w
  d : BitVec w
  e : BitVec w
  f : BitVec w
  g : BitVec w
  h : BitVec w
deriving DecidableEq, Repr

/-- `H[0..7]` as `w`-bit words. -/
def Eight.load (w : Nat) (h : HWords) : Eight w :=
  ⟨h[0].setWidth w, h[1].setWidth w, h[2].setWidth w, h[3].setWidth w,
   h[4].setWidth w, h[5].setWidth w, h[6].setWidth w, h[7].setWidth w⟩

/-- `H[0..7]` written. -/
def Eight.store {w : Nat} (v : Eight w) : HWords :=
  #v[v.a.setWidth 64, v.b.setWidth 64, v.c.setWidth 64, v.d.setWidth 64,
     v.e.setWidth 64, v.f.setWidth 64, v.g.setWidth 64, v.h.setWidth 64]

/-- The round constants (R132). -/
def sha256K : List Word32 :=
    [0x428a2f98, 0x71374491, 0xb5c0fbcf, 0xe9b5dba5, 0x3956c25b, 0x59f111f1, 0x923f82a4, 0xab1c5ed5]
    ++ [0xd807aa98, 0x12835b01, 0x243185be, 0x550c7dc3, 0x72be5d74, 0x80deb1fe, 0x9bdc06a7, 0xc19bf174]
    ++ [0xe49b69c1, 0xefbe4786, 0x0fc19dc6, 0x240ca1cc, 0x2de92c6f, 0x4a7484aa, 0x5cb0a9dc, 0x76f988da]
    ++ [0x983e5152, 0xa831c66d, 0xb00327c8, 0xbf597fc7, 0xc6e00bf3, 0xd5a79147, 0x06ca6351, 0x14292967]
    ++ [0x27b70a85, 0x2e1b2138, 0x4d2c6dfc, 0x53380d13, 0x650a7354, 0x766a0abb, 0x81c2c92e, 0x92722c85]
    ++ [0xa2bfe8a1, 0xa81a664b, 0xc24b8b70, 0xc76c51a3, 0xd192e819, 0xd6990624, 0xf40e3585, 0x106aa070]
    ++ [0x19a4c116, 0x1e376c08, 0x2748774c, 0x34b0bcb5, 0x391c0cb3, 0x4ed8aa4a, 0x5b9cca4f, 0x682e6ff3]
    ++ [0x748f82ee, 0x78a5636f, 0x84c87814, 0x8cc70208, 0x90befffa, 0xa4506ceb, 0xbef9a3f7, 0xc67178f2]

/-- `Ch` (R133). -/
def sha256Ch (x y z : Word32) : Word32 := (x &&& y) ^^^ (~~~x &&& z)

/-- `Maj` (R133). -/
def sha256Maj (x y z : Word32) : Word32 := (x &&& y) ^^^ (x &&& z) ^^^ (y &&& z)

/-- `Σ0` (R133). -/
def sha256BigSigma0 (x : Word32) : Word32 := rotr 2 x ^^^ rotr 13 x ^^^ rotr 22 x

/-- `Σ1` (R133). -/
def sha256BigSigma1 (x : Word32) : Word32 := rotr 6 x ^^^ rotr 11 x ^^^ rotr 25 x

/-- `σ0` (R133). -/
def sha256SmallSigma0 (x : Word32) : Word32 := rotr 7 x ^^^ rotr 18 x ^^^ (x >>> 3)

/-- `σ1` (R133). -/
def sha256SmallSigma1 (x : Word32) : Word32 := rotr 17 x ^^^ rotr 19 x ^^^ (x >>> 10)

/-- The next word of the schedule, `W[t]` with `t` the number of words there are (R134). -/
def sha256NextWord (ws : List Word32) : Word32 :=
  let t := ws.length
  sha256SmallSigma1 (ws.getD (t - 2) 0) + ws.getD (t - 7) 0 + sha256SmallSigma0 (ws.getD (t - 15) 0) + ws.getD (t - 16) 0

/-- `n` more words of the schedule. -/
def sha256Extend : Nat → List Word32 → List Word32
  | 0, ws => ws
  | n + 1, ws => sha256Extend n (ws ++ [sha256NextWord ws])

/-- The message schedule `W[0..63]` of a block (R134). -/
def sha256Schedule (blk : Bytes) : List Word32 := sha256Extend 48 ((List.range 16).map (beWord 32 blk))

/-- One round with its constant and its schedule word: a simultaneous assignment (R135). -/
def sha256Round (k w : Word32) (v : Eight 32) : Eight 32 :=
  let t1 := v.h + sha256BigSigma1 v.e + sha256Ch v.e v.f v.g + k + w
  let t2 := sha256BigSigma0 v.a + sha256Maj v.a v.b v.c
  ⟨t1 + t2, v.a, v.b, v.c, v.d + t1, v.e, v.f, v.g⟩

/-- The rounds, one for each pair of a constant and a schedule word. -/
def sha256Rounds : List Word32 → List Word32 → Eight 32 → Eight 32
  | k :: ks, w :: ws, v => sha256Rounds ks ws (sha256Round k w v)
  | _, _, v => v

/-- `Compress_SHA256(H, blk)` (R136). -/
def compressSha256 (h : Eight 32) (blk : Bytes) : Eight 32 :=
  let v := sha256Rounds sha256K (sha256Schedule blk) h
  ⟨h.a + v.a, h.b + v.b, h.c + v.c, h.d + v.d, h.e + v.e, h.f + v.f, h.g + v.g, h.h + v.h⟩

end Sys2Proof
end

