-- ==== Sys2Proof/Machine/Sha512.lean ====
section
/-! DEFINITION. `sha512_core`: the SHA-384 and SHA-512 compression (spec/43_sha512.md R150 to R157). -/

namespace Sys2Proof

/-- The round constants (R152). -/
def sha512K : List Word64 :=
    [0x428a2f98d728ae22, 0x7137449123ef65cd, 0xb5c0fbcfec4d3b2f, 0xe9b5dba58189dbbc]
    ++ [0x3956c25bf348b538, 0x59f111f1b605d019, 0x923f82a4af194f9b, 0xab1c5ed5da6d8118]
    ++ [0xd807aa98a3030242, 0x12835b0145706fbe, 0x243185be4ee4b28c, 0x550c7dc3d5ffb4e2]
    ++ [0x72be5d74f27b896f, 0x80deb1fe3b1696b1, 0x9bdc06a725c71235, 0xc19bf174cf692694]
    ++ [0xe49b69c19ef14ad2, 0xefbe4786384f25e3, 0x0fc19dc68b8cd5b5, 0x240ca1cc77ac9c65]
    ++ [0x2de92c6f592b0275, 0x4a7484aa6ea6e483, 0x5cb0a9dcbd41fbd4, 0x76f988da831153b5]
    ++ [0x983e5152ee66dfab, 0xa831c66d2db43210, 0xb00327c898fb213f, 0xbf597fc7beef0ee4]
    ++ [0xc6e00bf33da88fc2, 0xd5a79147930aa725, 0x06ca6351e003826f, 0x142929670a0e6e70]
    ++ [0x27b70a8546d22ffc, 0x2e1b21385c26c926, 0x4d2c6dfc5ac42aed, 0x53380d139d95b3df]
    ++ [0x650a73548baf63de, 0x766a0abb3c77b2a8, 0x81c2c92e47edaee6, 0x92722c851482353b]
    ++ [0xa2bfe8a14cf10364, 0xa81a664bbc423001, 0xc24b8b70d0f89791, 0xc76c51a30654be30]
    ++ [0xd192e819d6ef5218, 0xd69906245565a910, 0xf40e35855771202a, 0x106aa07032bbd1b8]
    ++ [0x19a4c116b8d2d0c8, 0x1e376c085141ab53, 0x2748774cdf8eeb99, 0x34b0bcb5e19b48a8]
    ++ [0x391c0cb3c5c95a63, 0x4ed8aa4ae3418acb, 0x5b9cca4f7763e373, 0x682e6ff3d6b2b8a3]
    ++ [0x748f82ee5defb2fc, 0x78a5636f43172f60, 0x84c87814a1f0ab72, 0x8cc702081a6439ec]
    ++ [0x90befffa23631e28, 0xa4506cebde82bde9, 0xbef9a3f7b2c67915, 0xc67178f2e372532b]
    ++ [0xca273eceea26619c, 0xd186b8c721c0c207, 0xeada7dd6cde0eb1e, 0xf57d4f7fee6ed178]
    ++ [0x06f067aa72176fba, 0x0a637dc5a2c898a6, 0x113f9804bef90dae, 0x1b710b35131c471b]
    ++ [0x28db77f523047d84, 0x32caab7b40c72493, 0x3c9ebe0a15c9bebc, 0x431d67c49c100d4c]
    ++ [0x4cc5d4becb3e42b6, 0x597f299cfc657e2a, 0x5fcb6fab3ad6faec, 0x6c44198c4a475817]

/-- `Ch` (R153). -/
def sha512Ch (x y z : Word64) : Word64 := (x &&& y) ^^^ (~~~x &&& z)

/-- `Maj` (R153). -/
def sha512Maj (x y z : Word64) : Word64 := (x &&& y) ^^^ (x &&& z) ^^^ (y &&& z)

/-- `Σ0` (R153). -/
def sha512BigSigma0 (x : Word64) : Word64 := rotr 28 x ^^^ rotr 34 x ^^^ rotr 39 x

/-- `Σ1` (R153). -/
def sha512BigSigma1 (x : Word64) : Word64 := rotr 14 x ^^^ rotr 18 x ^^^ rotr 41 x

/-- `σ0` (R153). -/
def sha512SmallSigma0 (x : Word64) : Word64 := rotr 1 x ^^^ rotr 8 x ^^^ (x >>> 7)

/-- `σ1` (R153). -/
def sha512SmallSigma1 (x : Word64) : Word64 := rotr 19 x ^^^ rotr 61 x ^^^ (x >>> 6)

/-- The next word of the schedule, `W[t]` with `t` the number of words there are (R154). -/
def sha512NextWord (ws : List Word64) : Word64 :=
  let t := ws.length
  sha512SmallSigma1 (ws.getD (t - 2) 0) + ws.getD (t - 7) 0 + sha512SmallSigma0 (ws.getD (t - 15) 0) + ws.getD (t - 16) 0

/-- `n` more words of the schedule. -/
def sha512Extend : Nat → List Word64 → List Word64
  | 0, ws => ws
  | n + 1, ws => sha512Extend n (ws ++ [sha512NextWord ws])

/-- The message schedule `W[0..79]` of a block (R154). -/
def sha512Schedule (blk : Bytes) : List Word64 := sha512Extend 64 ((List.range 16).map (beWord 64 blk))

/-- One round with its constant and its schedule word: a simultaneous assignment (R155). -/
def sha512Round (k w : Word64) (v : Eight 64) : Eight 64 :=
  let t1 := v.h + sha512BigSigma1 v.e + sha512Ch v.e v.f v.g + k + w
  let t2 := sha512BigSigma0 v.a + sha512Maj v.a v.b v.c
  ⟨t1 + t2, v.a, v.b, v.c, v.d + t1, v.e, v.f, v.g⟩

/-- The rounds, one for each pair of a constant and a schedule word. -/
def sha512Rounds : List Word64 → List Word64 → Eight 64 → Eight 64
  | k :: ks, w :: ws, v => sha512Rounds ks ws (sha512Round k w v)
  | _, _, v => v

/-- `Compress_SHA512(H, blk)` (R156). -/
def compressSha512 (h : Eight 64) (blk : Bytes) : Eight 64 :=
  let v := sha512Rounds sha512K (sha512Schedule blk) h
  ⟨h.a + v.a, h.b + v.b, h.c + v.c, h.d + v.d, h.e + v.e, h.f + v.f, h.g + v.g, h.h + v.h⟩

end Sys2Proof
end

