-- ==== Sys2Proof/Machine/Digest.lean ====
section
/-! DEFINITION. The digest unit: IVs, absorbing, padding, serialization, and the commands DINIT, DUPD and DFIN
(spec/40_digest.md R100 to R109). -/

namespace Sys2Proof

/-- `IV_A`, with zero in the words an algorithm of five state words does not hold (R120, R130, R131, R150, R151, R170;
spec/10_state.md R27). -/
def ivWords : Alg → HWords
  | .sha1 => #v[0x67452301, 0xefcdab89, 0x98badcfe, 0x10325476, 0xc3d2e1f0, 0, 0, 0]
  | .sha224 => #v[0xc1059ed8, 0x367cd507, 0x3070dd17, 0xf70e5939, 0xffc00b31, 0x68581511, 0x64f98fa7, 0xbefa4fa4]
  | .sha256 => #v[0x6a09e667, 0xbb67ae85, 0x3c6ef372, 0xa54ff53a, 0x510e527f, 0x9b05688c, 0x1f83d9ab, 0x5be0cd19]
  | .sha384 => #v[0xcbbb9d5dc1059ed8, 0x629a292a367cd507, 0x9159015a3070dd17, 0x152fecd8f70e5939, 0x67332667ffc00b31, 0x8eb44a8768581511, 0xdb0c2e0d64f98fa7, 0x47b5481dbefa4fa4]
  | .sha512 => #v[0x6a09e667f3bcc908, 0xbb67ae8584caa73b, 0x3c6ef372fe94f82b, 0xa54ff53a5f1d36f1, 0x510e527fade682d1, 0x9b05688c2b3e6c1f, 0x1f83d9abfb41bd6b, 0x5be0cd19137e2179]
  | .ripemd160 => #v[0x67452301, 0xefcdab89, 0x98badcfe, 0x10325476, 0xc3d2e1f0, 0, 0, 0]

/-- `Compress_A` on the chaining state: the core `A` uses (R107). -/
def compress (a : Alg) (h : HWords) (blk : Bytes) : HWords :=
  match a with
  | .sha1 => (compressSha1 (Five.load h) blk).store h
  | .sha224 => (compressSha256 (Eight.load 32 h) blk).store
  | .sha256 => (compressSha256 (Eight.load 32 h) blk).store
  | .sha384 => (compressSha512 (Eight.load 64 h) blk).store
  | .sha512 => (compressSha512 (Eight.load 64 h) blk).store
  | .ripemd160 => (compressRmd160 (Five.load h) blk).store h

/-- How many zero bytes the padding of a message has, `r` bytes of its last block being absorbed (R104). -/
def padZeros (a : Alg) (r : Nat) : Nat :=
  (((a.blockBytes : Int) - a.lengthBytes - 1 - r) % a.blockBytes).toNat

/-- `Pad(A, r, L)` (R104). -/
def pad (a : Alg) (r totalBits : Nat) : Bytes :=
  (0x80 : Byte) :: (zeros (padZeros a r) ++ a.encodeInt a.lengthBytes totalBits)

/-- `Serialize(A, H)`: the first digest words, each in `W/8` bytes (R105). -/
def serialize (a : Alg) (h : HWords) : Bytes :=
  (h.toList.take a.digestWords).flatMap fun w => a.encodeInt (a.wordBits / 8) w.toNat

namespace Machine

/-! ## Operations on a digest register set (R202: also on the register sets of an HMAC context) -/

/-- The body of `DINIT` (R100). `BUF` is not written. -/
def DCtx.start (c : DCtx) (a : Alg) : DCtx :=
  { c with alg := a, h := ivWords a, bufLen := 0, totBits := 0, phase := .active }

/-- One byte absorbed, and the block compressed when it is full (R101). `BUFLEN` passes through the value `B` only within the
command, so that value is compared before it is written back to the 7-bit register (log 14). -/
def DCtx.absorbByte (c : DCtx) (b : Byte) : DCtx :=
  let buf := c.buf.setIfInBounds c.bufLen.toNat b
  if c.bufLen.toNat + 1 = c.alg.blockBytes then
    { c with buf := buf, h := compress c.alg c.h (firstBytes buf c.alg.blockBytes), bufLen := 0 }
  else
    { c with buf := buf, bufLen := c.bufLen + 1 }

/-- `Absorb(m)` (R101). -/
def DCtx.absorb (c : DCtx) (m : Bytes) : DCtx := m.foldl DCtx.absorbByte c

/-- The writes of `DUPD`: the bytes absorbed and counted (R101, R29). -/
def DCtx.feed (c : DCtx) (m : Bytes) : DCtx :=
  { c.absorb m with totBits := c.totBits + BitVec.ofNat 128 (8 * m.length) }

/-- The body of `DUPD` (R101). -/
def DCtx.update (c : DCtx) (m : Bytes) : Except Stop DCtx :=
  match c.phase with
  | .empty => .error (.raise (.misuse .contextEmpty))
  | .finalized => .error (.raise (.misuse .contextFinalized))
  | .active =>
    if Config.maxMsgBits ≤ c.totBits.toNat + 8 * m.length then .error (.refuse .messageTooLong)
    else .ok (c.feed m)

/-- `Wipe(ctx)` (R106). -/
def DCtx.wipe (c : DCtx) : DCtx :=
  { c with h := Vector.replicate 8 0, buf := Vector.replicate 128 0, bufLen := 0, totBits := 0 }

/-- The padding absorbed (R103). -/
def DCtx.absorbPad (c : DCtx) : DCtx := c.absorb (pad c.alg c.bufLen.toNat c.totBits.toNat)

/-- The writes and the digest of `DFIN` (R103). -/
def DCtx.close (c : DCtx) : Bytes × DCtx :=
  (serialize c.alg c.absorbPad.h, { c.absorbPad.wipe with phase := .finalized })

/-- The body of `DFIN` (R103). -/
def DCtx.finish (c : DCtx) : Except Stop (Bytes × DCtx) :=
  match c.phase with
  | .empty => .error (.raise (.misuse .contextEmpty))
  | .finalized => .error (.raise (.misuse .contextFinalized))
  | .active => .ok c.close

/-- `Digest(A, m)`: the output of `DINIT A; DUPD m; DFIN` on a private context (spec/00_scope.md R14). -/
def digestOf (a : Alg) (m : Bytes) : Bytes := ((DCtx.initial.start a).feed m).close.1

/-! ## The commands -/

/-- `DINIT` (R100): legal in every phase. -/
def execDinit (a : Alg) (s : State) : Outcome :=
  s.onDigest fun c => s.conclude (.ok (.digest (c.start a), none))

/-- `DUPD` (R101). -/
def execDupd (m : Bytes) (s : State) : Outcome :=
  s.onDigest fun c => s.conclude ((c.update m).map fun c' => (.digest c', none))

/-- `DFIN` (R103). -/
def execDfin (s : State) : Outcome :=
  s.onDigest fun c => s.conclude (c.finish.map fun r => (.digest r.2, some r.1))

/-- The pseudo-instruction `digest` (spec/30_encoding.md R85). -/
def digestProgram (a : Alg) (m : Bytes) : List Instr := [.dinit a, .dupd m, .dfin]

end Machine

end Sys2Proof
end

