-- ==== Sys2Proof/Machine/Hmac.lean ====
section
/-! DEFINITION. The HMAC engine: key normalization and the commands HKEY, HUPD, HFIN and HREINIT (spec/45_hmac.md R200 to R209). -/

namespace Sys2Proof.Machine

/-- `KeyNorm(A, k)`: a key longer than a block is hashed, then zero-padded on the right to a block (R201). -/
def keyNorm (a : Alg) (k : Bytes) : Bytes :=
  let k1 := if a.blockBytes < k.length then digestOf a k else k
  k1 ++ zeros (a.blockBytes - k1.length)

/-- The key is one the model refuses: it has to be hashed and is past the bound (R200, R256). -/
def keyTooLong (a : Alg) (k : Bytes) : Bool :=
  decide (a.blockBytes < k.length) && decide (Config.maxMsgBits ≤ 8 * k.length)

/-! ## Operations on an HMAC register set (also the private one of a PBKDF2 command) -/

/-- The body of `HKEY` (R200). The two updates make the checks of `DUPD` (R202), which cannot fire on a context just started
(log 15). -/
def HCtx.key (c : HCtx) (a : Alg) (k : Bytes) : Except Stop HCtx :=
  if keyTooLong a k then .error (.refuse .messageTooLong)
  else
    let ipad := writeBytes c.ipad 0 (maskBytes 0x36 (keyNorm a k))
    let opad := writeBytes c.opad 0 (maskBytes 0x5c (keyNorm a k))
    match (c.inner.start a).update (firstBytes ipad a.blockBytes), (c.outer.start a).update (firstBytes opad a.blockBytes) with
    | .ok inner, .ok outer =>
      .ok { phase := .keyed, alg := a, ipad := ipad, opad := opad,
            inner := inner, outer := outer, ibase := inner, obase := outer }
    | .error e, _ => .error e
    | .ok _, .error e => .error e

/-- The body of `HUPD` (R203): the data goes to the inner context only. -/
def HCtx.update (c : HCtx) (m : Bytes) : Except Stop HCtx :=
  match c.phase with
  | .empty => .error (.raise (.misuse .contextEmpty))
  | .finalized => .error (.raise (.misuse .contextFinalized))
  | .keyed => (c.inner.update m).map fun inner => { c with inner := inner }

/-- The two digests of `HFIN`: the inner one closed, then the outer one on a transient copy of `OBASE`, so that `OUTER` is not
written (R204, 90_conflicts.md C6). -/
def HCtx.mac (c : HCtx) : Except Stop (Bytes × HCtx) :=
  match c.inner.finish with
  | .error e => .error e
  | .ok (innerDigest, inner) =>
    match c.obase.update innerDigest with
    | .error e => .error e
    | .ok outerCopy =>
      match outerCopy.finish with
      | .error e => .error e
      | .ok (mac, _) => .ok (mac, { c with inner := inner, phase := .finalized })

/-- The body of `HFIN` for a MAC of `n` bytes, its checks in the order of R204. -/
def HCtx.finish (c : HCtx) (n : Nat) : Except Stop (Bytes × HCtx) :=
  match c.phase with
  | .empty => .error (.raise (.misuse .contextEmpty))
  | .finalized => .error (.raise (.misuse .contextFinalized))
  | .keyed =>
    if n = 0 then .error (.raise (.precondition .noMac))
    else if c.alg.digestBytes < n then .error (.raise (.precondition .macTooLong))
    else c.mac.map fun r => (r.1.take n, r.2)

/-- The body of `HREINIT` (R206). -/
def HCtx.reinit (c : HCtx) : Except Stop HCtx :=
  match c.phase with
  | .empty => .error (.raise (.misuse .contextEmpty))
  | .keyed => .ok { c with inner := c.ibase, outer := c.obase, phase := .keyed }
  | .finalized => .ok { c with inner := c.ibase, outer := c.obase, phase := .keyed }

/-! ## The commands -/

/-- `HKEY` (R200): legal in every phase. -/
def execHkey (a : Alg) (k : Bytes) (s : State) : Outcome :=
  s.onHmac fun c => s.conclude ((c.key a k).map fun c' => (.hmac c', none))

/-- `HUPD` (R203). -/
def execHupd (m : Bytes) (s : State) : Outcome :=
  s.onHmac fun c => s.conclude ((c.update m).map fun c' => (.hmac c', none))

/-- `HFIN` (R204). -/
def execHfin (n : BitVec 32) (s : State) : Outcome :=
  s.onHmac fun c => s.conclude ((c.finish n.toNat).map fun r => (.hmac r.2, some r.1))

/-- `HREINIT` (R206). -/
def execHreinit (s : State) : Outcome :=
  s.onHmac fun c => s.conclude (c.reinit.map fun c' => (.hmac c', none))

/-- The pseudo-instruction `hmac` (spec/30_encoding.md R86). -/
def hmacProgram (a : Alg) (k m : Bytes) (n : BitVec 32) : List Instr := [.hkey a k, .hupd m, .hfin n]

end Sys2Proof.Machine
end

