-- ==== Sys2Proof/Machine/Pbkdf2.lean ====
section
/-! DEFINITION. The PBKDF2 unit: the command PBKDF2 on a private HMAC context (spec/46_pbkdf2.md R220 to R226). -/

namespace Sys2Proof.Machine

/-- The longest output: the block index stays within 32 bits (R221). -/
def pbkdf2MaxOutput (a : Alg) : Nat := (2 ^ 32 - 1) * a.digestBytes

/-- The checks of PBKDF2 before any other work, in their order: the preconditions of R221, then the model's refusal (R246). -/
def pbkdf2Checks (a : Alg) (p s : Bytes) (c dk : Nat) : Except Stop Unit :=
  if c = 0 then .error (.raise (.precondition .noIterations))
  else if dk = 0 then .error (.raise (.precondition .noOutput))
  else if pbkdf2MaxOutput a < dk then .error (.raise (.precondition .outputTooLong))
  else if keyTooLong a p then .error (.refuse .messageTooLong)
  else if Config.maxMsgBits ≤ 8 * (a.blockBytes + s.length + 4) then .error (.refuse .messageTooLong)
  else .ok ()

/-- `HREINIT(ph); HUPD(ph, x); HFIN(ph, hLen)` (R220). -/
def HCtx.prf (ph : HCtx) (x : Bytes) : Except Stop (Bytes × HCtx) :=
  match ph.reinit with
  | .error e => .error e
  | .ok ph1 =>
    match ph1.update x with
    | .error e => .error e
    | .ok ph2 => ph2.finish ph2.alg.digestBytes

/-- `n` more iterations of one block: `U` is the last value, `T` the accumulator (R220, the loop over `j`). -/
def pbkdf2Iterate : Nat → HCtx → Bytes → Bytes → Except Stop (Bytes × HCtx)
  | 0, ph, _, t => .ok (t, ph)
  | n + 1, ph, u, t =>
    match ph.prf u with
    | .error e => .error e
    | .ok (u', ph') => pbkdf2Iterate n ph' u' (xorBytes t u')

/-- Block `i` of `c` iterations (R220). -/
def pbkdf2Block (ph : HCtx) (s : Bytes) (c i : Nat) : Except Stop (Bytes × HCtx) :=
  match ph.prf (s ++ beBytes 4 i) with
  | .error e => .error e
  | .ok (u, ph') => pbkdf2Iterate (c - 1) ph' u u

/-- `n` more blocks, from block `i` on, after the output `out` (R220, the loop over `i`). -/
def pbkdf2Blocks (s : Bytes) (c dk hLen : Nat) : Nat → Nat → HCtx → Bytes → Except Stop Bytes
  | 0, _, _, out => .ok out
  | n + 1, i, ph, out =>
    match pbkdf2Block ph s c i with
    | .error e => .error e
    | .ok (t, ph') => pbkdf2Blocks s c dk hLen n (i + 1) ph' (out ++ t.take (min hLen (dk - out.length)))

/-- `ceil(dk / hLen)`: how many blocks an output takes (R220). -/
def pbkdf2BlockCount (a : Alg) (dk : Nat) : Nat := (dk + a.digestBytes - 1) / a.digestBytes

/-- The derivation: the private context `ph` is keyed once, then every block is computed (R220). `ph`, `U`, `T` and the counters
are values of this function, wiped in that none of them is kept (R35, R226; log 12). -/
def pbkdf2Derive (a : Alg) (p s : Bytes) (c dk : Nat) : Except Stop Bytes :=
  match HCtx.initial.key a p with
  | .error e => .error e
  | .ok ph => pbkdf2Blocks s c dk a.digestBytes (pbkdf2BlockCount a dk) 1 ph []

/-- `PBKDF2` (R220): the checks, then the allocator's draw (R222), then the derivation. -/
def execPbkdf2 (a : Alg) (p salt : Bytes) (c : BitVec 32) (dk : BitVec 64) (s : State) : Outcome :=
  s.onPbkdf2 <|
    match pbkdf2Checks a p salt c.toNat dk.toNat with
    | .error e => s.conclude (.error e)
    | .ok _ =>
      if s.drawFails then s.takeDraw.raise .allocFail
      else s.takeDraw.conclude ((pbkdf2Derive a p salt c.toNat dk.toNat).map fun out => (.pbkdf2, some out))

end Sys2Proof.Machine
end

