-- ==== Sys2Proof/Machine/Dispatch.lean ====
section
/-! DEFINITION. One arm per constructor of Instr (spec/30_encoding.md R74). -/

namespace Sys2Proof.Machine

def exec (i : Instr) (s : State) : Host.Outcome State Fault Refusal :=
  match i with
  | .dinit a => Sys2Proof.Machine.execDinit a s
  | .dupd m => Sys2Proof.Machine.execDupd m s
  | .dfin => Sys2Proof.Machine.execDfin s
  | .hkey a k => Sys2Proof.Machine.execHkey a k s
  | .hupd m => Sys2Proof.Machine.execHupd m s
  | .hfin n => Sys2Proof.Machine.execHfin n s
  | .hreinit => Sys2Proof.Machine.execHreinit s
  | .pbkdf2 a p salt c dk => Sys2Proof.Machine.execPbkdf2 a p salt c dk s

end Sys2Proof.Machine
end

