-- ==== Sys2Proof/Machine/Fetch.lean ====
section
/-! DEFINITION. Taking a frame from the stream of the unit served and running it (spec/20_memory.md R59, spec/30_encoding.md R80,
spec/60_exceptions.md R241, R257). -/

namespace Sys2Proof.Machine

/-- The next unit is served once a command has completed. -/
def afterTurn : Outcome → Outcome
  | .next s => .next s.passTurn
  | .fault f => .fault f
  | .refused r => .refused r

/-- What the front of the stream leads to: a command runs; an illegal word is answered with ILLEGAL_COMMAND, its operands
discarded (R80, R241); a part of a frame is refused (R273; no move of the host
leads there, log 6). -/
def State.serve (s : State) : Decoded → Outcome
  | .command i rest => afterTurn (exec i (s.consume rest))
  | .illegal why rest => afterTurn ((s.consume rest).raise (.illegalCommand why))
  | .truncated => .refused .truncatedFrame

/-- The turn of the unit served: nothing happens to a unit with no command submitted (R257). -/
def State.turn (s : State) : Outcome :=
  match s.unit? with
  | none => .fault .noUnit
  | some u => if u.idle then .next s.passTurn else s.serve (decodeFrame u.kind u.cmd)

end Sys2Proof.Machine
end

