-- ==== Sys2Proof/Machine/Step.lean ====
section
/-! DEFINITION. One step of the machine (spec/00_scope.md R6, R7): the reset event when it is signalled (spec/70_reset_and_hazards.md
R270), else the turn of one unit. -/

namespace Sys2Proof.Machine

/-- One step. -/
def step (s : State) : Host.Outcome State Fault Refusal :=
  if s.resetLine then .next s.platformReset else s.turn

/-- `s` with the frame of the word `w` (spec/opcode_table.json's numbering, operands of zeros) as all the next step finds: it is
submitted on the channel of its unit kind, and that unit is served (log 16, log 17). -/
def State.withFetchWord (s : State) (nbits w : Nat) : State :=
  s.loadFrame (tableKind w) (tableFrameExact nbits w)

end Sys2Proof.Machine
end

