-- ==== Sys2Proof/Machine/Closed.lean ====
section
/-! DEFINITION. The closed forms the spec derives for the commands' outputs (spec/40_digest.md R108, spec/45_hmac.md R207,
spec/46_pbkdf2.md R223, R224). No command is defined by them: the claims compare the commands with them. -/

namespace Sys2Proof.Machine

/-- `Compress_A` over the whole blocks of `m`, from the state `h` on (R108). -/
def compressBlocks (a : Alg) (h : HWords) (m : Bytes) : HWords :=
  (List.range (m.length / a.blockBytes)).foldl
    (fun h q => compress a h ((m.drop (q * a.blockBytes)).take a.blockBytes)) h

/-- `Digest(A, m)` in closed form (R108). -/
def digestClosed (a : Alg) (m : Bytes) : Bytes :=
  serialize a (compressBlocks a (ivWords a) (m ++ pad a (m.length % a.blockBytes) (8 * m.length)))

/-- `Hmac(A, k, m, n)` in closed form (R207). -/
def hmacClosed (a : Alg) (k m : Bytes) (n : Nat) : Bytes :=
  (digestClosed a (maskBytes 0x5c (keyNorm a k) ++ digestClosed a (maskBytes 0x36 (keyNorm a k) ++ m))).take n

/-- `PRF(x)` of a derivation (R223). -/
def pbkdf2Prf (a : Alg) (p x : Bytes) : Bytes := hmacClosed a p x a.digestBytes

/-- `U_(j+1)` of block `i` (R223). -/
def pbkdf2U (a : Alg) (p s : Bytes) (i : Nat) : Nat → Bytes
  | 0 => pbkdf2Prf a p (s ++ beBytes 4 i)
  | j + 1 => pbkdf2Prf a p (pbkdf2U a p s i j)

/-- `F(i) = U_1 ^ U_2 ^ ... ^ U_c` (R223). -/
def pbkdf2F (a : Alg) (p s : Bytes) (c i : Nat) : Bytes :=
  (List.range (c - 1)).foldl (fun t j => xorBytes t (pbkdf2U a p s i (j + 1))) (pbkdf2U a p s i 0)

/-- The output in closed form: the first `dk` bytes of `F(1) ‖ F(2) ‖ ...` (R224). -/
def pbkdf2Closed (a : Alg) (p s : Bytes) (c dk : Nat) : Bytes :=
  ((List.range (pbkdf2BlockCount a dk)).flatMap fun i => pbkdf2F a p s c (i + 1)).take dk

end Sys2Proof.Machine
end

