-- ==== Sys2Proof/Safety.lean ====
section
/-! DEFINITION. The terms claims are stated in: the invariant of the contexts (spec/10_state.md R24 to R34), what a response
adds, and a program of commands on one unit. A safe run is one in which no step faults or is refused. -/

namespace Sys2Proof.Machine

/-! ## The invariant -/

/-- What holds of a digest context between commands while it is `ACTIVE` (R24, R27 to R30; R102 for `bufLen_eq`). -/
structure DCtx.ActiveInv (c : DCtx) : Prop where
  /-- `BUFLEN < B` (R28). -/
  bufLen_lt : c.bufLen.toNat < c.alg.blockBytes
  /-- `TOTBITS < 2^64` (R30). -/
  totBits_lt : c.totBits.toNat < Config.maxMsgBits
  /-- `TOTBITS` counts whole bytes (R29). -/
  totBits_bytes : c.totBits.toNat % 8 = 0
  /-- The bytes in `BUF` are the bytes absorbed, modulo the block size (R28, R29). -/
  bufLen_eq : c.totBits.toNat / 8 % c.alg.blockBytes = c.bufLen.toNat
  /-- Bits `[63:32]` of every `H[k]` are zero where `W = 32` (R24). -/
  high_zero : c.alg.wordBits = 32 → ∀ (k : Nat) (hk : k < 8), (c.h[k]).toNat < 2 ^ 32
  /-- `H[NS..7]` are zero (R27). -/
  unused_zero : ∀ (k : Nat) (hk : k < 8), c.alg.stateWords ≤ k → c.h[k] = 0

/-- What `Wipe` leaves (R106). -/
structure DCtx.Wiped (c : DCtx) : Prop where
  h_zero : c.h = Vector.replicate 8 0
  buf_zero : c.buf = Vector.replicate 128 0
  bufLen_zero : c.bufLen = 0
  totBits_zero : c.totBits = 0

/-- The invariant of a digest context, by its phase (R25). -/
def DCtx.Inv (c : DCtx) : Prop :=
  match c.phase with
  | .empty => True
  | .active => c.ActiveInv
  | .finalized => c.Wiped

/-- A keyed baseline: the state after `DINIT A` and one block `p` (R34 item 2), in the fields a rule reads. -/
structure DCtx.IsBase (c : DCtx) (a : Alg) (p : Bytes) : Prop where
  phase_eq : c.phase = .active
  alg_eq : c.alg = a
  h_eq : c.h = compress a (ivWords a) p
  bufLen_zero : c.bufLen = 0
  totBits_eq : c.totBits = BitVec.ofNat 128 (8 * a.blockBytes)

/-- What holds of an HMAC context once it has been keyed (R34, its five items). -/
structure HCtx.KeyInv (c : HCtx) : Prop where
  pads : ∃ key : Bytes, key.length = c.alg.blockBytes ∧
    firstBytes c.ipad c.alg.blockBytes = maskBytes 0x36 key ∧ firstBytes c.opad c.alg.blockBytes = maskBytes 0x5c key
  ibase : c.ibase.IsBase c.alg (firstBytes c.ipad c.alg.blockBytes)
  obase : c.obase.IsBase c.alg (firstBytes c.opad c.alg.blockBytes)
  outer_eq : c.outer = c.obase
  inner_alg : c.inner.alg = c.alg
  inner_keyed : c.phase = .keyed → ∃ m : Bytes, c.ibase.update m = .ok c.inner
  inner_done : c.phase = .finalized → c.inner.phase = .finalized ∧ c.inner.Wiped

/-- The invariant of an HMAC context (R33, R34). -/
def HCtx.Inv (c : HCtx) : Prop := c.phase ≠ .empty → c.KeyInv

/-- The invariant of a unit's context. -/
def Engine.Inv : Engine → Prop
  | .digest c => c.Inv
  | .hmac c => c.Inv
  | .pbkdf2 => True

/-- The invariant of the machine: the unit served exists, there is a unit of each kind (R9), and every context keeps its own. -/
structure State.Inv (s : State) : Prop where
  cur_lt : s.cur < s.units.length
  all_kinds : ∀ k : UnitKind, ∃ u ∈ s.units, u.kind = k
  engines : ∀ u ∈ s.units, u.engine.Inv

/-- The host's duties hold (spec/70_reset_and_hazards.md R273): the stream of every unit is empty or one whole frame. -/
def State.Serial (s : State) : Prop := ∀ u ∈ s.units, u.cmd = [] ∨ wholeFrame u.kind u.cmd = true

/-! ## Terms of claims -/

/-- `t` is `s` but for the unit served, whose context is `e` and which has sent the response `r`. -/
def State.Answers (s t : State) (e : Engine) (r : Response) : Prop :=
  ∃ u, s.unit? = some u ∧
    t = { s with units := s.units.set s.cur { u with engine := e, rsp := u.rsp ++ [r] } }

/-- `t` is `s` but for the draws of the unit served, one of which it has used up where scratch is drawn (R222; log 5). -/
def State.Drawn (s t : State) : Prop :=
  (s.scratchFromAllocator = false → t = s) ∧
  (s.scratchFromAllocator = true → ∃ u, s.unit? = some u ∧
    t = { s with
      units := s.units.set s.cur { u with allocNext := Config.allocDraw s.cur u.drawCount, drawCount := u.drawCount + 1 } })

/-- Run a program of commands on the unit served, one after the other (R59). -/
def runCommands : List Instr → State → Outcome
  | [], s => .next s
  | i :: is, s =>
    match exec i s with
    | .next t => runCommands is t
    | .fault f => .fault f
    | .refused r => .refused r

/-- The turn of unit `k`, whatever the order of service would have been (R7, R60). -/
def stepUnit (k : Nat) (s : State) : Outcome := step { s with cur := k }

/-- The turns of the units listed, one after the other: an interleaving of the units' steps (R60). -/
def runTurns : List Nat → State → Outcome
  | [], s => .next s
  | k :: ks, s =>
    match stepUnit k s with
    | .next t => runTurns ks t
    | .fault f => .fault f
    | .refused r => .refused r

/-- The command answers with the status `st` on the unit served and does nothing else (R243). -/
def State.Raises (i : Instr) (s : State) (st : Status) : Prop :=
  ∃ t e, s.engine? = some e ∧ exec i s = .next t ∧ s.Answers t e ⟨st, none⟩

/-- The last response the unit served has sent. -/
def State.lastResponse (s : State) : Option Response :=
  match s.unit? with
  | some u => u.rsp.getLast?
  | none => none

/-- The output of the last response the unit served has sent. -/
def State.lastOutput (s : State) : Option Bytes := s.lastResponse.bind (·.output)

/-! ## What a rule may read

R25, R28, R33 and R40 leave fields unspecified and say that no rule reads them. Two contexts agree when they differ in such
fields only. -/

/-- Two digest contexts agree on their phase and, while `ACTIVE`, on every field a rule reads (R25, R27, R28). -/
def DCtx.Agree (c d : DCtx) : Prop :=
  c.phase = d.phase ∧
    (c.phase = .active →
      c.alg = d.alg ∧ c.bufLen = d.bufLen ∧ c.totBits = d.totBits ∧
      firstBytes c.buf c.bufLen.toNat = firstBytes d.buf d.bufLen.toNat ∧
      ∀ (k : Nat) (hk : k < 8), k < c.alg.stateWords → c.h[k] = d.h[k])

/-- Two HMAC contexts agree on their phase and, once keyed, on every field a rule reads (R33). -/
def HCtx.Agree (c d : HCtx) : Prop :=
  c.phase = d.phase ∧
    (c.phase ≠ .empty → c.alg = d.alg ∧ c.inner.Agree d.inner ∧ c.ibase.Agree d.ibase ∧ c.obase.Agree d.obase)

/-- Two contexts of units of one kind agree. -/
def Engine.Agree : Engine → Engine → Prop
  | .digest c, .digest d => c.Agree d
  | .hmac c, .hmac d => c.Agree d
  | .pbkdf2, .pbkdf2 => True
  | _, _ => False

end Sys2Proof.Machine
end

