-- ==== Sys2Proof/Certificates/Slice0/Obligations.lean ====
section
/-! DEFINITION. The statements for the provers. Each docstring names the rules or the sections of spec/ it formalises. -/

section

open Sys2Proof Sys2Proof.Machine

/-! ## Encoding -/

/-- 30_encoding.md section 5: the worked encodings, each frame written out byte by byte. -/
def Obligations.KnownFramesDecode : Prop :=
  decodeFrame .digest [0x00, 0x00, 0x01, 0x01] = .command (.dinit .sha1) [] ∧
  decodeFrame .digest [0x00, 0x00, 0x03, 0x01] = .command (.dinit .sha256) [] ∧
  decodeFrame .digest [0x00, 0x00, 0x06, 0x01] = .command (.dinit .ripemd160) [] ∧
  decodeFrame .digest [0x00, 0x00, 0x00, 0x02, 0x00, 0x00, 0x00, 0x00, 0x00, 0x00, 0x00, 0x00] = .command (.dupd []) [] ∧
  decodeFrame .digest [0x00, 0x00, 0x00, 0x03] = .command .dfin [] ∧
  decodeFrame .hmac [0x00, 0x00, 0x03, 0x11, 0x00, 0x00, 0x00, 0x00, 0x00, 0x00, 0x00, 0x03, 0x6b, 0x65, 0x79]
    = .command (.hkey .sha256 [0x6b, 0x65, 0x79]) [] ∧
  decodeFrame .hmac [0x00, 0x00, 0x00, 0x13, 0x00, 0x00, 0x00, 0x20] = .command (.hfin 32) [] ∧
  decodeFrame .hmac [0x00, 0x00, 0x00, 0x14] = .command .hreinit [] ∧
  decodeFrame .pbkdf2 ([0x00, 0x00, 0x03, 0x21, 0x00, 0x00, 0x00, 0x00, 0x00, 0x00, 0x00, 0x08]
    ++ [0x70, 0x61, 0x73, 0x73, 0x77, 0x6f, 0x72, 0x64, 0x00, 0x00, 0x00, 0x00, 0x00, 0x00, 0x00, 0x04, 0x73, 0x61, 0x6c, 0x74]
    ++ [0x00, 0x00, 0x00, 0x01, 0x00, 0x00, 0x00, 0x00, 0x00, 0x00, 0x00, 0x20])
    = .command (.pbkdf2 .sha256 [0x70, 0x61, 0x73, 0x73, 0x77, 0x6f, 0x72, 0x64] [0x73, 0x61, 0x6c, 0x74] 1 32) [] ∧
  decodeFrame .digest [0x00, 0x00, 0x00, 0x01] = .illegal .badAlg [] ∧
  decodeFrame .digest [0x00, 0x00, 0x01, 0x02, 0x00, 0x00, 0x00, 0x00, 0x00, 0x00, 0x00, 0x00] = .illegal .algNotZero [] ∧
  decodeFrame .digest [0x00, 0x10, 0x00, 0x03] = .illegal .reservedBits [] ∧
  decodeFrame .digest [0x00, 0x00, 0x00, 0x04] = .illegal .opcode []

/-- R78: the frame of each command as its formula, and the rule's example. -/
def Obligations.FrameOfEachCommand : Prop :=
  (∀ a, encode (.dinit a) = beBytes 4 (0x00000001 ||| a.code.toNat <<< 8)) ∧
  (∀ m, encode (.dupd m) = beBytes 4 0x00000002 ++ beBytes 8 m.length ++ m) ∧
  encode .dfin = beBytes 4 0x00000003 ∧
  (∀ a k, encode (.hkey a k) = beBytes 4 (0x00000011 ||| a.code.toNat <<< 8) ++ beBytes 8 k.length ++ k) ∧
  (∀ m, encode (.hupd m) = beBytes 4 0x00000012 ++ beBytes 8 m.length ++ m) ∧
  (∀ n : BitVec 32, encode (.hfin n) = beBytes 4 0x00000013 ++ beBytes 4 n.toNat) ∧
  encode .hreinit = beBytes 4 0x00000014 ∧
  (∀ a p s (c : BitVec 32) (dk : BitVec 64), encode (.pbkdf2 a p s c dk) =
    beBytes 4 (0x00000021 ||| a.code.toNat <<< 8) ++ beBytes 8 p.length ++ p ++ beBytes 8 s.length ++ s
      ++ beBytes 4 c.toNat ++ beBytes 8 dk.toNat) ∧
  encode (.dupd [0x61, 0x62, 0x63]) =
    [0x00, 0x00, 0x00, 0x02, 0x00, 0x00, 0x00, 0x00, 0x00, 0x00, 0x00, 0x03, 0x61, 0x62, 0x63]

/-- 30_encoding.md section 3: the decoder of a unit reads back every frame of its kind, whatever follows it in the stream. -/
def Obligations.DecodeEncodeRoundTrip : Prop :=
  ∀ (i : Instr) (rest : Bytes), i.WellFormed → decodeFrame i.unit (encode i ++ rest) = .command i rest

/-- 30_encoding.md section 3: a stream from which a command is decoded begins with the one frame of that command. -/
def Obligations.DecodedFrameIsEncoded : Prop :=
  ∀ (k : UnitKind) (bs rest : Bytes) (i : Instr), decodeFrame k bs = .command i rest →
    i.WellFormed ∧ i.unit = k ∧ bs = encode i ++ rest

/-- R81: the five tests in their order, on the fields as numbers, and the mnemonic and algorithm where all pass. -/
def Obligations.DecodeWordByFields : Prop :=
  (UnitKind.digest.code = 0 ∧ UnitKind.hmac.code = 1 ∧ UnitKind.pbkdf2.code = 2) ∧
  ∀ (w : BitVec 32) (k : UnitKind) (opc alg rsv unit : Nat),
    opc = w.toNat % 256 → alg = w.toNat / 256 % 16 → rsv = w.toNat / 4096 → unit = k.code.toNat →
    (opc ∉ [0x01, 0x02, 0x03, 0x11, 0x12, 0x13, 0x14, 0x21] → decodeWord w k = .error .opcode) ∧
    (opc ∈ [0x01, 0x02, 0x03, 0x11, 0x12, 0x13, 0x14, 0x21] →
      (opc / 16 ≠ unit → decodeWord w k = .error .opcode) ∧
      (opc / 16 = unit →
        (rsv ≠ 0 → decodeWord w k = .error .reservedBits) ∧
        (rsv = 0 →
          (opc ∈ [0x01, 0x11, 0x21] → alg ∉ [1, 2, 3, 4, 5, 6] → decodeWord w k = .error .badAlg) ∧
          (opc ∉ [0x01, 0x11, 0x21] → alg ≠ 0 → decodeWord w k = .error .algNotZero) ∧
          (∀ a : Alg, alg = a.code.toNat →
            (opc = 0x01 → decodeWord w k = .ok (.dinit a)) ∧
            (opc = 0x11 → decodeWord w k = .ok (.hkey a)) ∧
            (opc = 0x21 → decodeWord w k = .ok (.pbkdf2 a))) ∧
          (alg = 0 →
            (opc = 0x02 → decodeWord w k = .ok .dupd) ∧
            (opc = 0x03 → decodeWord w k = .ok .dfin) ∧
            (opc = 0x12 → decodeWord w k = .ok .hupd) ∧
            (opc = 0x13 → decodeWord w k = .ok .hfin) ∧
            (opc = 0x14 → decodeWord w k = .ok .hreinit)))))

/-- R80: how many bytes a frame takes, by `OPC` alone: for every word with that `OPC`, legal or not, on every channel. -/
def Obligations.FrameLengthByOpcode : Prop :=
  ∀ (k : UnitKind) (w : BitVec 32) (bs rest : Bytes),
    (w.toNat % 256 ∉ [0x01, 0x02, 0x03, 0x11, 0x12, 0x13, 0x14, 0x21] →
      (decodeFrame k (beBytes 4 w.toNat ++ bs)).rest? = some bs) ∧
    (w.toNat % 256 ∈ [0x01, 0x03, 0x14] → (decodeFrame k (beBytes 4 w.toNat ++ bs)).rest? = some bs) ∧
    (w.toNat % 256 ∈ [0x02, 0x11, 0x12] → ∀ m : Bytes, m.length < 2 ^ 64 →
      (decodeFrame k (beBytes 4 w.toNat ++ (beBytes 8 m.length ++ m ++ rest))).rest? = some rest) ∧
    (w.toNat % 256 = 0x13 → ∀ n : Bytes, n.length = 4 →
      (decodeFrame k (beBytes 4 w.toNat ++ (n ++ rest))).rest? = some rest) ∧
    (w.toNat % 256 = 0x21 → ∀ p s c dk : Bytes, p.length < 2 ^ 64 → s.length < 2 ^ 64 → c.length = 4 → dk.length = 8 →
      (decodeFrame k (beBytes 4 w.toNat ++ (beBytes 8 p.length ++ p ++ beBytes 8 s.length ++ s ++ c ++ dk ++ rest))).rest?
        = some rest)

/-- R71: `OPC[7:4]` is the unit kind, and an opcode of another kind is illegal with DETAIL 1 on the channel and (log 10) in the
unit. -/
def Obligations.WrongUnitKindIllegal : Prop :=
  (∀ (i : Instr) (k : UnitKind) (rest : Bytes), i.WellFormed → i.unit ≠ k →
    decodeFrame k (encode i ++ rest) = .illegal .opcode rest) ∧
  (∀ (i : Instr) (s : State) (u : HwUnit), s.unit? = some u → i.unit ≠ u.kind → s.Raises i (.illegalCommand .opcode))

/-- R82: which words are illegal on a channel; and an illegal word is answered with ILLEGAL_COMMAND, its operands discarded, no
context changed and no output returned. -/
def Obligations.IllegalWordAnswered : Prop :=
  (∀ (w : BitVec 32) (k : UnitKind),
    (w.toNat % 256 ∉ [0x01, 0x02, 0x03, 0x11, 0x12, 0x13, 0x14, 0x21] ∨
      w.toNat / 4096 ≠ 0 ∨
      (w.toNat % 256 ∈ [0x01, 0x11, 0x21] ∧ w.toNat / 256 % 16 ∈ [0, 7, 8, 9, 10, 11, 12, 13, 14, 15]) ∨
      (w.toNat % 256 ∈ [0x02, 0x03, 0x12, 0x13, 0x14] ∧ w.toNat / 256 % 16 ≠ 0) ∨
      w.toNat % 256 / 16 ≠ k.code.toNat) ↔
    ∃ why, decodeWord w k = .error why) ∧
  (∀ (s : State) (u : HwUnit) (w : BitVec 32) (why : IllegalCause) (bs rest : Bytes),
    s.resetLine = false → s.unit? = some u → u.cmd = beBytes 4 w.toNat ++ bs →
    decodeWord w u.kind = .error why → (decodeFrame u.kind u.cmd).rest? = some rest →
    ∃ t, step s = .next t ∧ t.resetLine = s.resetLine ∧ t.scratchFromAllocator = s.scratchFromAllocator ∧
      t.units = s.units.set s.cur { u with cmd := rest, rsp := u.rsp ++ [⟨.illegalCommand why, none⟩] })

/-! ## Statuses and responses -/

/-- 00_scope.md section 4 (the table of R8), 10_state.md sections 2 and 3: the parameters and the codes. -/
def Obligations.ParameterTable : Prop :=
  (Alg.all.map fun a => (a.code.toNat, a.blockBytes, a.digestBytes, a.wordBits, a.stateWords, a.digestWords, a.lengthBytes)) =
    [(1, 64, 20, 32, 5, 5, 8), (2, 64, 28, 32, 8, 7, 8), (3, 64, 32, 32, 8, 8, 8), (4, 128, 48, 64, 8, 6, 16),
     (5, 128, 64, 64, 8, 8, 16), (6, 64, 20, 32, 5, 5, 8)] ∧
  Alg.all = [.sha1, .sha224, .sha256, .sha384, .sha512, .ripemd160] ∧
  (Phase.empty.code, Phase.active.code, Phase.finalized.code) = (0, 1, 2) ∧
  (HPhase.empty.code, HPhase.keyed.code, HPhase.finalized.code) = (0, 1, 2)

/-- 60_exceptions.md sections 1 and 2: every status word, and that no other is sent. -/
def Obligations.StatusWords : Prop :=
  Status.ok.word = 0x00000000 ∧
  (Status.illegalCommand .opcode).word = 0x00000101 ∧
  (Status.illegalCommand .reservedBits).word = 0x00000201 ∧
  (Status.illegalCommand .badAlg).word = 0x00000301 ∧
  (Status.illegalCommand .algNotZero).word = 0x00000401 ∧
  (Status.misuse .contextEmpty).word = 0x00000102 ∧
  (Status.misuse .contextFinalized).word = 0x00000202 ∧
  (Status.precondition .noIterations).word = 0x00000103 ∧
  (Status.precondition .noOutput).word = 0x00000203 ∧
  (Status.precondition .outputTooLong).word = 0x00000303 ∧
  (Status.precondition .noMac).word = 0x00000403 ∧
  (Status.precondition .macTooLong).word = 0x00000503 ∧
  Status.allocFail.word = 0x00000104 ∧
  ∀ st : Status, st.word ∈ [0x00000000, 0x00000101, 0x00000201, 0x00000301, 0x00000401, 0x00000102, 0x00000202, 0x00000103,
    0x00000203, 0x00000303, 0x00000403, 0x00000503, 0x00000104]

/-- R79: the bytes of the response to a command. -/
def Obligations.ResponseFrameOfCommand : Prop :=
  (∀ (i : Instr) (s t : State), exec i s = .next t → ∃ r, t.lastResponse = some r ∧
    (r.output.isSome ↔ r.status = .ok ∧ (i = .dfin ∨ (∃ n, i = .hfin n) ∨ ∃ a p salt c dk, i = .pbkdf2 a p salt c dk)) ∧
    (∀ out, r.output = some out → r.frame = beBytes 4 r.status.word.toNat ++ beBytes 8 out.length ++ out) ∧
    (r.output = none → r.frame = beBytes 4 r.status.word.toNat)) ∧
  (∀ st : Status, st ≠ .ok → ∀ out, (Response.mk st out).frame = beBytes 4 st.word.toNat)

/-- 60_exceptions.md section 2 (R243): a status other than OK comes with no output, and with the context of the unit as it was; so
too an illegal word. The draw of a PBKDF2 command, which is no architectural state (R20), is all that can move besides; that it is
the served unit's own is the model's choice (log 5, DESIGN CHOICE). -/
def Obligations.RaisedStatusHasNoSideEffects : Prop :=
  (∀ (i : Instr) (s t : State) (u : HwUnit), s.unit? = some u → exec i s = .next t →
    ∃ s' e r, s'.Answers t e r ∧ (s' = s ∨ (i.unit = .pbkdf2 ∧ u.kind = .pbkdf2 ∧ s.Drawn s')) ∧
      (r.status ≠ .ok → e = u.engine ∧ r.output = none)) ∧
  (∀ (s : State) (u : HwUnit) (why : IllegalCause) (rest : Bytes), s.resetLine = false → s.unit? = some u →
    decodeFrame u.kind u.cmd = .illegal why rest →
    ∃ t, step s = .next t ∧
      t.units = s.units.set s.cur { u with cmd := rest, rsp := u.rsp ++ [⟨.illegalCommand why, none⟩] })

/-- 20_memory.md section 5 and 10_state.md section 4: the frame of a command. It sends one response on the unit served; no other
unit, no stream of commands and nothing of the platform changes, but for the draw of a PBKDF2 command, which is the served unit's
own (the model's choice, log 5); PBKDF2 writes no context. -/
def Obligations.CommandFrame : Prop :=
  ∀ (i : Instr) (s t : State), exec i s = .next t →
    t.cur = s.cur ∧ t.turns = s.turns ∧ t.resetLine = s.resetLine ∧ t.scratchFromAllocator = s.scratchFromAllocator ∧
    t.units.length = s.units.length ∧
    (∀ k, k ≠ s.cur → t.units[k]? = s.units[k]?) ∧
    (∃ u v r, s.units[s.cur]? = some u ∧ t.units[s.cur]? = some v ∧ v.kind = u.kind ∧ v.cmd = u.cmd ∧ v.rsp = u.rsp ++ [r] ∧
      (i.unit = .pbkdf2 → v.engine = u.engine) ∧
      (i.unit ≠ .pbkdf2 ∨ u.kind ≠ .pbkdf2 ∨ s.scratchFromAllocator = false →
        v.allocNext = u.allocNext ∧ v.drawCount = u.drawCount))

/-- R242: MISUSE by the phase of the context; the commands that never raise it. -/
def Obligations.MisuseByPhase : Prop :=
  ((Status.misuse .contextEmpty).word = 0x00000102 ∧ (Status.misuse .contextFinalized).word = 0x00000202) ∧
  (∀ (s : State) (c : DCtx), s.engine? = some (.digest c) →
    (c.phase = .empty → (∀ m, s.Raises (.dupd m) (.misuse .contextEmpty)) ∧ s.Raises .dfin (.misuse .contextEmpty)) ∧
    (c.phase = .finalized →
      (∀ m, s.Raises (.dupd m) (.misuse .contextFinalized)) ∧ s.Raises .dfin (.misuse .contextFinalized))) ∧
  (∀ (s : State) (c : HCtx), s.engine? = some (.hmac c) →
    (c.phase = .empty → (∀ m, s.Raises (.hupd m) (.misuse .contextEmpty)) ∧ (∀ n, s.Raises (.hfin n) (.misuse .contextEmpty)) ∧
      s.Raises .hreinit (.misuse .contextEmpty)) ∧
    (c.phase = .finalized →
      (∀ m, s.Raises (.hupd m) (.misuse .contextFinalized)) ∧ (∀ n, s.Raises (.hfin n) (.misuse .contextFinalized)) ∧
      ∃ t e, exec .hreinit s = .next t ∧ s.Answers t e ⟨.ok, none⟩)) ∧
  (∀ (i : Instr) (s t : State) (r : Response) (why : MisuseCause), exec i s = .next t → t.lastResponse = some r →
    r.status = .misuse why → i.unit ≠ .pbkdf2 ∧ (∀ a, i ≠ .dinit a) ∧ (∀ a k, i ≠ .hkey a k))

/-- R244, R221: the causes of PRECONDITION. PBKDF2 checks them in the order given, before anything else: no draw is taken. -/
def Obligations.PreconditionChecks : Prop :=
  ((Status.precondition .noIterations).word = 0x00000103 ∧ (Status.precondition .noOutput).word = 0x00000203 ∧
    (Status.precondition .outputTooLong).word = 0x00000303 ∧ (Status.precondition .noMac).word = 0x00000403 ∧
    (Status.precondition .macTooLong).word = 0x00000503) ∧
  (∀ (s : State) (c : HCtx) (n : BitVec 32), s.engine? = some (.hmac c) → c.phase = .keyed →
    (n = 0 → s.Raises (.hfin n) (.precondition .noMac)) ∧
    (c.alg.digestBytes < n.toNat → s.Raises (.hfin n) (.precondition .macTooLong))) ∧
  (∀ (s : State) (a : Alg) (p salt : Bytes) (c : BitVec 32) (dk : BitVec 64), s.engine? = some .pbkdf2 →
    (c = 0 → s.Raises (.pbkdf2 a p salt c dk) (.precondition .noIterations)) ∧
    (c ≠ 0 → dk = 0 → s.Raises (.pbkdf2 a p salt c dk) (.precondition .noOutput)) ∧
    (c ≠ 0 → (2 ^ 32 - 1) * a.digestBytes < dk.toNat →
      s.Raises (.pbkdf2 a p salt c dk) (.precondition .outputTooLong))) ∧
  (∀ (i : Instr) (s t : State) (r : Response) (why : PreconditionCause), exec i s = .next t → t.lastResponse = some r →
    r.status = .precondition why →
    ((∃ n, i = .hfin n) ∧ (why = .noMac ∨ why = .macTooLong)) ∨
    ((∃ a p salt c dk, i = .pbkdf2 a p salt c dk) ∧ (why = .noIterations ∨ why = .noOutput ∨ why = .outputTooLong)))

/-- 46_pbkdf2.md (R222) and 60_exceptions.md section 2 (R245): ALLOC_FAIL. A PBKDF2 command whose checks pass takes one draw where
scratch comes from the allocator, and a draw of FAIL is answered with ALLOC_FAIL(1); nothing else is. The draws are free values;
that each unit has its own sequence of them is the model's choice (log 5, DESIGN CHOICE): R222 does not say whose it is. -/
def Obligations.AllocFailOnFailedDraw : Prop :=
  Status.allocFail.word = 0x00000104 ∧
  (∀ (s : State) (a : Alg) (p salt : Bytes) (c : BitVec 32) (dk : BitVec 64), s.engine? = some .pbkdf2 →
    c ≠ 0 → dk ≠ 0 → dk.toNat ≤ (2 ^ 32 - 1) * a.digestBytes →
    (p.length ≤ a.blockBytes ∨ 8 * p.length < 2 ^ 64) → 8 * (a.blockBytes + salt.length + 4) < 2 ^ 64 →
    ∃ s' t r, s.Drawn s' ∧ exec (.pbkdf2 a p salt c dk) s = .next t ∧ s'.Answers t .pbkdf2 r ∧
      (s.scratchFromAllocator = true ∧ s.allocNext? = some .fail → r = ⟨.allocFail, none⟩) ∧
      (s.scratchFromAllocator = false ∨ s.allocNext? = some .ok → r.status = .ok)) ∧
  (∀ (i : Instr) (s t : State) (r : Response), exec i s = .next t → t.lastResponse = some r → r.status = .allocFail →
    (∃ a p salt c dk, i = .pbkdf2 a p salt c dk) ∧ s.scratchFromAllocator = true ∧ s.allocNext? = some .fail)

/-- R109, R209: the statuses a command of the digest unit, and of the HMAC engine, can return. -/
def Obligations.StatusesOfEachUnit : Prop :=
  (∀ (i : Instr) (s t : State) (c : DCtx) (r : Response), i.unit = .digest → s.engine? = some (.digest c) →
    exec i s = .next t → t.lastResponse = some r →
    r.status = .ok ∨ ((∃ why, r.status = .misuse why) ∧ ((∃ m, i = .dupd m) ∨ i = .dfin))) ∧
  (∀ (i : Instr) (s t : State) (c : HCtx) (r : Response), i.unit = .hmac → s.engine? = some (.hmac c) →
    exec i s = .next t → t.lastResponse = some r →
    r.status = .ok ∨
    ((∃ why, r.status = .misuse why) ∧ ((∃ m, i = .hupd m) ∨ (∃ n, i = .hfin n) ∨ i = .hreinit)) ∨
    ((∃ why, r.status = .precondition why) ∧ ∃ n, i = .hfin n))

/-- R256: the four cases the model refuses, each exactly; every other command on a context with its invariant is answered. -/
def Obligations.RefusedExactlyPastBound : Prop :=
  (∀ (s : State) (c : DCtx) (m : Bytes), s.engine? = some (.digest c) → c.phase = .active →
    (exec (.dupd m) s = .refused .messageTooLong ↔ 2 ^ 64 ≤ c.totBits.toNat + 8 * m.length)) ∧
  (∀ (s : State) (c : HCtx) (m : Bytes), s.engine? = some (.hmac c) → c.Inv → c.phase = .keyed →
    (exec (.hupd m) s = .refused .messageTooLong ↔ 2 ^ 64 ≤ c.inner.totBits.toNat + 8 * m.length)) ∧
  (∀ (s : State) (c : HCtx) (a : Alg) (k : Bytes), s.engine? = some (.hmac c) →
    (exec (.hkey a k) s = .refused .messageTooLong ↔ a.blockBytes < k.length ∧ 2 ^ 64 ≤ 8 * k.length)) ∧
  (∀ (s : State) (a : Alg) (p salt : Bytes) (c : BitVec 32) (dk : BitVec 64), s.engine? = some .pbkdf2 →
    c ≠ 0 → dk ≠ 0 → dk.toNat ≤ (2 ^ 32 - 1) * a.digestBytes →
    (exec (.pbkdf2 a p salt c dk) s = .refused .messageTooLong ↔
      (a.blockBytes < p.length ∧ 2 ^ 64 ≤ 8 * p.length) ∨ 2 ^ 64 ≤ 8 * (a.blockBytes + salt.length + 4))) ∧
  (∀ (i : Instr) (s : State), s.Inv → ((∃ a, i = .dinit a) ∨ i = .dfin ∨ (∃ n, i = .hfin n) ∨ i = .hreinit) →
    ∃ t, exec i s = .next t)

/-- R246: the order of the causes, one clause for each place where two can apply. -/
def Obligations.StatusPriority : Prop :=
  decodeWord 0x00100001 .digest = .error .reservedBits ∧
  (∀ (w : BitVec 32) (k : UnitKind), decodeWord w k = .error .opcode ↔ (∀ o ∈ Op.all, o.opc ≠ opcField w) ∨ kindField w ≠ k.code) ∧
  (∀ (w : BitVec 32) (k : UnitKind), decodeWord w k = .error .reservedBits ↔
    rsvField w ≠ 0 ∧ kindField w = k.code ∧ ∃ o ∈ Op.all, o.opc = opcField w) ∧
  (∀ (s : State) (u : HwUnit) (why : IllegalCause) (rest : Bytes), s.resetLine = false → s.unit? = some u →
    decodeFrame u.kind u.cmd = .illegal why rest →
    ∃ t v, step s = .next t ∧ t.units[s.cur]? = some v ∧ v.rsp = u.rsp ++ [⟨.illegalCommand why, none⟩]) ∧
  (∀ (s : State) (c : DCtx) (m : Bytes), s.engine? = some (.digest c) →
    (c.phase = .empty → s.Raises (.dupd m) (.misuse .contextEmpty)) ∧
    (c.phase = .finalized → s.Raises (.dupd m) (.misuse .contextFinalized))) ∧
  (∀ (s : State) (c : HCtx) (m : Bytes) (n : BitVec 32), s.engine? = some (.hmac c) →
    (c.phase = .empty → s.Raises (.hupd m) (.misuse .contextEmpty) ∧ s.Raises (.hfin n) (.misuse .contextEmpty)) ∧
    (c.phase = .finalized → s.Raises (.hupd m) (.misuse .contextFinalized) ∧ s.Raises (.hfin n) (.misuse .contextFinalized))) ∧
  (∀ (s : State) (a : Alg) (p salt : Bytes) (dk : BitVec 64), s.engine? = some .pbkdf2 →
    s.Raises (.pbkdf2 a p salt 0 dk) (.precondition .noIterations)) ∧
  (∀ (s : State) (a : Alg) (p salt : Bytes) (c : BitVec 32), s.engine? = some .pbkdf2 → c ≠ 0 →
    s.Raises (.pbkdf2 a p salt c 0) (.precondition .noOutput)) ∧
  (∀ (s : State) (a : Alg) (p salt : Bytes) (c : BitVec 32) (dk : BitVec 64), s.engine? = some .pbkdf2 → c ≠ 0 →
    (2 ^ 32 - 1) * a.digestBytes < dk.toNat → s.Raises (.pbkdf2 a p salt c dk) (.precondition .outputTooLong)) ∧
  (∀ (s : State) (a : Alg) (p salt : Bytes) (c : BitVec 32) (dk : BitVec 64), s.engine? = some .pbkdf2 →
    c ≠ 0 → dk ≠ 0 → dk.toNat ≤ (2 ^ 32 - 1) * a.digestBytes →
    (a.blockBytes < p.length ∧ 2 ^ 64 ≤ 8 * p.length) ∨ 2 ^ 64 ≤ 8 * (a.blockBytes + salt.length + 4) →
    exec (.pbkdf2 a p salt c dk) s = .refused .messageTooLong)

/-! ## The step -/

/-- 20_memory.md section 5: when the stream of the unit served decodes to a command, a step takes its frame from the stream, runs
it, and passes the turn (the order of service is the model's choice, log 3). -/
def Obligations.StepRunsDecodedCommand : Prop :=
  ∀ (s : State) (u : HwUnit) (i : Instr) (rest : Bytes), s.resetLine = false → s.unit? = some u →
    decodeFrame u.kind u.cmd = .command i rest → ∀ s' : State,
    s' = { s with units := s.units.set s.cur { u with cmd := rest } } →
    (∀ t, exec i s' = .next t → step s = .next t.passTurn) ∧
    (∀ r, exec i s' = .refused r → step s = .refused r) ∧
    (∀ f, exec i s' = .fault f → step s = .fault f)

/-- 60_exceptions.md (R257): a unit with no command submitted is as it was after every step. That a step serving it answers a next
state is the model's reading (log 19, DEDUCED, with the turn of log 3); R257 speaks of no turn. -/
def Obligations.IdleUnitUnchanged : Prop :=
  ∀ (s : State) (k : Nat) (u : HwUnit), s.resetLine = false → s.units[k]? = some u → u.cmd = [] →
    (k = s.cur → ∃ t, step s = .next t) ∧ ∀ t, step s = .next t → t.units[k]? = some u

/-- R270: the reset event, on every unit at once. -/
def Obligations.ResetEvent : Prop :=
  ∀ s : State, s.resetLine = true → ∃ t, step s = .next t ∧ t.units.length = s.units.length ∧
    ∀ (k : Nat) (u : HwUnit), s.units[k]? = some u → ∃ v, t.units[k]? = some v ∧ v.kind = u.kind ∧ v.rsp = [] ∧
      (∀ c, v.engine = .digest c → c.phase = .empty) ∧ (∀ c, v.engine = .hmac c → c.phase = .empty)

/-- 10_state.md section 6: the values R40 gives, and a unit of each kind (R9). -/
def Obligations.ResetState : Prop :=
  (∀ u ∈ State.reset.units, (∀ c, u.engine = .digest c → c.phase = .empty) ∧ (∀ c, u.engine = .hmac c → c.phase = .empty) ∧
    u.rsp = []) ∧
  (State.reset.units.filter fun u => u.kind = .digest).length = Config.nDigest ∧
  (State.reset.units.filter fun u => u.kind = .hmac).length = Config.nHmac ∧
  (State.reset.units.filter fun u => u.kind = .pbkdf2).length = Config.nPbkdf2

/-- 10_state.md sections 2 and 3: the invariant holds after reset. -/
def Obligations.InvAtReset : Prop := State.reset.Inv

/-- 10_state.md sections 2 and 3 (R24, R27 to R30, R34): every step keeps the invariant. -/
def Obligations.StepKeepsInv : Prop := ∀ s t : State, s.Inv → step s = .next t → t.Inv

/-- 60_exceptions.md sections 4 and 7, and the host's duties (20_memory.md R61, 70_reset_and_hazards.md R273): with the invariant a
step never faults, and it is refused only past the bound or on part of a frame (the stops are the model's: logs 6, 9 and 18). Part
of a frame is met only where the duties are broken: they hold at reset, every step and every move of the host keeps them, and the
host submits exactly whole frames to units whose last command has its response (log 16). -/
def Obligations.StepAnswersOrRefuses : Prop :=
  (∀ s : State, s.Inv →
    (∃ t, step s = .next t) ∨ step s = .refused .messageTooLong ∨ (step s = .refused .truncatedFrame ∧ ¬ s.Serial)) ∧
  State.reset.Serial ∧
  (∀ s t : State, s.Serial → step s = .next t → t.Serial) ∧
  (∀ (s t : State) (k : Nat) (frame : Bytes), s.Serial → s.submit k frame = some t → t.Serial) ∧
  (∀ (s : State) (k : Nat), s.Serial → (s.collect k).Serial ∧ s.assertReset.Serial) ∧
  (∀ (s : State) (k : Nat) (frame : Bytes),
    ((∃ t, s.submit k frame = some t) ↔
      ∃ u, s.units[k]? = some u ∧ u.cmd = [] ∧ (decodeFrame u.kind frame).rest? = some []) ∧
    ∀ t, s.submit k frame = some t → ∃ u, s.units[k]? = some u ∧ t = { s with units := s.units.set k { u with cmd := frame } })

/-- 10_state.md sections 2, 3 and 6 (R25, R28, R33, R40): no command reads a field the spec leaves unspecified. On two machines
whose served contexts differ in such fields only, it answers the same response, and the contexts still differ in such fields only. -/
def Obligations.UnspecifiedFieldsUnread : Prop :=
  ∀ (i : Instr) (s s' t : State) (e e' : Engine), s.engine? = some e → s'.engine? = some e' → e.Agree e' →
    s.scratchFromAllocator = s'.scratchFromAllocator → s.allocNext? = s'.allocNext? → exec i s = .next t →
    ∃ t' f f' r, exec i s' = .next t' ∧ t.engine? = some f ∧ t'.engine? = some f' ∧ f.Agree f' ∧
      t.lastResponse = some r ∧ t'.lastResponse = some r

/-! ## Tables and compression cores -/

/-- 41_sha1.md to 44_ripemd160.md (R120, R130, R131, R150, R151, R170): the initial hash values that `DINIT` writes, as words and as
the square roots they are taken from. That SHA-224's words are the low halves of SHA-384's is a sentence R131 marks as derived (from
the two tables). -/
def Obligations.InitialHashValues : Prop :=
  (∀ (s : State) (c : DCtx) (a : Alg), s.engine? = some (.digest c) →
    ∃ t c', exec (.dinit a) s = .next t ∧ t.engine? = some (.digest c') ∧ c'.h = ivWords a) ∧
  (ivWords .sha1).toList.take 5 = [0x67452301, 0xefcdab89, 0x98badcfe, 0x10325476, 0xc3d2e1f0] ∧
  (ivWords .ripemd160).toList.take 5 = [0x67452301, 0xefcdab89, 0x98badcfe, 0x10325476, 0xc3d2e1f0] ∧
  (ivWords .sha224).toList =
    [0xc1059ed8, 0x367cd507, 0x3070dd17, 0xf70e5939, 0xffc00b31, 0x68581511, 0x64f98fa7, 0xbefa4fa4] ∧
  (ivWords .sha256).toList =
    [0x6a09e667, 0xbb67ae85, 0x3c6ef372, 0xa54ff53a, 0x510e527f, 0x9b05688c, 0x1f83d9ab, 0x5be0cd19] ∧
  (ivWords .sha384).toList = [0xcbbb9d5dc1059ed8, 0x629a292a367cd507, 0x9159015a3070dd17, 0x152fecd8f70e5939,
    0x67332667ffc00b31, 0x8eb44a8768581511, 0xdb0c2e0d64f98fa7, 0x47b5481dbefa4fa4] ∧
  (ivWords .sha512).toList = [0x6a09e667f3bcc908, 0xbb67ae8584caa73b, 0x3c6ef372fe94f82b, 0xa54ff53a5f1d36f1,
    0x510e527fade682d1, 0x9b05688c2b3e6c1f, 0x1f83d9abfb41bd6b, 0x5be0cd19137e2179] ∧
  (∀ x ∈ [2, 3, 5, 7, 11, 13, 17, 19].zip (ivWords .sha256).toList, ∃ q < 5,
    (q * 2 ^ 32 + x.2.toNat) ^ 2 ≤ x.1 * 2 ^ 64 ∧ x.1 * 2 ^ 64 < (q * 2 ^ 32 + x.2.toNat + 1) ^ 2) ∧
  (∀ x ∈ [2, 3, 5, 7, 11, 13, 17, 19].zip (ivWords .sha512).toList, ∃ q < 5,
    (q * 2 ^ 64 + x.2.toNat) ^ 2 ≤ x.1 * 2 ^ 128 ∧ x.1 * 2 ^ 128 < (q * 2 ^ 64 + x.2.toNat + 1) ^ 2) ∧
  (∀ x ∈ [23, 29, 31, 37, 41, 43, 47, 53].zip ((ivWords .sha384).toList.zip (ivWords .sha224).toList), ∃ q < 8,
    (q * 2 ^ 64 + x.2.1.toNat) ^ 2 ≤ x.1 * 2 ^ 128 ∧ x.1 * 2 ^ 128 < (q * 2 ^ 64 + x.2.1.toNat + 1) ^ 2 ∧
    x.2.2.toNat = x.2.1.toNat % 2 ^ 32)

/-- R132, R152: the round constants of SHA-2 are the cube roots of the first primes. -/
def Obligations.CubeRootRoundConstants : Prop :=
  sha256K.length = 64 ∧ sha512K.length = 80 ∧
  (∀ x ∈ ((List.range 410).filter (fun n => decide (1 < n) && (List.range n).all fun d => decide (d < 2) || n % d != 0)).zip sha512K,
    ∃ q < 8, (q * 2 ^ 64 + x.2.toNat) ^ 3 ≤ x.1 * 2 ^ 192 ∧ x.1 * 2 ^ 192 < (q * 2 ^ 64 + x.2.toNat + 1) ^ 3) ∧
  (∀ x ∈ ((List.range 410).filter (fun n => decide (1 < n) && (List.range n).all fun d => decide (d < 2) || n % d != 0)).zip sha256K,
    ∃ q < 8, (q * 2 ^ 32 + x.2.toNat) ^ 3 ≤ x.1 * 2 ^ 96 ∧ x.1 * 2 ^ 96 < (q * 2 ^ 32 + x.2.toNat + 1) ^ 3) ∧
  80 ≤ ((List.range 410).filter (fun n => decide (1 < n) && (List.range n).all fun d => decide (d < 2) || n % d != 0)).length

/-- R121 to R124: SHA-1's compression as the loop of the rules, for every schedule that meets R123. -/
def Obligations.Sha1CompressionLoop : Prop :=
  ∀ (h : Five) (blk : Bytes) (W : Nat → BitVec 32) (K : Nat → BitVec 32) (f : Nat → BitVec 32 → BitVec 32 → BitVec 32 → BitVec 32),
    (∀ t, t < 16 → W t = BitVec.ofNat 32 (fromBE ((blk.drop (4 * t)).take 4))) →
    (∀ t, 16 ≤ t → t < 80 → W t = (W (t - 3) ^^^ W (t - 8) ^^^ W (t - 14) ^^^ W (t - 16)).rotateLeft 1) →
    (∀ t, t < 80 → K t = (if t ≤ 19 then 0x5a827999 else if t ≤ 39 then 0x6ed9eba1 else if t ≤ 59 then 0x8f1bbcdc else 0xca62c1d6)) →
    (∀ t b c d, t ≤ 19 → f t b c d = (b &&& c) ||| (~~~b &&& d)) →
    (∀ t b c d, 20 ≤ t → t ≤ 39 → f t b c d = b ^^^ c ^^^ d) →
    (∀ t b c d, 40 ≤ t → t ≤ 59 → f t b c d = (b &&& c) ||| (b &&& d) ||| (c &&& d)) →
    (∀ t b c d, 60 ≤ t → t ≤ 79 → f t b c d = b ^^^ c ^^^ d) →
    ∀ v : Five,
    v = (List.range 80).foldl
      (fun x t => ⟨x.a.rotateLeft 5 + f t x.b x.c x.d + x.e + K t + W t, x.a, x.b.rotateLeft 30, x.c, x.d⟩) h →
    compressSha1 h blk = ⟨h.a + v.a, h.b + v.b, h.c + v.c, h.d + v.d, h.e + v.e⟩

/-- R133 to R136: SHA-256's compression as the loop of the rules, for every schedule that meets R134. -/
def Obligations.Sha256CompressionLoop : Prop :=
  ∀ (h : Eight 32) (blk : Bytes) (W : Nat → BitVec 32) (Ch Maj : BitVec 32 → BitVec 32 → BitVec 32 → BitVec 32)
    (S0 S1 s0 s1 : BitVec 32 → BitVec 32),
    (∀ x y z, Ch x y z = (x &&& y) ^^^ (~~~x &&& z)) →
    (∀ x y z, Maj x y z = (x &&& y) ^^^ (x &&& z) ^^^ (y &&& z)) →
    (∀ x, S0 x = x.rotateRight 2 ^^^ x.rotateRight 13 ^^^ x.rotateRight 22) →
    (∀ x, S1 x = x.rotateRight 6 ^^^ x.rotateRight 11 ^^^ x.rotateRight 25) →
    (∀ x, s0 x = x.rotateRight 7 ^^^ x.rotateRight 18 ^^^ (x >>> 3)) →
    (∀ x, s1 x = x.rotateRight 17 ^^^ x.rotateRight 19 ^^^ (x >>> 10)) →
    (∀ t, t < 16 → W t = BitVec.ofNat 32 (fromBE ((blk.drop (4 * t)).take 4))) →
    (∀ t, 16 ≤ t → t < 64 → W t = s1 (W (t - 2)) + W (t - 7) + s0 (W (t - 15)) + W (t - 16)) →
    ∀ v : Eight 32,
    v = (List.range 64).foldl
      (fun x t =>
        ⟨(x.h + S1 x.e + Ch x.e x.f x.g + sha256K.getD t 0 + W t) + (S0 x.a + Maj x.a x.b x.c), x.a, x.b, x.c,
          x.d + (x.h + S1 x.e + Ch x.e x.f x.g + sha256K.getD t 0 + W t), x.e, x.f, x.g⟩) h →
    compressSha256 h blk =
      ⟨h.a + v.a, h.b + v.b, h.c + v.c, h.d + v.d, h.e + v.e, h.f + v.f, h.g + v.g, h.h + v.h⟩

/-- R153 to R156: SHA-512's compression as the loop of the rules, for every schedule that meets R154. -/
def Obligations.Sha512CompressionLoop : Prop :=
  ∀ (h : Eight 64) (blk : Bytes) (W : Nat → BitVec 64) (Ch Maj : BitVec 64 → BitVec 64 → BitVec 64 → BitVec 64)
    (S0 S1 s0 s1 : BitVec 64 → BitVec 64),
    (∀ x y z, Ch x y z = (x &&& y) ^^^ (~~~x &&& z)) →
    (∀ x y z, Maj x y z = (x &&& y) ^^^ (x &&& z) ^^^ (y &&& z)) →
    (∀ x, S0 x = x.rotateRight 28 ^^^ x.rotateRight 34 ^^^ x.rotateRight 39) →
    (∀ x, S1 x = x.rotateRight 14 ^^^ x.rotateRight 18 ^^^ x.rotateRight 41) →
    (∀ x, s0 x = x.rotateRight 1 ^^^ x.rotateRight 8 ^^^ (x >>> 7)) →
    (∀ x, s1 x = x.rotateRight 19 ^^^ x.rotateRight 61 ^^^ (x >>> 6)) →
    (∀ t, t < 16 → W t = BitVec.ofNat 64 (fromBE ((blk.drop (8 * t)).take 8))) →
    (∀ t, 16 ≤ t → t < 80 → W t = s1 (W (t - 2)) + W (t - 7) + s0 (W (t - 15)) + W (t - 16)) →
    ∀ v : Eight 64,
    v = (List.range 80).foldl
      (fun x t =>
        ⟨(x.h + S1 x.e + Ch x.e x.f x.g + sha512K.getD t 0 + W t) + (S0 x.a + Maj x.a x.b x.c), x.a, x.b, x.c,
          x.d + (x.h + S1 x.e + Ch x.e x.f x.g + sha512K.getD t 0 + W t), x.e, x.f, x.g⟩) h →
    compressSha512 h blk =
      ⟨h.a + v.a, h.b + v.b, h.c + v.c, h.d + v.d, h.e + v.e, h.f + v.f, h.g + v.g, h.h + v.h⟩

/-- 44_ripemd160.md (R171 to R177): RIPEMD-160's compression as the two lines of the rules (`F 0` to `F 4` are `f1` to `f5`), with
the tables of R174 and R175 read as hexadecimal digits, step 0 first. That every rotation is between 5 and 15 is a sentence R175
marks as derived (from the tables). -/
def Obligations.Ripemd160CompressionLoop : Prop :=
  (∀ j, j < 80 →
    rmdR.getD j 0 = 0x0123456789abcdef74d1a6f3c0952eb83ae49f812706db5c19ba08c4d37fe56240597c2ae138b6fd / 16 ^ (79 - j) % 16 ∧
    rmdR'.getD j 0 = 0x5e7092b4d6f81a3c6b370d5aef8c4912f5137e69b8c2a04d86413bf05c2d97aecfa4158762de039b / 16 ^ (79 - j) % 16 ∧
    rmdS.getD j 0 = 0xbefc5879bdef6798768db97f7cf9b7dcbd67e9dfe8d65c75bcefef989e56865c9f5b68dc5cdeb856 / 16 ^ (79 - j) % 16 ∧
    rmdS'.getD j 0 = 0x899bdff5778beec69df7c89b77c76fdb97fb866ecd5edd75f58bee6e69c9c5f885c9c5e68d65fdbb / 16 ^ (79 - j) % 16 ∧
    5 ≤ rmdS.getD j 0 ∧ rmdS.getD j 0 ≤ 15 ∧ 5 ≤ rmdS'.getD j 0 ∧ rmdS'.getD j 0 ≤ 15) ∧
  (∀ (h : Five) (blk : Bytes) (X : Nat → BitVec 32) (F : Nat → BitVec 32 → BitVec 32 → BitVec 32 → BitVec 32) (K K' : Nat → BitVec 32),
    (∀ k, k < 16 → X k = BitVec.ofNat 32 (fromLE ((blk.drop (4 * k)).take 4))) →
    (∀ x y z, F 0 x y z = x ^^^ y ^^^ z ∧ F 1 x y z = (x &&& y) ||| (~~~x &&& z) ∧ F 2 x y z = (x ||| ~~~y) ^^^ z ∧
      F 3 x y z = (x &&& z) ||| (y &&& ~~~z) ∧ F 4 x y z = x ^^^ (y ||| ~~~z)) →
    (K 0 = 0x00000000 ∧ K 1 = 0x5a827999 ∧ K 2 = 0x6ed9eba1 ∧ K 3 = 0x8f1bbcdc ∧ K 4 = 0xa953fd4e) →
    (K' 0 = 0x50a28be6 ∧ K' 1 = 0x5c4dd124 ∧ K' 2 = 0x6d703ef3 ∧ K' 3 = 0x7a6d76e9 ∧ K' 4 = 0x00000000) →
    ∀ l r : Five,
    l = (List.range 80).foldl
      (fun x j => ⟨x.e, (x.a + F (j / 16) x.b x.c x.d + X (rmdR.getD j 0) + K (j / 16)).rotateLeft (rmdS.getD j 0) + x.e,
        x.b, x.c.rotateLeft 10, x.d⟩) h →
    r = (List.range 80).foldl
      (fun x j => ⟨x.e, (x.a + F (4 - j / 16) x.b x.c x.d + X (rmdR'.getD j 0) + K' (j / 16)).rotateLeft (rmdS'.getD j 0) + x.e,
        x.b, x.c.rotateLeft 10, x.d⟩) h →
    compressRmd160 h blk =
      ⟨h.b + l.c + r.d, h.c + l.d + r.e, h.d + l.e + r.a, h.e + l.a + r.b, h.a + l.b + r.c⟩)

/-- R107: which compression core each algorithm uses. -/
def Obligations.CompressionDispatch : Prop :=
  ∀ (h : HWords) (blk : Bytes),
    compress .sha1 h blk = (compressSha1 (Five.load h) blk).store h ∧
    compress .sha224 h blk = (compressSha256 (Eight.load 32 h) blk).store ∧
    compress .sha256 h blk = (compressSha256 (Eight.load 32 h) blk).store ∧
    compress .sha384 h blk = (compressSha512 (Eight.load 64 h) blk).store ∧
    compress .sha512 h blk = (compressSha512 (Eight.load 64 h) blk).store ∧
    compress .ripemd160 h blk = (compressRmd160 (Five.load h) blk).store h

/-! ## Digest unit -/

/-- R100: `DINIT` in every phase; its encoding; its exceptions; its example. -/
def Obligations.DinitResult : Prop :=
  (∀ (s : State) (c : DCtx) (a : Alg), s.engine? = some (.digest c) →
    ∃ t h, exec (.dinit a) s = .next t ∧
      s.Answers t (.digest { phase := .active, alg := a, h := h, buf := c.buf, bufLen := 0, totBits := 0 }) ⟨.ok, none⟩ ∧
      ∀ (k : Nat) (hk : k < 8), h[k] = if k < a.stateWords then (ivWords a)[k] else 0) ∧
  (∀ a : Alg, encode (.dinit a) = beBytes 4 (0x00000001 ||| a.code.toNat <<< 8)) ∧
  (∀ (s : State) (u : HwUnit) (w : BitVec 32) (bs : Bytes), s.resetLine = false → s.unit? = some u → u.kind = .digest →
    w.toNat % 256 = 0x01 → w.toNat / 4096 = 0 → w.toNat / 256 % 16 ∉ [1, 2, 3, 4, 5, 6] → u.cmd = beBytes 4 w.toNat ++ bs →
    ∃ t v, step s = .next t ∧ t.units[s.cur]? = some v ∧ v.engine = u.engine ∧
      v.rsp = u.rsp ++ [⟨.illegalCommand .badAlg, none⟩]) ∧
  (ivWords .sha256).toList =
    [0x6a09e667, 0xbb67ae85, 0x3c6ef372, 0xa54ff53a, 0x510e527f, 0x9b05688c, 0x1f83d9ab, 0x5be0cd19]

/-- 40_digest.md section 1 (`DUPD`): the result in closed form. With `q` the bytes held in `BUF` and then the data, every whole
block of `q` is compressed and the bytes after them are held. -/
def Obligations.DupdResult : Prop :=
  ∀ (s : State) (c : DCtx) (m : Bytes), s.engine? = some (.digest c) → c.phase = .active → c.Inv →
    c.totBits.toNat + 8 * m.length < 2 ^ 64 →
    ∃ t c', exec (.dupd m) s = .next t ∧ s.Answers t (.digest c') ⟨.ok, none⟩ ∧
      c'.phase = .active ∧ c'.alg = c.alg ∧ c'.totBits.toNat = c.totBits.toNat + 8 * m.length ∧
      ∀ q : Bytes, q = firstBytes c.buf c.bufLen.toNat ++ m →
        c'.h = compressBlocks c.alg c.h q ∧ c'.bufLen.toNat = q.length % c.alg.blockBytes ∧
        firstBytes c'.buf c'.bufLen.toNat = q.drop (q.length / c.alg.blockBytes * c.alg.blockBytes)

/-- R101: `DUPD`, its three checks, and `Absorb` byte by byte, in every active state. -/
def Obligations.DupdAbsorbsBytewise : Prop :=
  (∀ (s : State) (c : DCtx) (m : Bytes), s.engine? = some (.digest c) →
    (c.phase = .empty → s.Raises (.dupd m) (.misuse .contextEmpty)) ∧
    (c.phase = .finalized → s.Raises (.dupd m) (.misuse .contextFinalized)) ∧
    (c.phase = .active → 2 ^ 64 ≤ c.totBits.toNat + 8 * m.length → exec (.dupd m) s = .refused .messageTooLong) ∧
    (c.phase = .active → c.totBits.toNat + 8 * m.length < 2 ^ 64 → ∃ t c', exec (.dupd m) s = .next t ∧
      s.Answers t (.digest c') ⟨.ok, none⟩ ∧
      c' = { c.absorb m with totBits := c.totBits + BitVec.ofNat 128 (8 * m.length) })) ∧
  (∀ c : DCtx, c.absorb [] = c) ∧
  (∀ (c : DCtx) (b : Byte) (m : Bytes) (buf : Reg128), buf = c.buf.setIfInBounds c.bufLen.toNat b →
    (c.bufLen.toNat + 1 = c.alg.blockBytes →
      c.absorb (b :: m) =
        DCtx.absorb { c with buf := buf, h := compress c.alg c.h (buf.toList.take c.alg.blockBytes), bufLen := 0 } m) ∧
    (c.bufLen.toNat + 1 ≠ c.alg.blockBytes →
      c.absorb (b :: m) = DCtx.absorb { c with buf := buf, bufLen := c.bufLen + 1 } m)) ∧
  (∀ m : Bytes, encode (.dupd m) = beBytes 4 0x00000002 ++ beBytes 8 m.length ++ m) ∧
  (∀ c c' : DCtx, (c.start .sha256).update [0x61, 0x62, 0x63] = .ok c' →
    c'.bufLen = 3 ∧ firstBytes c'.buf 3 = [0x61, 0x62, 0x63] ∧ c'.totBits = 24 ∧ c'.h = ivWords .sha256)

/-- 40_digest.md section 1 (R102): whatever the chunks, the context after the `DUPD`s and the output of the `DFIN` that follows are
those of one `DUPD` of their concatenation; and the same of `HUPD` (45_hmac.md, R203) for two chunks. -/
def Obligations.ChunkingInvariance : Prop :=
  (∀ (s : State) (c : DCtx) (ms : List Bytes), s.engine? = some (.digest c) → c.phase = .active →
    c.totBits.toNat + 8 * ms.flatten.length < 2 ^ 64 →
    ∃ t1 t2 u1 u2, runCommands (ms.map Instr.dupd) s = .next t1 ∧ runCommands [.dupd ms.flatten] s = .next t2 ∧
      t1.engine? = t2.engine? ∧ exec .dfin t1 = .next u1 ∧ exec .dfin t2 = .next u2 ∧ u1.lastResponse = u2.lastResponse) ∧
  (∀ (s : State) (c : HCtx) (m1 m2 : Bytes), s.engine? = some (.hmac c) → c.phase = .keyed → c.Inv →
    c.inner.totBits.toNat + 8 * (m1.length + m2.length) < 2 ^ 64 →
    ∃ t1 t2, runCommands [.hupd m1, .hupd m2] s = .next t1 ∧ runCommands [.hupd (m1 ++ m2)] s = .next t2 ∧
      t1.engine? = t2.engine?)

/-- R103, R106: `DFIN`: its checks, its output, what it leaves, its encoding, its example. -/
def Obligations.DfinResult : Prop :=
  (∀ (s : State) (c : DCtx), s.engine? = some (.digest c) →
    (c.phase = .empty → s.Raises .dfin (.misuse .contextEmpty)) ∧
    (c.phase = .finalized → s.Raises .dfin (.misuse .contextFinalized)) ∧
    (c.phase = .active → ∃ t out, exec .dfin s = .next t ∧
      s.Answers t (.digest { phase := .finalized, alg := c.alg, h := Vector.replicate 8 0, buf := Vector.replicate 128 0,
                             bufLen := 0, totBits := 0 }) ⟨.ok, some out⟩ ∧
      out = serialize c.alg (c.absorb (pad c.alg c.bufLen.toNat c.totBits.toNat)).h ∧ out.length = c.alg.digestBytes)) ∧
  encode .dfin = beBytes 4 0x00000003 ∧
  ∀ (s : State) (c : DCtx), s.engine? = some (.digest c) → ∃ t, runCommands [.dinit .sha256, .dfin] s = .next t ∧
    t.lastOutput = some (beBytes 32 0xe3b0c44298fc1c149afbf4c8996fb92427ae41e4649b934ca495991b7852b855)

/-- 40_digest.md section 2 (R104) and section 1 (R103): the padding fills the block it begins in, or that one and the next, so
that `DFIN` compresses one block or two; its length field is big-endian, little-endian for RIPEMD-160. -/
def Obligations.PaddingFillsBlock : Prop :=
  ∀ (a : Alg) (r l : Nat), r < a.blockBytes → ∃ z < a.blockBytes,
    pad a r l = 0x80 :: (List.replicate z 0 ++ (if a = .ripemd160 then leBytes 8 l else beBytes a.lengthBytes l)) ∧
    r + (pad a r l).length = (if r ≤ a.blockBytes - a.lengthBytes - 1 then a.blockBytes else 2 * a.blockBytes)

/-- R105: the output of each algorithm, word by word. -/
def Obligations.SerializeTable : Prop :=
  ∀ h : HWords,
    serialize .sha1 h = ([0, 1, 2, 3, 4] : List (Fin 8)).flatMap (fun k => beBytes 4 h[k].toNat) ∧
    serialize .sha224 h = ([0, 1, 2, 3, 4, 5, 6] : List (Fin 8)).flatMap (fun k => beBytes 4 h[k].toNat) ∧
    serialize .sha256 h = ([0, 1, 2, 3, 4, 5, 6, 7] : List (Fin 8)).flatMap (fun k => beBytes 4 h[k].toNat) ∧
    serialize .sha384 h = ([0, 1, 2, 3, 4, 5] : List (Fin 8)).flatMap (fun k => beBytes 8 h[k].toNat) ∧
    serialize .sha512 h = ([0, 1, 2, 3, 4, 5, 6, 7] : List (Fin 8)).flatMap (fun k => beBytes 8 h[k].toNat) ∧
    serialize .ripemd160 h = ([0, 1, 2, 3, 4] : List (Fin 8)).flatMap (fun k => leBytes 4 h[k].toNat) ∧
    ∀ a : Alg, (serialize a h).length = a.digestBytes

/-- 40_digest.md section 3 (R108): from every state of a digest unit, `DINIT A; DUPD m; DFIN` answers the closed form of the
digest. -/
def Obligations.DigestClosedForm : Prop :=
  ∀ (s : State) (c : DCtx) (a : Alg) (m : Bytes), s.engine? = some (.digest c) → 8 * m.length < 2 ^ 64 →
    ∃ t, runCommands [.dinit a, .dupd m, .dfin] s = .next t ∧ t.lastResponse = some ⟨.ok, some (digestClosed a m)⟩ ∧
      digestOf a m = digestClosed a m

/-- 41_sha1.md to 44_ripemd160.md (the examples of R126, R138, R158, R179): the digests of "abc" and of the empty message. -/
def Obligations.DigestVectors : Prop :=
  digestClosed .sha1 [] = beBytes 20 0xda39a3ee5e6b4b0d3255bfef95601890afd80709 ∧
  digestClosed .sha1 [0x61, 0x62, 0x63] = beBytes 20 0xa9993e364706816aba3e25717850c26c9cd0d89d ∧
  digestClosed .sha224 [0x61, 0x62, 0x63] = beBytes 28 0x23097d223405d8228642a477bda255b32aadbce4bda0b3f7e36c9da7 ∧
  digestClosed .sha256 [] = beBytes 32 0xe3b0c44298fc1c149afbf4c8996fb92427ae41e4649b934ca495991b7852b855 ∧
  digestClosed .sha256 [0x61, 0x62, 0x63] = beBytes 32 0xba7816bf8f01cfea414140de5dae2223b00361a396177a9cb410ff61f20015ad ∧
  digestClosed .sha384 [0x61, 0x62, 0x63] =
    beBytes 48 0xcb00753f45a35e8bb5a03d699ac65007272c32ab0eded1631a8b605a43ff5bed8086072ba1e7cc2358baeca134c825a7 ∧
  digestClosed .sha512 [0x61, 0x62, 0x63] =
    beBytes 64 0xddaf35a193617abacc417349ae20413112e6fa4e89a97ea20a9eeee64b55d39a2192992a274fc1a836ba3c23a3feebbd454d4423643ce80e2a9ac94fa54ca49f ∧
  digestClosed .ripemd160 [] = beBytes 20 0x9c1185a5c5e9fc54612808977ee8f548b2258d31 ∧
  digestClosed .ripemd160 [0x61, 0x62, 0x63] = beBytes 20 0x8eb208f7e05d987a9b044a8e98c6b087f15a0bfc

/-! ## HMAC engine -/

/-- 45_hmac.md (R200): `HKEY` in every phase; its encoding; its exceptions. That `IPAD` and `OPAD` keep what they held from `B` on is
the model's choice (log 13, DEDUCED): R200 writes the bytes below `B` only, and 93_implementation_defined.md U5 leaves the others
open. -/
def Obligations.HkeyResult : Prop :=
  (∀ (s : State) (c : HCtx) (a : Alg) (k : Bytes), s.engine? = some (.hmac c) →
    (a.blockBytes < k.length ∧ 2 ^ 64 ≤ 8 * k.length → exec (.hkey a k) s = .refused .messageTooLong) ∧
    (¬ (a.blockBytes < k.length ∧ 2 ^ 64 ≤ 8 * k.length) →
      ∃ t c', exec (.hkey a k) s = .next t ∧ s.Answers t (.hmac c') ⟨.ok, none⟩ ∧ c'.phase = .keyed ∧ c'.alg = a ∧
        (∀ (j : Nat) (hj : j < 128) (hb : j < (keyNorm a k).length),
          c'.ipad[j] = (keyNorm a k)[j] ^^^ 0x36 ∧ c'.opad[j] = (keyNorm a k)[j] ^^^ 0x5c) ∧
        (∀ (j : Nat) (hj : j < 128), (keyNorm a k).length ≤ j → c'.ipad[j] = c.ipad[j] ∧ c'.opad[j] = c.opad[j]) ∧
        (c.inner.start a).update (firstBytes c'.ipad a.blockBytes) = .ok c'.inner ∧
        (c.outer.start a).update (firstBytes c'.opad a.blockBytes) = .ok c'.outer ∧
        c'.ibase = c'.inner ∧ c'.obase = c'.outer ∧
        (c'.inner.bufLen = 0 ∧ c'.inner.totBits.toNat = 8 * a.blockBytes) ∧
        (c'.outer.bufLen = 0 ∧ c'.outer.totBits.toNat = 8 * a.blockBytes) ∧
        (k = [] → ∀ (j : Nat) (hj : j < 128), j < a.blockBytes → c'.ipad[j] = 0x36 ∧ c'.opad[j] = 0x5c))) ∧
  (∀ a k, encode (.hkey a k) = beBytes 4 (0x00000011 ||| a.code.toNat <<< 8) ++ beBytes 8 k.length ++ k) ∧
  (∀ (s : State) (u : HwUnit) (w : BitVec 32) (k rest : Bytes), s.resetLine = false → s.unit? = some u → u.kind = .hmac →
    w.toNat % 256 = 0x11 → w.toNat / 4096 = 0 → w.toNat / 256 % 16 ∉ [1, 2, 3, 4, 5, 6] → k.length < 2 ^ 64 →
    u.cmd = beBytes 4 w.toNat ++ (beBytes 8 k.length ++ k ++ rest) →
    ∃ t v, step s = .next t ∧ t.units[s.cur]? = some v ∧ v.engine = u.engine ∧
      v.rsp = u.rsp ++ [⟨.illegalCommand .badAlg, none⟩])

/-- 45_hmac.md (R201): the normalized key. Two parts rest on sentences the spec marks as derived: that a digest is shorter than a
block (R201, from R8), and the closed form of the digest that a long key is compared with (R108, from R100, R101, R103 and R104). -/
def Obligations.KeyNormalization : Prop :=
  ∀ (a : Alg) (k : Bytes),
    (keyNorm a k).length = a.blockBytes ∧
    (k.length ≤ a.blockBytes → keyNorm a k = k ++ List.replicate (a.blockBytes - k.length) 0) ∧
    (k.length = a.blockBytes → keyNorm a k = k) ∧
    (a.blockBytes < k.length → 8 * k.length < 2 ^ 64 →
      keyNorm a k = digestClosed a k ++ List.replicate (a.blockBytes - a.digestBytes) 0 ∧ a.digestBytes < a.blockBytes)

/-- R203: `HUPD`: its checks; the data goes to the inner context only; its encoding. -/
def Obligations.HupdResult : Prop :=
  (∀ (s : State) (c : HCtx) (m : Bytes), s.engine? = some (.hmac c) →
    (c.phase = .empty → s.Raises (.hupd m) (.misuse .contextEmpty)) ∧
    (c.phase = .finalized → s.Raises (.hupd m) (.misuse .contextFinalized)) ∧
    (c.phase = .keyed → c.Inv →
      (2 ^ 64 ≤ c.inner.totBits.toNat + 8 * m.length → exec (.hupd m) s = .refused .messageTooLong) ∧
      (c.inner.totBits.toNat + 8 * m.length < 2 ^ 64 → ∃ t inner, exec (.hupd m) s = .next t ∧
        s.Answers t (.hmac { c with inner := inner }) ⟨.ok, none⟩ ∧ c.inner.update m = .ok inner ∧
        inner.totBits.toNat = c.inner.totBits.toNat + 8 * m.length ∧ (m = [] → inner = c.inner)) ∧
      (∀ m1 m2, c.inner.totBits.toNat + 8 * (m1.length + m2.length) < 2 ^ 64 →
        ∃ t1 t2, runCommands [.hupd m1, .hupd m2] s = .next t1 ∧ runCommands [.hupd (m1 ++ m2)] s = .next t2 ∧
          t1.engine? = t2.engine?))) ∧
  (∀ m : Bytes, encode (.hupd m) = beBytes 4 0x00000012 ++ beBytes 8 m.length ++ m) ∧
  (∀ (s : State) (c : HCtx) (m : Bytes), s.engine? = some (.hmac c) → m.length = 43 →
    ∃ t c', runCommands [.hkey .sha256 [0x6b, 0x65, 0x79], .hupd m] s = .next t ∧ t.engine? = some (.hmac c') ∧
      c'.inner.totBits = 856)

/-- R204: `HFIN`: its checks in their order; its output; what it leaves; its encoding. -/
def Obligations.HfinResult : Prop :=
  (∀ (s : State) (c : HCtx) (n : BitVec 32), s.engine? = some (.hmac c) →
    (c.phase = .empty → s.Raises (.hfin n) (.misuse .contextEmpty)) ∧
    (c.phase = .finalized → s.Raises (.hfin n) (.misuse .contextFinalized)) ∧
    (c.phase = .keyed → n = 0 → s.Raises (.hfin n) (.precondition .noMac)) ∧
    (c.phase = .keyed → c.alg.digestBytes < n.toNat → s.Raises (.hfin n) (.precondition .macTooLong)) ∧
    (c.phase = .keyed → c.Inv → n ≠ 0 → n.toNat ≤ c.alg.digestBytes →
      ∃ t idg inner o mac o', exec (.hfin n) s = .next t ∧
        s.Answers t (.hmac { c with inner := inner, phase := .finalized }) ⟨.ok, some (mac.take n.toNat)⟩ ∧
        c.inner.finish = .ok (idg, inner) ∧ idg.length = c.alg.digestBytes ∧ inner.phase = .finalized ∧
        c.obase.update idg = .ok o ∧ o.finish = .ok (mac, o') ∧ mac.length = c.alg.digestBytes)) ∧
  (∀ n : BitVec 32, encode (.hfin n) = beBytes 4 0x00000013 ++ beBytes 4 n.toNat)

/-- R206: `HREINIT`: its check; what it restores; its encoding; that repeating it changes nothing further. -/
def Obligations.HreinitResult : Prop :=
  (∀ (s : State) (c : HCtx), s.engine? = some (.hmac c) →
    (c.phase = .empty → s.Raises .hreinit (.misuse .contextEmpty)) ∧
    (c.phase ≠ .empty → ∃ t t', exec .hreinit s = .next t ∧
      s.Answers t (.hmac { c with inner := c.ibase, outer := c.obase, phase := .keyed }) ⟨.ok, none⟩ ∧
      exec .hreinit t = .next t' ∧ t'.engine? = t.engine?)) ∧
  encode .hreinit = beBytes 4 0x00000014 ∧
  (∀ (s : State) (c : HCtx) (m : Bytes), s.engine? = some (.hmac c) → 8 * (64 + m.length) < 2 ^ 64 →
    ∃ t t', runCommands [.hkey .sha256 [0x6b, 0x65, 0x79], .hupd [0x78], .hreinit, .hupd m, .hfin 32] s = .next t ∧
      runCommands [.hkey .sha256 [0x6b, 0x65, 0x79], .hupd m, .hfin 32] s = .next t' ∧
      t.lastResponse = t'.lastResponse)

/-- 45_hmac.md (R207): from every state of an HMAC engine, `HKEY A, k; HUPD m; HFIN n` answers the closed form of HMAC. -/
def Obligations.HmacClosedForm : Prop :=
  ∀ (s : State) (c : HCtx) (a : Alg) (k m : Bytes) (n : BitVec 32), s.engine? = some (.hmac c) →
    (k.length ≤ a.blockBytes ∨ 8 * k.length < 2 ^ 64) → 8 * (a.blockBytes + m.length) < 2 ^ 64 →
    n ≠ 0 → n.toNat ≤ a.digestBytes →
    ∃ t, runCommands [.hkey a k, .hupd m, .hfin n] s = .next t ∧
      t.lastResponse = some ⟨.ok, some ((digestClosed a ((keyNorm a k).map (· ^^^ 0x5c) ++
        digestClosed a ((keyNorm a k).map (· ^^^ 0x36) ++ m))).take n.toNat)⟩

/-- 45_hmac.md (R208): after `HREINIT` a second message answers what it answers under a fresh `HKEY`, and leaves the same context. -/
def Obligations.ReinitEquivalence : Prop :=
  ∀ (s : State) (c : HCtx) (a : Alg) (k m1 m2 : Bytes) (n1 n2 : BitVec 32), s.engine? = some (.hmac c) →
    (k.length ≤ a.blockBytes ∨ 8 * k.length < 2 ^ 64) →
    8 * (a.blockBytes + m1.length) < 2 ^ 64 → 8 * (a.blockBytes + m2.length) < 2 ^ 64 →
    n1 ≠ 0 → n1.toNat ≤ a.digestBytes → n2 ≠ 0 → n2.toNat ≤ a.digestBytes →
    ∃ t1 t t2 r, runCommands [.hkey a k, .hupd m1, .hfin n1] s = .next t1 ∧
      runCommands [.hreinit, .hupd m2, .hfin n2] t1 = .next t ∧
      runCommands [.hkey a k, .hupd m2, .hfin n2] s = .next t2 ∧
      t.lastResponse = some r ∧ t2.lastResponse = some r ∧ r.status = .ok ∧ t.engine? = t2.engine?

/-- 45_hmac.md (the examples of R204): the MAC of "The quick brown fox jumps over the lazy dog" under the key "key". -/
def Obligations.HmacVectors : Prop :=
  ∀ m : Bytes,
    m = [0x54, 0x68, 0x65, 0x20, 0x71, 0x75, 0x69, 0x63, 0x6b, 0x20, 0x62, 0x72, 0x6f, 0x77, 0x6e, 0x20, 0x66, 0x6f, 0x78, 0x20]
      ++ [0x6a, 0x75, 0x6d, 0x70, 0x73, 0x20, 0x6f, 0x76, 0x65, 0x72, 0x20, 0x74, 0x68, 0x65, 0x20, 0x6c, 0x61, 0x7a, 0x79, 0x20]
      ++ [0x64, 0x6f, 0x67] →
    hmacClosed .sha256 [0x6b, 0x65, 0x79] m 32 =
      beBytes 32 0xf7bc83f430538424b13298e6aa6fb143ef4d59a14946175997479dbc2d1a3cd8 ∧
    hmacClosed .sha256 [0x6b, 0x65, 0x79] m 16 = beBytes 16 0xf7bc83f430538424b13298e6aa6fb143

/-! ## PBKDF2 unit -/

/-- 46_pbkdf2.md (R220 to R224): a PBKDF2 command whose checks pass and whose draw does not fail answers the closed form of the
derivation, of the length asked for, and changes nothing but the unit's draws (log 5). -/
def Obligations.Pbkdf2Result : Prop :=
  ∀ (s : State) (a : Alg) (p salt : Bytes) (c : BitVec 32) (dk : BitVec 64), s.engine? = some .pbkdf2 →
    c ≠ 0 → dk ≠ 0 → dk.toNat ≤ (2 ^ 32 - 1) * a.digestBytes →
    (p.length ≤ a.blockBytes ∨ 8 * p.length < 2 ^ 64) → 8 * (a.blockBytes + salt.length + 4) < 2 ^ 64 →
    (s.scratchFromAllocator = true → s.allocNext? = some .ok) →
    ∃ s' t out, exec (.pbkdf2 a p salt c dk) s = .next t ∧ s.Drawn s' ∧ s'.Answers t .pbkdf2 ⟨.ok, some out⟩ ∧
      out = pbkdf2Closed a p salt c.toNat dk.toNat ∧ out.length = dk.toNat

/-- 46_pbkdf2.md (R225, laws 1 and 2): the output for a shorter length is a prefix of the output for a longer one, whatever the
states of the two units. -/
def Obligations.Pbkdf2Prefix : Prop :=
  ∀ (s1 s2 t1 t2 : State) (a : Alg) (p salt : Bytes) (c : BitVec 32) (dk1 dk2 : BitVec 64) (out1 out2 : Bytes),
    exec (.pbkdf2 a p salt c dk1) s1 = .next t1 → t1.lastResponse = some ⟨.ok, some out1⟩ →
    exec (.pbkdf2 a p salt c dk2) s2 = .next t2 → t2.lastResponse = some ⟨.ok, some out2⟩ →
    dk1.toNat ≤ dk2.toNat → out1 = out2.take dk1.toNat ∧ out1.length = dk1.toNat

/-- 46_pbkdf2.md (R225, laws 3 and 4): with one iteration and one block, the output is what an HMAC engine answers under the
password to the salt and the block index 1. -/
def Obligations.Pbkdf2IsHmacProgram : Prop :=
  ∀ (s h : State) (hc : HCtx) (a : Alg) (p salt : Bytes) (dk : BitVec 64) (hLen : BitVec 32),
    s.engine? = some .pbkdf2 → h.engine? = some (.hmac hc) → hLen.toNat = a.digestBytes →
    dk ≠ 0 → dk.toNat ≤ a.digestBytes → (p.length ≤ a.blockBytes ∨ 8 * p.length < 2 ^ 64) →
    8 * (a.blockBytes + salt.length + 4) < 2 ^ 64 → (s.scratchFromAllocator = true → s.allocNext? = some .ok) →
    ∃ t u out mac, exec (.pbkdf2 a p salt 1 dk) s = .next t ∧ t.lastResponse = some ⟨.ok, some out⟩ ∧
      runCommands [.hkey a p, .hreinit, .hupd (salt ++ [0x00, 0x00, 0x00, 0x01]), .hfin hLen] h = .next u ∧
      u.lastResponse = some ⟨.ok, some mac⟩ ∧ out = mac.take dk.toNat

/-- 46_pbkdf2.md (R227): worked values for the password "password" and the salt "salt". -/
def Obligations.Pbkdf2Vectors : Prop :=
  ∀ p s : Bytes, p = [0x70, 0x61, 0x73, 0x73, 0x77, 0x6f, 0x72, 0x64] → s = [0x73, 0x61, 0x6c, 0x74] →
    pbkdf2Closed .sha256 p s 1 32 = beBytes 32 0x120fb6cffcf8b32c43e7225256c4f837a86548c92ccc35480805987cb70be17b ∧
    pbkdf2Closed .sha256 p s 1 33 = beBytes 33 0x120fb6cffcf8b32c43e7225256c4f837a86548c92ccc35480805987cb70be17b4d ∧
    pbkdf2Closed .sha256 p s 1 1 = [0x12] ∧
    pbkdf2Closed .sha256 p s 2 32 = beBytes 32 0xae4d0c95af6b46d32d0adff928f06dd02a303f8ef3c251dfd6e2d85a95474c43

/-! ## The whole machine -/

/-- 20_memory.md section 5 (R60) and 70_reset_and_hazards.md section 3 (R275): what a step does to the unit served depends on that
unit alone (its context, its stream, its own draws of log 5), and it does nothing to another unit. -/
def Obligations.UnitIsolation : Prop :=
  ∀ s s' t : State, s.resetLine = false → s'.resetLine = false → s.cur = s'.cur →
    s.units[s.cur]? = s'.units[s.cur]? → s.scratchFromAllocator = s'.scratchFromAllocator → step s = .next t →
    ∃ t', step s' = .next t' ∧ t.units[s.cur]? = t'.units[s.cur]? ∧
      ∀ k, k ≠ s.cur → t.units[k]? = s.units[k]? ∧ t'.units[k]? = s'.units[k]?

/-- 20_memory.md section 5 (R60): the turns of two units commute, and every interleaving of the units' turns leaves the same units,
the responses they have sent among them. It holds of PBKDF2 units too since each has its own draws (the model's choice, log 5). -/
def Obligations.TurnsCommute : Prop :=
  (∀ (s a b : State) (j k : Nat), j ≠ k → s.resetLine = false → stepUnit j s = .next a → stepUnit k s = .next b →
    ∃ x y, stepUnit k a = .next x ∧ stepUnit j b = .next y ∧ x.units = y.units) ∧
  (∀ (s a : State) (ks ks' : List Nat), s.resetLine = false → ks.Perm ks' → runTurns ks s = .next a →
    ∃ b, runTurns ks' s = .next b ∧ b.units = a.units)

/-- 10_state.md section 6 (R41): the table of phase transitions, row by row. -/
def Obligations.PhaseTransitions : Prop :=
  (∀ (s : State) (c : DCtx), s.engine? = some (.digest c) →
    (∀ a, ∃ t c', exec (.dinit a) s = .next t ∧ s.Answers t (.digest c') ⟨.ok, none⟩ ∧ c'.phase = .active) ∧
    (∀ m : Bytes, c.phase = .active → c.totBits.toNat + 8 * m.length < 2 ^ 64 →
      ∃ t c', exec (.dupd m) s = .next t ∧ s.Answers t (.digest c') ⟨.ok, none⟩ ∧ c'.phase = .active) ∧
    (c.phase = .active →
      ∃ t c' out, exec .dfin s = .next t ∧ s.Answers t (.digest c') ⟨.ok, some out⟩ ∧ c'.phase = .finalized) ∧
    (c.phase ≠ .active → (∀ m, ∃ why, s.Raises (.dupd m) (.misuse why)) ∧ ∃ why, s.Raises .dfin (.misuse why))) ∧
  (∀ (s : State) (c : HCtx), s.engine? = some (.hmac c) → c.Inv →
    (∀ a (k : Bytes), k.length ≤ a.blockBytes ∨ 8 * k.length < 2 ^ 64 →
      ∃ t c', exec (.hkey a k) s = .next t ∧ s.Answers t (.hmac c') ⟨.ok, none⟩ ∧ c'.phase = .keyed) ∧
    (∀ m : Bytes, c.phase = .keyed → c.inner.totBits.toNat + 8 * m.length < 2 ^ 64 →
      ∃ t c', exec (.hupd m) s = .next t ∧ s.Answers t (.hmac c') ⟨.ok, none⟩ ∧ c'.phase = .keyed) ∧
    (∀ n : BitVec 32, c.phase = .keyed → 1 ≤ n.toNat → n.toNat ≤ c.alg.digestBytes →
      ∃ t c' out, exec (.hfin n) s = .next t ∧ s.Answers t (.hmac c') ⟨.ok, some out⟩ ∧ c'.phase = .finalized) ∧
    (∀ n : BitVec 32, c.phase = .keyed → n.toNat = 0 ∨ c.alg.digestBytes < n.toNat →
      ∃ why, s.Raises (.hfin n) (.precondition why)) ∧
    (c.phase ≠ .keyed →
      (∀ m, ∃ why, s.Raises (.hupd m) (.misuse why)) ∧ ∀ n, ∃ why, s.Raises (.hfin n) (.misuse why)) ∧
    (c.phase ≠ .empty →
      ∃ t c', exec .hreinit s = .next t ∧ s.Answers t (.hmac c') ⟨.ok, none⟩ ∧ c'.phase = .keyed) ∧
    (c.phase = .empty → ∃ why, s.Raises .hreinit (.misuse why)))

/-- 20_memory.md section 3 (R56): `DINIT`, `HKEY` and `HREINIT` are idempotent. -/
def Obligations.IdempotentCommands : Prop :=
  ∀ (i : Instr) (s t t' : State), ((∃ a, i = .dinit a) ∨ (∃ a k, i = .hkey a k) ∨ i = .hreinit) →
    exec i s = .next t → exec i t = .next t' → t'.engine? = t.engine?

/-- 70_reset_and_hazards.md section 4 (R277, fairness), for the order of service of log 3, a design choice of the model: a step passes the turn once, and every
unit is served within the turns listed and one round more. -/
def Obligations.EveryUnitIsServed : Prop :=
  (∀ s t : State, s.resetLine = false → step s = .next t →
    t.cur = s.passTurn.cur ∧ t.turns = s.passTurn.turns ∧ t.units.length = s.units.length) ∧
  (∀ (s : State) (k : Nat), s.cur < s.units.length → k < s.units.length →
    ∃ n ≤ s.turns.length + s.units.length, (Nat.iterate State.passTurn n s).cur = k)

end
end

