-- ==== Sys2Proof/Laws/Bytes.lean ====
section
/-! SUPPORT. Byte strings: lengths, and the two byte orders as inverses (spec/00_scope.md R12). -/

namespace Sys2Proof

@[simp] theorem length_leBytes (n v : Nat) : (leBytes n v).length = n := by
  induction n generalizing v with
  | zero => rfl
  | succ n ih => simp [leBytes, ih]

@[simp] theorem length_beBytes (n v : Nat) : (beBytes n v).length = n := by simp [beBytes]

@[simp] theorem length_zeros (n : Nat) : (zeros n).length = n := by simp [zeros]

@[simp] theorem length_maskBytes (b : Byte) (m : Bytes) : (maskBytes b m).length = m.length := by simp [maskBytes]

theorem length_xorBytes (a b : Bytes) : (xorBytes a b).length = min a.length b.length := by simp [xorBytes]

@[simp] theorem length_encodeInt (a : Alg) (n v : Nat) : (a.encodeInt n v).length = n := by
  unfold Alg.encodeInt; split <;> simp

theorem fromLE_leBytes (n v : Nat) : fromLE (leBytes n v) = v % 256 ^ n := by
  induction n generalizing v with
  | zero => simp [leBytes, fromLE, Nat.mod_one]
  | succ n ih =>
    have hv : (BitVec.ofNat 8 v).toNat = v % 256 := BitVec.toNat_ofNat v 8
    rw [leBytes, fromLE, ih, hv, Nat.pow_succ', Nat.mod_mul]

theorem fromBE_beBytes (n v : Nat) : fromBE (beBytes n v) = v % 256 ^ n := by
  simp [fromBE, beBytes, fromLE_leBytes]

theorem fromBE_beBytes_of_lt {n v : Nat} (h : v < 256 ^ n) : fromBE (beBytes n v) = v := by
  rw [fromBE_beBytes, Nat.mod_eq_of_lt h]

theorem fromLE_lt (bs : Bytes) : fromLE bs < 256 ^ bs.length := by
  induction bs with
  | nil => simp [fromLE]
  | cons b bs ih =>
    have := b.isLt
    simp only [fromLE, List.length_cons, Nat.pow_succ']
    omega

theorem fromBE_lt (bs : Bytes) : fromBE bs < 256 ^ bs.length := by
  simpa [fromBE] using fromLE_lt bs.reverse

theorem leBytes_fromLE (bs : Bytes) : leBytes bs.length (fromLE bs) = bs := by
  induction bs with
  | nil => rfl
  | cons b bs ih =>
    have hb := b.isLt
    have h1 : BitVec.ofNat 8 (b.toNat + 256 * fromLE bs) = b := by
      apply BitVec.eq_of_toNat_eq
      simp only [BitVec.toNat_ofNat]
      omega
    have h2 : (b.toNat + 256 * fromLE bs) / 256 = fromLE bs := by omega
    simp [fromLE, leBytes, h1, h2, ih]

theorem beBytes_fromBE (bs : Bytes) : beBytes bs.length (fromBE bs) = bs := by
  have h := leBytes_fromLE bs.reverse
  rw [List.length_reverse] at h
  simp [beBytes, fromBE, h]

/-! ## 128-byte registers -/

@[simp] theorem length_firstBytes (r : Reg128) (n : Nat) : (firstBytes r n).length = min n 128 := by
  simp [firstBytes]

theorem getElem_writeBytes (bs : Bytes) (r : Reg128) (i k : Nat) (hk : k < 128) :
    (writeBytes r i bs)[k] = if h : i ≤ k ∧ k - i < bs.length then bs[k - i]'h.2 else r[k] := by
  induction bs generalizing r i with
  | nil => simp [writeBytes]
  | cons b bs ih =>
    rw [writeBytes, ih]
    simp only [List.length_cons, Vector.getElem_setIfInBounds]
    by_cases h1 : i + 1 ≤ k ∧ k - (i + 1) < bs.length
    · have h2 : i ≤ k ∧ k - i < bs.length + 1 := by omega
      have h3 : k - i = (k - (i + 1)) + 1 := by omega
      simp only [h1, h2, dif_pos, and_self]
      simp only [h3, List.getElem_cons_succ]
    · rw [dif_neg h1]
      by_cases h4 : i = k
      · subst h4; simp
      · rw [if_neg (by simpa using h4), dif_neg (by omega)]

/-- A byte string written from index 0 on is read back whole. -/
theorem firstBytes_writeBytes (r : Reg128) (bs : Bytes) (h : bs.length ≤ 128) :
    firstBytes (writeBytes r 0 bs) bs.length = bs := by
  apply List.ext_getElem
  · simp [h]
  · intro k h1 h2
    have hk : k < 128 := by omega
    simp only [firstBytes, List.getElem_take, Vector.getElem_toList]
    rw [getElem_writeBytes _ _ _ _ hk, dif_pos (by omega)]
    simp

/-! ## Parameters -/

theorem blockBytes_pos (a : Alg) : 0 < a.blockBytes := by cases a <;> decide
theorem blockBytes_le (a : Alg) : a.blockBytes ≤ 128 := by cases a <;> decide
theorem digestBytes_pos (a : Alg) : 0 < a.digestBytes := by cases a <;> decide
theorem digestBytes_lt_blockBytes (a : Alg) : a.digestBytes < a.blockBytes := by cases a <;> decide
theorem digestBytes_eq (a : Alg) : a.digestBytes = a.digestWords * (a.wordBits / 8) := by cases a <;> rfl

end Sys2Proof
end

