-- ==== Sys2Proof/Laws/State.lean ====
section
/-! SUPPORT. One lemma per field per update of State, of a unit and of the contexts, so that no later proof unfolds a record
update. -/

namespace Sys2Proof.Machine

/-! ## Updates of State -/

section
variable (s : State) (f : HwUnit → HwUnit) (r : Response) (e : Engine) (out : Option Bytes) (rest : Bytes)

@[simp] theorem modifyUnit_units : (s.modifyUnit f).units = s.units.modify s.cur f := rfl
@[simp] theorem modifyUnit_cur : (s.modifyUnit f).cur = s.cur := rfl
@[simp] theorem modifyUnit_turns : (s.modifyUnit f).turns = s.turns := rfl
@[simp] theorem modifyUnit_resetLine : (s.modifyUnit f).resetLine = s.resetLine := rfl
@[simp] theorem modifyUnit_scratch : (s.modifyUnit f).scratchFromAllocator = s.scratchFromAllocator := rfl

@[simp] theorem respond_units : (s.respond r).units = s.units.modify s.cur (·.respond r) := rfl
@[simp] theorem respond_cur : (s.respond r).cur = s.cur := rfl
@[simp] theorem respond_turns : (s.respond r).turns = s.turns := rfl
@[simp] theorem respond_resetLine : (s.respond r).resetLine = s.resetLine := rfl
@[simp] theorem respond_scratch : (s.respond r).scratchFromAllocator = s.scratchFromAllocator := rfl

@[simp] theorem setEngine_cur : (s.setEngine e).cur = s.cur := rfl
@[simp] theorem setEngine_turns : (s.setEngine e).turns = s.turns := rfl
@[simp] theorem setEngine_resetLine : (s.setEngine e).resetLine = s.resetLine := rfl
@[simp] theorem setEngine_scratch : (s.setEngine e).scratchFromAllocator = s.scratchFromAllocator := rfl

@[simp] theorem consume_units : (s.consume rest).units = s.units.modify s.cur (fun u => { u with cmd := rest }) := rfl
@[simp] theorem consume_cur : (s.consume rest).cur = s.cur := rfl
@[simp] theorem consume_turns : (s.consume rest).turns = s.turns := rfl
@[simp] theorem consume_resetLine : (s.consume rest).resetLine = s.resetLine := rfl
@[simp] theorem consume_scratch : (s.consume rest).scratchFromAllocator = s.scratchFromAllocator := rfl

@[simp] theorem complete_cur : (s.complete e out).cur = s.cur := rfl
@[simp] theorem complete_turns : (s.complete e out).turns = s.turns := rfl
@[simp] theorem complete_resetLine : (s.complete e out).resetLine = s.resetLine := rfl
@[simp] theorem complete_scratch : (s.complete e out).scratchFromAllocator = s.scratchFromAllocator := rfl

@[simp] theorem platformReset_units :
    s.platformReset.units = s.units.map (·.reset) := rfl
@[simp] theorem platformReset_cur : s.platformReset.cur = s.cur := rfl
@[simp] theorem platformReset_turns : s.platformReset.turns = s.turns := rfl
@[simp] theorem platformReset_resetLine : s.platformReset.resetLine = false := rfl
@[simp] theorem platformReset_scratch : s.platformReset.scratchFromAllocator = s.scratchFromAllocator := rfl

@[simp] theorem takeDraw_cur : s.takeDraw.cur = s.cur := by unfold State.takeDraw; split <;> rfl
@[simp] theorem takeDraw_turns : s.takeDraw.turns = s.turns := by unfold State.takeDraw; split <;> rfl
@[simp] theorem takeDraw_resetLine : s.takeDraw.resetLine = s.resetLine := by unfold State.takeDraw; split <;> rfl
@[simp] theorem takeDraw_scratch : s.takeDraw.scratchFromAllocator = s.scratchFromAllocator := by
  unfold State.takeDraw; split <;> rfl

@[simp] theorem passTurn_units : s.passTurn.units = s.units := by unfold State.passTurn; split <;> rfl
@[simp] theorem passTurn_resetLine : s.passTurn.resetLine = s.resetLine := by unfold State.passTurn; split <;> rfl
@[simp] theorem passTurn_scratch : s.passTurn.scratchFromAllocator = s.scratchFromAllocator := by
  unfold State.passTurn; split <;> rfl
theorem passTurn_cur_lt (h : 0 < s.units.length) : s.passTurn.cur < s.passTurn.units.length := by
  unfold State.passTurn; split <;> exact Nat.mod_lt _ h

@[simp] theorem collect_units (k : Nat) : (s.collect k).units = s.units.modify k (fun u => { u with rsp := [] }) := rfl
@[simp] theorem collect_cur (k : Nat) : (s.collect k).cur = s.cur := rfl
@[simp] theorem assertReset_units : s.assertReset.units = s.units := rfl
@[simp] theorem assertReset_resetLine : s.assertReset.resetLine = true := rfl

end

/-! ## Updates of a unit -/

section
variable (u : HwUnit) (r : Response) (n : Nat) (k : UnitKind)

@[simp] theorem unit_respond_engine : (u.respond r).engine = u.engine := rfl
@[simp] theorem unit_respond_cmd : (u.respond r).cmd = u.cmd := rfl
@[simp] theorem unit_respond_rsp : (u.respond r).rsp = u.rsp ++ [r] := rfl
@[simp] theorem unit_respond_kind : (u.respond r).kind = u.kind := rfl
@[simp] theorem unit_respond_allocNext : (u.respond r).allocNext = u.allocNext := rfl
@[simp] theorem unit_respond_drawCount : (u.respond r).drawCount = u.drawCount := rfl
@[simp] theorem unit_draw_engine : (u.draw n).engine = u.engine := rfl
@[simp] theorem unit_draw_cmd : (u.draw n).cmd = u.cmd := rfl
@[simp] theorem unit_draw_rsp : (u.draw n).rsp = u.rsp := rfl
@[simp] theorem unit_draw_kind : (u.draw n).kind = u.kind := rfl
@[simp] theorem unit_draw_allocNext : (u.draw n).allocNext = Config.allocDraw n u.drawCount := rfl
@[simp] theorem unit_draw_drawCount : (u.draw n).drawCount = u.drawCount + 1 := rfl
@[simp] theorem unit_initial_engine : (HwUnit.initial n k).engine = Engine.initial k := rfl
@[simp] theorem unit_initial_cmd : (HwUnit.initial n k).cmd = [] := rfl
@[simp] theorem unit_initial_rsp : (HwUnit.initial n k).rsp = [] := rfl
@[simp] theorem unit_initial_kind : (HwUnit.initial n k).kind = k := by cases k <;> rfl
@[simp] theorem unit_reset_engine : u.reset.engine = Engine.initial u.kind := rfl
@[simp] theorem unit_reset_cmd : u.reset.cmd = [] := rfl
@[simp] theorem unit_reset_rsp : u.reset.rsp = [] := rfl
@[simp] theorem unit_reset_kind : u.reset.kind = u.kind := by
  simp only [HwUnit.kind, HwUnit.reset]; cases u.engine <;> rfl
@[simp] theorem unit_reset_allocNext : u.reset.allocNext = u.allocNext := rfl
@[simp] theorem unit_reset_drawCount : u.reset.drawCount = u.drawCount := rfl
@[simp] theorem unit_idle : u.idle = true ↔ u.cmd = [] := List.isEmpty_iff

/-- A unit after reset comes from its kind. -/
theorem initialUnits_mem {u : HwUnit} {ks : List UnitKind} (h : u ∈ initialUnits n ks) : ∃ m k, u = HwUnit.initial m k := by
  induction ks generalizing n with
  | nil => cases h
  | cons k ks ih =>
    rcases List.mem_cons.1 h with rfl | h
    · exact ⟨_, _, rfl⟩
    · exact ih _ h

@[simp] theorem initialUnits_kinds (ks : List UnitKind) : (initialUnits n ks).map (·.kind) = ks := by
  induction ks generalizing n with
  | nil => rfl
  | cons k ks ih => simp [initialUnits, ih]

end

/-! ## Updates of a digest context -/

section
variable (c : DCtx) (a : Alg) (m : Bytes)

@[simp] theorem start_phase : (c.start a).phase = .active := rfl
@[simp] theorem start_alg : (c.start a).alg = a := rfl
@[simp] theorem start_h : (c.start a).h = ivWords a := rfl
@[simp] theorem start_buf : (c.start a).buf = c.buf := rfl
@[simp] theorem start_bufLen : (c.start a).bufLen = 0 := rfl
@[simp] theorem start_totBits : (c.start a).totBits = 0 := rfl

@[simp] theorem wipe_phase : c.wipe.phase = c.phase := rfl
@[simp] theorem wipe_alg : c.wipe.alg = c.alg := rfl
@[simp] theorem wipe_h : c.wipe.h = Vector.replicate 8 0 := rfl
@[simp] theorem wipe_buf : c.wipe.buf = Vector.replicate 128 0 := rfl
@[simp] theorem wipe_bufLen : c.wipe.bufLen = 0 := rfl
@[simp] theorem wipe_totBits : c.wipe.totBits = 0 := rfl

@[simp] theorem feed_h : (c.feed m).h = (c.absorb m).h := rfl
@[simp] theorem feed_buf : (c.feed m).buf = (c.absorb m).buf := rfl
@[simp] theorem feed_bufLen : (c.feed m).bufLen = (c.absorb m).bufLen := rfl
@[simp] theorem feed_totBits : (c.feed m).totBits = c.totBits + BitVec.ofNat 128 (8 * m.length) := rfl

end

end Sys2Proof.Machine
end

