-- ==== Sys2Proof/Laws/Absorb.lean ====
section
/-! SUPPORT. What absorbing bytes does to a digest context: the frame, chunking, and the blocks it compresses
(spec/40_digest.md R101, R102). -/

namespace Sys2Proof.Machine

/-! ## The frame of Absorb -/

section
variable (c : DCtx) (b : Byte) (m : Bytes)

@[simp] theorem absorbByte_phase : (c.absorbByte b).phase = c.phase := by unfold DCtx.absorbByte; dsimp only; split <;> rfl
@[simp] theorem absorbByte_alg : (c.absorbByte b).alg = c.alg := by unfold DCtx.absorbByte; dsimp only; split <;> rfl
@[simp] theorem absorbByte_totBits : (c.absorbByte b).totBits = c.totBits := by
  unfold DCtx.absorbByte; dsimp only; split <;> rfl

@[simp] theorem absorb_nil : c.absorb [] = c := rfl
@[simp] theorem absorb_cons : c.absorb (b :: m) = (c.absorbByte b).absorb m := rfl
theorem absorb_append (m' : Bytes) : c.absorb (m ++ m') = (c.absorb m).absorb m' := List.foldl_append ..

@[simp] theorem absorb_phase : (c.absorb m).phase = c.phase := by
  induction m generalizing c with
  | nil => rfl
  | cons b m ih => simp [ih]

@[simp] theorem absorb_alg : (c.absorb m).alg = c.alg := by
  induction m generalizing c with
  | nil => rfl
  | cons b m ih => simp [ih]

@[simp] theorem absorb_totBits : (c.absorb m).totBits = c.totBits := by
  induction m generalizing c with
  | nil => rfl
  | cons b m ih => simp [ih]

/-- Absorbing does not read `TOTBITS`. -/
theorem absorb_setTotBits (t : BitVec 128) : ({ c with totBits := t }).absorb m = { c.absorb m with totBits := t } := by
  induction m generalizing c with
  | nil => rfl
  | cons b m ih =>
    have h : ({ c with totBits := t }).absorbByte b = { c.absorbByte b with totBits := t } := by
      simp only [DCtx.absorbByte]; split <;> rfl
    rw [absorb_cons, h, ih, absorb_cons]

@[simp] theorem feed_phase : (c.feed m).phase = c.phase := absorb_phase c m
@[simp] theorem feed_alg : (c.feed m).alg = c.alg := absorb_alg c m

/-- Feeding in two pieces is feeding their concatenation. -/
theorem feed_append (m' : Bytes) : c.feed (m ++ m') = (c.feed m).feed m' := by
  have h8 : 8 * (m ++ m').length = 8 * m.length + 8 * m'.length := by simp; omega
  have h : c.totBits + BitVec.ofNat 128 (8 * (m ++ m').length)
      = (c.feed m).totBits + BitVec.ofNat 128 (8 * m'.length) := by
    rw [feed_totBits, h8, BitVec.ofNat_add, BitVec.add_assoc]
  have hX : (c.feed m).absorb m' = { (c.absorb m).absorb m' with totBits := (c.feed m).totBits } :=
    absorb_setTotBits (c.absorb m) m' _
  have hfeed : ∀ d : DCtx, d.absorb m' = { (c.absorb m).absorb m' with totBits := d.totBits } →
      d.feed m' = { (c.absorb m).absorb m' with totBits := d.totBits + BitVec.ofNat 128 (8 * m'.length) } := by
    intro d hd; rw [DCtx.feed, hd]
  calc c.feed (m ++ m')
      = { (c.absorb m).absorb m' with totBits := c.totBits + BitVec.ofNat 128 (8 * (m ++ m').length) } := by
        rw [DCtx.feed, absorb_append]
    _ = (c.feed m).feed m' := by rw [h, hfeed _ hX]

@[simp] theorem feed_nil : c.feed [] = c := by
  simp [DCtx.feed]

end

/-! ## One byte -/

theorem firstBytes_setIfInBounds (r : Reg128) (n : Nat) (b : Byte) (h : n < 128) :
    firstBytes (r.setIfInBounds n b) (n + 1) = firstBytes r n ++ [b] := by
  apply List.ext_getElem
  · simp; omega
  · intro k h1 h2
    have hk : k < n + 1 := by simp at h1; omega
    simp only [firstBytes, List.getElem_take, Vector.getElem_toList, Vector.getElem_setIfInBounds, List.getElem_append]
    by_cases hkn : k = n
    · subst hkn; simp
    · have : k < n := by omega
      simp [show n ≠ k by omega, this, show k < 128 by omega]

section
variable {c : DCtx} {b : Byte}

theorem absorbByte_notFull (h : c.bufLen.toNat + 1 ≠ c.alg.blockBytes) (hl : c.bufLen.toNat < c.alg.blockBytes) :
    (c.absorbByte b).h = c.h ∧ (c.absorbByte b).bufLen.toNat = c.bufLen.toNat + 1 ∧
    firstBytes (c.absorbByte b).buf (c.absorbByte b).bufLen.toNat = firstBytes c.buf c.bufLen.toNat ++ [b] := by
  have hB := blockBytes_le c.alg
  have hn : (c.bufLen + 1).toNat = c.bufLen.toNat + 1 := by
    rw [BitVec.toNat_add]; simp; omega
  simp only [DCtx.absorbByte, if_neg h, hn, true_and]
  exact firstBytes_setIfInBounds _ _ _ (by omega)

theorem absorbByte_full (h : c.bufLen.toNat + 1 = c.alg.blockBytes) :
    (c.absorbByte b).h = compress c.alg c.h (firstBytes c.buf c.bufLen.toNat ++ [b]) ∧ (c.absorbByte b).bufLen.toNat = 0 := by
  have hB := blockBytes_le c.alg
  simp only [DCtx.absorbByte, if_pos h]
  rw [← h, firstBytes_setIfInBounds _ _ _ (by omega)]
  exact ⟨rfl, rfl⟩

end

/-! ## Blocks -/

theorem compressBlocks_short (a : Alg) (h : HWords) (m : Bytes) (hm : m.length < a.blockBytes) :
    compressBlocks a h m = h := by
  simp [compressBlocks, Nat.div_eq_of_lt hm]

theorem compressBlocks_block_append (a : Alg) (h : HWords) (blk m : Bytes) (hb : blk.length = a.blockBytes) :
    compressBlocks a h (blk ++ m) = compressBlocks a (compress a h blk) m := by
  have hp := blockBytes_pos a
  have hlen : (blk ++ m).length / a.blockBytes = m.length / a.blockBytes + 1 := by
    rw [List.length_append, hb, Nat.add_comm, Nat.add_div_right _ hp]
  have h0 : ((blk ++ m).drop (0 * a.blockBytes)).take a.blockBytes = blk := by
    simp [← hb]
  have hq : ∀ q, ((blk ++ m).drop ((q + 1) * a.blockBytes)) = m.drop (q * a.blockBytes) := fun q => by
    rw [Nat.succ_mul, Nat.add_comm, ← List.drop_drop, List.drop_left' hb]
  unfold compressBlocks
  generalize compress a = f
  rw [hlen, List.range_succ_eq_map, List.foldl_cons, List.foldl_map, h0]
  simp only [Nat.succ_eq_add_one, hq]

/-- What Absorb leaves, in closed form: with `q` the bytes held and then the bytes given, the whole blocks of `q` are compressed
and the rest of `q` is held (R101, corner cases). -/
theorem absorb_closed (c : DCtx) (m : Bytes) (hl : c.bufLen.toNat < c.alg.blockBytes) :
    (c.absorb m).h = compressBlocks c.alg c.h (firstBytes c.buf c.bufLen.toNat ++ m) ∧
    (c.absorb m).bufLen.toNat = (c.bufLen.toNat + m.length) % c.alg.blockBytes ∧
    firstBytes (c.absorb m).buf (c.absorb m).bufLen.toNat =
      (firstBytes c.buf c.bufLen.toNat ++ m).drop ((c.bufLen.toNat + m.length) / c.alg.blockBytes * c.alg.blockBytes) := by
  induction m generalizing c with
  | nil =>
    have hB := blockBytes_le c.alg
    refine ⟨?_, ?_, ?_⟩
    · rw [compressBlocks_short _ _ _ (by simp; omega)]; rfl
    · simp [Nat.mod_eq_of_lt hl]
    · simp [Nat.div_eq_of_lt hl]
  | cons b m ih =>
    have hp := blockBytes_pos c.alg
    by_cases h : c.bufLen.toNat + 1 = c.alg.blockBytes
    · obtain ⟨hh, hn⟩ := absorbByte_full (b := b) h
      obtain ⟨i1, i2, i3⟩ := ih (c.absorbByte b) (by rw [hn, absorbByte_alg]; exact hp)
      have hblk : (firstBytes c.buf c.bufLen.toNat ++ [b]).length = c.alg.blockBytes := by
        have := blockBytes_le c.alg
        simp; omega
      have hq : firstBytes c.buf c.bufLen.toNat ++ b :: m = (firstBytes c.buf c.bufLen.toNat ++ [b]) ++ m := by simp
      have hsum : c.bufLen.toNat + (m.length + 1) = m.length + c.alg.blockBytes := by omega
      rw [absorb_cons]
      refine ⟨?_, ?_, ?_⟩
      · rw [i1, hn, hh, hq, compressBlocks_block_append _ _ _ _ hblk]; simp [firstBytes]
      · rw [i2, hn, List.length_cons, hsum]; simp
      · rw [i3, hn, List.length_cons, hsum, Nat.add_div_right _ hp, hq, absorbByte_alg, Nat.succ_mul, Nat.add_comm (_ * _),
          ← hblk, ← List.drop_drop, List.drop_left]
        simp [firstBytes]
    · obtain ⟨hh, hn, hb⟩ := absorbByte_notFull (b := b) h hl
      obtain ⟨i1, i2, i3⟩ := ih (c.absorbByte b) (by rw [hn, absorbByte_alg]; omega)
      have hsum : c.bufLen.toNat + (m.length + 1) = c.bufLen.toNat + 1 + m.length := by omega
      have hq : firstBytes c.buf c.bufLen.toNat ++ b :: m = (firstBytes c.buf c.bufLen.toNat ++ [b]) ++ m := by simp
      rw [absorb_cons]
      refine ⟨?_, ?_, ?_⟩
      · rw [i1, hb, hh, hq, absorbByte_alg]
      · rw [i2, hn, List.length_cons, hsum, absorbByte_alg]
      · rw [i3, hb, hn, List.length_cons, hsum, hq, absorbByte_alg]

theorem absorb_bufLen_lt (c : DCtx) (m : Bytes) (hl : c.bufLen.toNat < c.alg.blockBytes) :
    (c.absorb m).bufLen.toNat < c.alg.blockBytes := by
  rw [(absorb_closed c m hl).2.1]; exact Nat.mod_lt _ (blockBytes_pos _)

/-! ## The words of the chaining state -/

/-- Every word of the 32-bit cores is below `2^32` (R24). -/
theorem compress_high_zero (a : Alg) (h : HWords) (blk : Bytes) (ha : a.wordBits = 32)
    (hh : ∀ (k : Nat) (hk : k < 8), (h[k]).toNat < 2 ^ 32) (k : Nat) (hk : k < 8) :
    ((compress a h blk)[k]).toNat < 2 ^ 32 := by
  have key : ∀ x : Word32, (x.setWidth 64).toNat < 2 ^ 32 := fun x => by
    rw [BitVec.toNat_setWidth_of_le (by decide)]; exact x.isLt
  have store5 : ∀ v : Five, ((v.store h)[k]).toNat < 2 ^ 32 := fun v => by
    rcases k with _ | _ | _ | _ | _ | _ | _ | _ | k
    all_goals first
      | exact key _
      | exact hh _ (by decide)
      | omega
  have store8 : ∀ v : Eight 32, ((v.store)[k]).toNat < 2 ^ 32 := fun v => by
    rcases k with _ | _ | _ | _ | _ | _ | _ | _ | k
    all_goals first
      | exact key _
      | omega
  cases a <;> simp only [compress]
  · exact store5 _
  · exact store8 _
  · exact store8 _
  · exact absurd ha (by decide)
  · exact absurd ha (by decide)
  · exact store5 _

/-- The words an algorithm does not hold keep their value (R27). -/
theorem compress_unused (a : Alg) (h : HWords) (blk : Bytes) (k : Nat) (hk : k < 8) (ha : a.stateWords ≤ k) :
    (compress a h blk)[k] = h[k] := by
  have store5 : ∀ v : Five, 5 ≤ k → (v.store h)[k] = h[k] := fun v h5 => by
    rcases k with _ | _ | _ | _ | _ | _ | _ | _ | k
    all_goals first
      | rfl
      | omega
  cases a <;> simp only [compress, Alg.stateWords] at *
  · exact store5 _ ha
  · omega
  · omega
  · omega
  · omega
  · exact store5 _ ha

theorem ivWords_high_zero (a : Alg) (ha : a.wordBits = 32) (k : Nat) (hk : k < 8) : ((ivWords a)[k]).toNat < 2 ^ 32 := by
  have h : ∀ a : Alg, a.wordBits = 32 → ∀ k : Fin 8, ((ivWords a)[k.val]'k.isLt).toNat < 2 ^ 32 := by
    intro a; cases a <;> decide
  exact h a ha ⟨k, hk⟩

theorem ivWords_unused (a : Alg) (k : Nat) (hk : k < 8) (ha : a.stateWords ≤ k) : (ivWords a)[k] = 0 := by
  have h : ∀ a : Alg, ∀ k : Fin 8, a.stateWords ≤ k.val → (ivWords a)[k.val]'k.isLt = 0 := by
    intro a; cases a <;> decide
  exact h a ⟨k, hk⟩ ha

theorem absorbByte_h (c : DCtx) (b : Byte) :
    (c.absorbByte b).h = c.h ∨ ∃ blk, (c.absorbByte b).h = compress c.alg c.h blk := by
  unfold DCtx.absorbByte; dsimp only
  split
  · exact .inr ⟨_, rfl⟩
  · exact .inl rfl

theorem absorb_high_zero (c : DCtx) (m : Bytes) (ha : c.alg.wordBits = 32)
    (hh : ∀ (k : Nat) (hk : k < 8), (c.h[k]).toNat < 2 ^ 32) (k : Nat) (hk : k < 8) :
    ((c.absorb m).h[k]).toNat < 2 ^ 32 := by
  induction m generalizing c with
  | nil => exact hh k hk
  | cons b m ih =>
    rw [absorb_cons]
    refine ih (c.absorbByte b) (by simpa using ha) (fun k hk => ?_)
    rcases absorbByte_h c b with e | ⟨blk, e⟩
    · simp only [e]; exact hh k hk
    · simp only [e]; exact compress_high_zero _ _ _ ha hh k hk

theorem absorb_unused (c : DCtx) (m : Bytes) (k : Nat) (hk : k < 8) (ha : c.alg.stateWords ≤ k) :
    (c.absorb m).h[k] = c.h[k] := by
  induction m generalizing c with
  | nil => rfl
  | cons b m ih =>
    rw [absorb_cons, ih (c.absorbByte b) (by simpa using ha)]
    rcases absorbByte_h c b with e | ⟨blk, e⟩
    · simp only [e]
    · simp only [e]; exact compress_unused _ _ _ k hk ha

end Sys2Proof.Machine
end

