-- ==== Sys2Proof/Laws/Digest.lean ====
section
/-! SUPPORT. The digest register set: padding, serialization, and what each operation answers and leaves
(spec/40_digest.md R100 to R106). -/

namespace Sys2Proof.Machine

/-! ## Padding and serialization -/

theorem padZeros_lt (a : Alg) (r : Nat) : padZeros a r < a.blockBytes := by
  unfold padZeros
  have hp : (0 : Int) < (a.blockBytes : Int) := by exact_mod_cast blockBytes_pos a
  have h1 := Int.emod_nonneg ((a.blockBytes : Int) - a.lengthBytes - 1 - r) (ne_of_gt hp)
  have h2 := Int.emod_lt_of_pos ((a.blockBytes : Int) - a.lengthBytes - 1 - r) hp
  omega

theorem pad_length (a : Alg) (r l : Nat) : (pad a r l).length = 1 + padZeros a r + a.lengthBytes := by
  simp [pad]; omega

/-- Padding fills the last block (R104). -/
theorem pad_fills (a : Alg) (r l : Nat) : (r + (pad a r l).length) % a.blockBytes = 0 := by
  rw [pad_length]
  unfold padZeros
  cases a <;> simp only [Alg.blockBytes, Alg.lengthBytes] <;> omega

theorem serialize_length (a : Alg) (h : HWords) : (serialize a h).length = a.digestBytes := by
  have hl : (h.toList.take a.digestWords).length = a.digestWords := by
    rw [List.length_take, Vector.length_toList]; cases a <;> decide
  rw [serialize, List.length_flatMap, digestBytes_eq]
  simp only [length_encodeInt, List.map_const', List.sum_replicate, hl, smul_eq_mul]

/-! ## What each operation answers -/

theorem update_ok_iff (c c' : DCtx) (m : Bytes) :
    c.update m = .ok c' ↔
      c.phase = .active ∧ c.totBits.toNat + 8 * m.length < Config.maxMsgBits ∧ c' = c.feed m := by
  unfold DCtx.update
  split
  · simp_all
  · simp_all
  · rename_i h
    split
    · simp_all
    · simp_all [eq_comm]

theorem update_ok (c : DCtx) (m : Bytes) (hp : c.phase = .active)
    (hb : c.totBits.toNat + 8 * m.length < Config.maxMsgBits) : c.update m = .ok (c.feed m) :=
  (update_ok_iff c _ m).2 ⟨hp, hb, rfl⟩

/-- Why `DUPD` stops (R101). -/
theorem update_error_iff (c : DCtx) (m : Bytes) (e : Stop) :
    c.update m = .error e ↔
      (c.phase = .empty ∧ e = .raise (.misuse .contextEmpty)) ∨
      (c.phase = .finalized ∧ e = .raise (.misuse .contextFinalized)) ∨
      (c.phase = .active ∧ Config.maxMsgBits ≤ c.totBits.toNat + 8 * m.length ∧ e = .refuse .messageTooLong) := by
  unfold DCtx.update
  cases c.phase <;> simp [eq_comm]
  split <;> simp_all

/-- Why `DFIN` stops (R103). -/
theorem finish_error_iff (c : DCtx) (e : Stop) :
    c.finish = .error e ↔
      (c.phase = .empty ∧ e = .raise (.misuse .contextEmpty)) ∨
      (c.phase = .finalized ∧ e = .raise (.misuse .contextFinalized)) := by
  unfold DCtx.finish
  cases c.phase <;> simp [eq_comm]

theorem finish_ok_iff (c : DCtx) (r : Bytes × DCtx) : c.finish = .ok r ↔ c.phase = .active ∧ r = c.close := by
  unfold DCtx.finish
  cases c.phase <;> simp [eq_comm]

theorem finish_ok (c : DCtx) (hp : c.phase = .active) : c.finish = .ok c.close := (finish_ok_iff c _).2 ⟨hp, rfl⟩

@[simp] theorem close_length (c : DCtx) : c.close.1.length = c.alg.digestBytes := serialize_length ..
@[simp] theorem close_phase (c : DCtx) : c.close.2.phase = .finalized := rfl
@[simp] theorem close_alg (c : DCtx) : c.close.2.alg = c.alg := by simp [DCtx.close, DCtx.absorbPad]
theorem close_wiped (c : DCtx) : c.close.2.Wiped := ⟨rfl, rfl, rfl, rfl⟩

/-- After the padding `BUFLEN` is zero (R103). -/
theorem absorbPad_bufLen (c : DCtx) (hl : c.bufLen.toNat < c.alg.blockBytes) : c.absorbPad.bufLen = 0 := by
  apply BitVec.eq_of_toNat_eq
  rw [DCtx.absorbPad, (absorb_closed c _ hl).2.1, pad_fills]; rfl

/-- `TOTBITS` after a feed within the bound. -/
theorem feed_totBits_toNat (c : DCtx) (m : Bytes) (h : c.totBits.toNat + 8 * m.length < Config.maxMsgBits) :
    (c.feed m).totBits.toNat = c.totBits.toNat + 8 * m.length := by
  simp only [Config.maxMsgBits] at h
  rw [feed_totBits, BitVec.toNat_add, BitVec.toNat_ofNat]
  omega

/-! ## The invariant -/

theorem start_inv (c : DCtx) (a : Alg) : (c.start a).ActiveInv where
  bufLen_lt := by simpa using blockBytes_pos a
  totBits_lt := by simp [Config.maxMsgBits]
  totBits_bytes := by simp
  bufLen_eq := by simp
  high_zero := fun ha k hk => by simpa using ivWords_high_zero a ha k hk
  unused_zero := fun k hk ha => by simpa using ivWords_unused a k hk ha

theorem feed_inv (c : DCtx) (m : Bytes) (h : c.ActiveInv)
    (hb : c.totBits.toNat + 8 * m.length < Config.maxMsgBits) : (c.feed m).ActiveInv where
  bufLen_lt := by simpa using absorb_bufLen_lt c m h.bufLen_lt
  totBits_lt := by rw [feed_totBits_toNat c m hb]; exact hb
  totBits_bytes := by have := h.totBits_bytes; rw [feed_totBits_toNat c m hb]; omega
  bufLen_eq := by
    have h8 := h.totBits_bytes
    rw [feed_totBits_toNat c m hb, feed_bufLen, feed_alg, (absorb_closed c m h.bufLen_lt).2.1, ← h.bufLen_eq,
      Nat.mod_add_mod]
    congr 1
    omega
  high_zero := fun ha k hk => absorb_high_zero c m (by simpa using ha) (h.high_zero (by simpa using ha)) k hk
  unused_zero := fun k hk ha => by
    rw [feed_alg] at ha
    simp only [feed_h]
    rw [absorb_unused c m k hk ha]
    exact h.unused_zero k hk ha

theorem inv_of_active {c : DCtx} (hp : c.phase = .active) (h : c.ActiveInv) : c.Inv := by
  unfold DCtx.Inv; rw [hp]; exact h

theorem inv_active {c : DCtx} (h : c.Inv) (hp : c.phase = .active) : c.ActiveInv := by
  unfold DCtx.Inv at h; rw [hp] at h; exact h

theorem start_dctx_inv (c : DCtx) (a : Alg) : (c.start a).Inv := inv_of_active rfl (start_inv c a)

theorem update_inv {c c' : DCtx} {m : Bytes} (h : c.Inv) (hu : c.update m = .ok c') : c'.Inv := by
  obtain ⟨hp, hb, rfl⟩ := (update_ok_iff c c' m).1 hu
  exact inv_of_active (by simpa using hp) (feed_inv c m (inv_active h hp) hb)

theorem close_inv (c : DCtx) : c.close.2.Inv := by
  unfold DCtx.Inv; rw [close_phase]; exact close_wiped c

theorem finish_inv {c : DCtx} {r : Bytes × DCtx} (hf : c.finish = .ok r) : r.2.Inv := by
  obtain ⟨-, rfl⟩ := (finish_ok_iff c r).1 hf
  exact close_inv c

end Sys2Proof.Machine
end

