-- ==== Sys2Proof/Laws/Hmac.lean ====
section
/-! SUPPORT. The HMAC register set: key normalization, and what each operation answers and leaves (spec/45_hmac.md R200 to R206,
spec/10_state.md R34). -/

namespace Sys2Proof.Machine

/-! ## Key normalization -/

theorem digestOf_length (a : Alg) (m : Bytes) : (digestOf a m).length = a.digestBytes := by
  rw [digestOf, close_length]; simp

/-- A normalized key is one block long (R201). -/
@[simp] theorem keyNorm_length (a : Alg) (k : Bytes) : (keyNorm a k).length = a.blockBytes := by
  unfold keyNorm
  dsimp only
  split
  · have := digestBytes_lt_blockBytes a
    simp [digestOf_length]; omega
  · simp; omega

theorem firstBytes_pad (r : Reg128) (mask : Byte) (a : Alg) (k : Bytes) :
    firstBytes (writeBytes r 0 (maskBytes mask (keyNorm a k))) a.blockBytes = maskBytes mask (keyNorm a k) := by
  have h := firstBytes_writeBytes r (maskBytes mask (keyNorm a k)) (by simpa using blockBytes_le a)
  simpa using h

/-! ## Keying -/

/-- A block fits the bound. -/
theorem block_lt_bound (a : Alg) : 8 * a.blockBytes < Config.maxMsgBits := by cases a <;> decide

/-- Feeding one block to a context just started gives a baseline (R34 item 2). -/
theorem feed_start_isBase (c : DCtx) (a : Alg) (p : Bytes) (hp : p.length = a.blockBytes) :
    ((c.start a).feed p).IsBase a p where
  phase_eq := by simp
  alg_eq := by simp
  h_eq := by
    have h := (absorb_closed (c.start a) p (by simpa using blockBytes_pos a)).1
    have h0 : firstBytes (c.start a).buf (c.start a).bufLen.toNat ++ p = p ++ [] := by simp [firstBytes]
    rw [feed_h, h, h0, start_alg, compressBlocks_block_append _ _ _ _ hp,
      compressBlocks_short _ _ _ (by simpa using blockBytes_pos a), start_h]
  bufLen_zero := by
    apply BitVec.eq_of_toNat_eq
    rw [feed_bufLen, (absorb_closed (c.start a) p (by simpa using blockBytes_pos a)).2.1]
    simp [hp]
  totBits_eq := by simp [hp]

theorem isBase_inv {c : DCtx} {a : Alg} {p : Bytes} (hb : c.IsBase a p) : c.ActiveInv := by
  have hlt := block_lt_bound a
  have ht : c.totBits.toNat = 8 * a.blockBytes := by
    simp only [Config.maxMsgBits] at hlt
    rw [hb.totBits_eq, BitVec.toNat_ofNat, Nat.mod_eq_of_lt (by omega)]
  constructor
  · rw [hb.bufLen_zero, hb.alg_eq]; simpa using blockBytes_pos a
  · rw [ht]; exact hlt
  · rw [ht]; omega
  · rw [ht, hb.alg_eq, hb.bufLen_zero]; simp
  · intro ha k hk
    rw [hb.alg_eq] at ha
    simp only [hb.h_eq]
    exact compress_high_zero _ _ _ ha (ivWords_high_zero a ha) k hk
  · intro k hk ha
    rw [hb.alg_eq] at ha
    simp only [hb.h_eq]
    rw [compress_unused _ _ _ k hk ha, ivWords_unused a k hk ha]

/-- The context `HKEY` leaves (R200). -/
def HCtx.keyed (c : HCtx) (a : Alg) (k : Bytes) : HCtx where
  phase := .keyed
  alg := a
  ipad := writeBytes c.ipad 0 (maskBytes 0x36 (keyNorm a k))
  opad := writeBytes c.opad 0 (maskBytes 0x5c (keyNorm a k))
  inner := (c.inner.start a).feed (maskBytes 0x36 (keyNorm a k))
  outer := (c.outer.start a).feed (maskBytes 0x5c (keyNorm a k))
  ibase := (c.inner.start a).feed (maskBytes 0x36 (keyNorm a k))
  obase := (c.outer.start a).feed (maskBytes 0x5c (keyNorm a k))

/-- `HKEY` is refused past the bound and completes otherwise. -/
theorem key_eq (c : HCtx) (a : Alg) (k : Bytes) :
    c.key a k = if keyTooLong a k then .error (.refuse .messageTooLong) else .ok (c.keyed a k) := by
  have hb : ∀ (x : DCtx) (mask : Byte),
      (x.start a).update (maskBytes mask (keyNorm a k)) = .ok ((x.start a).feed (maskBytes mask (keyNorm a k))) :=
    fun x mask => update_ok _ _ rfl (by simpa using block_lt_bound a)
  unfold HCtx.key
  simp only [firstBytes_pad, hb, HCtx.keyed]

theorem keyed_inv (c : HCtx) (a : Alg) (k : Bytes) : (c.keyed a k).KeyInv where
  pads := ⟨keyNorm a k, keyNorm_length a k, firstBytes_pad .., firstBytes_pad ..⟩
  ibase := by
    have h : firstBytes (c.keyed a k).ipad (c.keyed a k).alg.blockBytes = maskBytes 0x36 (keyNorm a k) := firstBytes_pad ..
    rw [h]; exact feed_start_isBase _ _ _ (by simp)
  obase := by
    have h : firstBytes (c.keyed a k).opad (c.keyed a k).alg.blockBytes = maskBytes 0x5c (keyNorm a k) := firstBytes_pad ..
    rw [h]; exact feed_start_isBase _ _ _ (by simp)
  outer_eq := rfl
  inner_alg := by simp [HCtx.keyed]
  inner_keyed := fun _ => ⟨[], (update_ok_iff ..).2 ⟨by simp [HCtx.keyed], by
    have h := feed_totBits_toNat (c.inner.start a) (maskBytes 0x36 (keyNorm a k)) (by simpa using block_lt_bound a)
    simp only [HCtx.keyed, List.length_nil, h]
    simpa using block_lt_bound a, by simp [HCtx.keyed]⟩⟩
  inner_done := fun h => nomatch h

theorem key_inv {c c' : HCtx} {a : Alg} {k : Bytes} (h : c.key a k = .ok c') : c'.Inv := by
  rw [key_eq] at h
  split at h
  · cases h
  · cases h; exact fun _ => keyed_inv c a k

/-! ## The other operations -/

theorem hupdate_ok_iff (c c' : HCtx) (m : Bytes) :
    c.update m = .ok c' ↔ c.phase = .keyed ∧ ∃ inner, c.inner.update m = .ok inner ∧ c' = { c with inner := inner } := by
  unfold HCtx.update
  cases c.phase <;> cases c.inner.update m <;> simp [Except.map, eq_comm]

theorem reinit_ok_iff (c c' : HCtx) :
    c.reinit = .ok c' ↔ c.phase ≠ .empty ∧ c' = { c with inner := c.ibase, outer := c.obase, phase := .keyed } := by
  unfold HCtx.reinit
  cases c.phase <;> simp [eq_comm]

theorem mac_ok_iff (c : HCtx) (r : Bytes × HCtx) :
    c.mac = .ok r ↔
      c.inner.phase = .active ∧ c.obase.phase = .active ∧
      c.obase.totBits.toNat + 8 * c.inner.alg.digestBytes < Config.maxMsgBits ∧
      r = ((c.obase.feed c.inner.close.1).close.1, { c with inner := c.inner.close.2, phase := .finalized }) := by
  rw [← close_length]
  unfold HCtx.mac
  cases hf : c.inner.finish with
  | error e =>
    have : c.inner.phase ≠ .active := fun hp => by rw [finish_ok _ hp] at hf; cases hf
    simp [this]
  | ok cl =>
    obtain ⟨hp, rfl⟩ := (finish_ok_iff ..).1 hf
    generalize c.inner.close = cl
    obtain ⟨d, inner⟩ := cl
    cases hu : c.obase.update d with
    | error e =>
      have h : ¬ (c.obase.phase = .active ∧ c.obase.totBits.toNat + 8 * d.length < Config.maxMsgBits) :=
        fun ⟨h1, h2⟩ => by rw [update_ok _ _ h1 h2] at hu; cases hu
      simp only [hu, reduceCtorEq, false_iff]
      exact fun ⟨_, h1, h2, _⟩ => h ⟨h1, h2⟩
    | ok o =>
      obtain ⟨h1, h2, rfl⟩ := (update_ok_iff ..).1 hu
      have hfin := finish_ok (c.obase.feed d) (by simpa using h1)
      simp only [hu, hfin, hp, h1, h2, true_and, Except.ok.injEq, eq_comm]

theorem hfinish_ok_iff (c : HCtx) (n : Nat) (r : Bytes × HCtx) :
    c.finish n = .ok r ↔
      c.phase = .keyed ∧ n ≠ 0 ∧ n ≤ c.alg.digestBytes ∧ ∃ full, c.mac = .ok full ∧ r = (full.1.take n, full.2) := by
  unfold HCtx.finish
  cases c.phase
  · simp
  · by_cases h1 : n = 0
    · simp [h1]
    · by_cases h2 : c.alg.digestBytes < n
      · simp [h1, h2]
      · have h3 : n ≤ c.alg.digestBytes := Nat.le_of_not_lt h2
        rw [if_neg h1, if_neg h2]
        cases c.mac <;> simp [h1, h3, Except.map, eq_comm]
  · simp

/-- Why `HREINIT` stops (R206). -/
theorem reinit_error_iff (c : HCtx) (e : Stop) :
    c.reinit = .error e ↔ c.phase = .empty ∧ e = .raise (.misuse .contextEmpty) := by
  unfold HCtx.reinit
  cases c.phase <;> simp [eq_comm]

/-- Why `HUPD` stops (R203). The inner context's own phase checks (R202) can fire only in states that break the invariant. -/
theorem hupdate_error {c : HCtx} {m : Bytes} {e : Stop} (h : c.update m = .error e) :
    (c.phase = .empty ∧ e = .raise (.misuse .contextEmpty)) ∨
    (c.phase = .finalized ∧ e = .raise (.misuse .contextFinalized)) ∨
    (c.phase = .keyed ∧ c.inner.update m = .error e) := by
  unfold HCtx.update at h
  cases hp : c.phase <;> rw [hp] at h <;> simp at h
  · exact .inl ⟨rfl, h.symm⟩
  · refine .inr (.inr ⟨rfl, ?_⟩)
    cases hu : c.inner.update m <;> simp_all [Except.map]
  · exact .inr (.inl ⟨rfl, h.symm⟩)

theorem mac_error {c : HCtx} {e : Stop} (h : c.mac = .error e) :
    c.inner.finish = .error e ∨ ∃ d, c.obase.update d = .error e := by
  unfold HCtx.mac at h
  cases hf : c.inner.finish with
  | error x => rw [hf] at h; cases h; exact .inl rfl
  | ok cl =>
    rw [hf] at h
    refine .inr ⟨cl.1, ?_⟩
    cases hu : c.obase.update cl.1 with
    | error x => simp only [hu] at h; cases h; rfl
    | ok o =>
      obtain ⟨h1, -, rfl⟩ := (update_ok_iff ..).1 hu
      simp [hu, finish_ok (c.obase.feed cl.1) (by simpa using h1)] at h

/-- Why `HFIN` stops (R204). -/
theorem hfinish_error {c : HCtx} {n : Nat} {e : Stop} (h : c.finish n = .error e) :
    (c.phase = .empty ∧ e = .raise (.misuse .contextEmpty)) ∨
    (c.phase = .finalized ∧ e = .raise (.misuse .contextFinalized)) ∨
    (c.phase = .keyed ∧ n = 0 ∧ e = .raise (.precondition .noMac)) ∨
    (c.phase = .keyed ∧ c.alg.digestBytes < n ∧ e = .raise (.precondition .macTooLong)) ∨
    (c.phase = .keyed ∧ c.mac = .error e) := by
  unfold HCtx.finish at h
  cases hp : c.phase <;> rw [hp] at h <;> simp only [] at h
  · cases h; exact .inl ⟨rfl, rfl⟩
  · split at h
    · cases h; exact .inr (.inr (.inl ⟨rfl, ‹_›, rfl⟩))
    · split at h
      · cases h; exact .inr (.inr (.inr (.inl ⟨rfl, ‹_›, rfl⟩)))
      · refine .inr (.inr (.inr (.inr ⟨rfl, ?_⟩)))
        cases hm : c.mac <;> rw [hm] at h <;> simp [Except.map] at h
        rw [h]
  · cases h; exact .inr (.inl ⟨rfl, rfl⟩)

/-! ## The invariant of an HMAC context -/

theorem keyInv_inner_inv {c : HCtx} (h : c.KeyInv) (hp : c.phase = .keyed) :
    c.inner.phase = .active ∧ c.inner.ActiveInv := by
  obtain ⟨m, hm⟩ := h.inner_keyed hp
  obtain ⟨h1, h2, h3⟩ := (update_ok_iff ..).1 hm
  rw [h3]
  exact ⟨by simpa using h1, feed_inv _ _ (isBase_inv h.ibase) h2⟩

/-- In a keyed context `HFIN`'s digests cannot be stopped (R204). -/
theorem keyInv_mac {c : HCtx} (h : c.KeyInv) (hp : c.phase = .keyed) :
    c.mac = .ok ((c.obase.feed c.inner.close.1).close.1, { c with inner := c.inner.close.2, phase := .finalized }) := by
  refine (mac_ok_iff c _).2 ⟨(keyInv_inner_inv h hp).1, h.obase.phase_eq, ?_, rfl⟩
  have hlt := block_lt_bound c.alg
  have ht : c.obase.totBits.toNat = 8 * c.alg.blockBytes := by
    simp only [Config.maxMsgBits] at hlt
    rw [h.obase.totBits_eq, BitVec.toNat_ofNat, Nat.mod_eq_of_lt (by omega)]
  rw [ht, h.inner_alg]
  cases c.alg <;> decide

theorem hupdate_inv {c c' : HCtx} {m : Bytes} (h : c.Inv) (hu : c.update m = .ok c') : c'.Inv := by
  obtain ⟨hp, inner, hi, rfl⟩ := (hupdate_ok_iff ..).1 hu
  have hk := h (by rw [hp]; decide)
  obtain ⟨m0, hm0⟩ := hk.inner_keyed hp
  obtain ⟨a1, a2, a3⟩ := (update_ok_iff ..).1 hm0
  obtain ⟨b1, b2, b3⟩ := (update_ok_iff ..).1 hi
  refine fun _ => { pads := hk.pads, ibase := hk.ibase, obase := hk.obase, outer_eq := hk.outer_eq, inner_alg := ?_, inner_keyed := ?_, inner_done := ?_ }
  · rw [b3, feed_alg]; exact hk.inner_alg
  · refine fun _ => ⟨m0 ++ m, (update_ok_iff ..).2 ⟨a1, ?_, ?_⟩⟩
    · rw [a3, feed_totBits_toNat _ _ a2] at b2
      simp only [List.length_append]; omega
    · rw [b3, a3, feed_append]
  · intro hd; exact absurd (hd.symm.trans hp) (by decide)

theorem reinit_inv {c c' : HCtx} (h : c.Inv) (hr : c.reinit = .ok c') : c'.Inv := by
  obtain ⟨hp, rfl⟩ := (reinit_ok_iff ..).1 hr
  have hk := h hp
  refine fun _ => { pads := hk.pads, ibase := hk.ibase, obase := hk.obase, outer_eq := rfl, inner_alg := hk.ibase.alg_eq, inner_keyed := ?_, inner_done := ?_ }
  · refine fun _ => ⟨[], (update_ok_iff ..).2 ⟨hk.ibase.phase_eq, ?_, by simp⟩⟩
    simpa using (isBase_inv hk.ibase).totBits_lt
  · intro hd; cases hd

theorem hfinish_inv {c : HCtx} {n : Nat} {r : Bytes × HCtx} (h : c.Inv) (hf : c.finish n = .ok r) : r.2.Inv := by
  obtain ⟨hp, -, -, full, hm, rfl⟩ := (hfinish_ok_iff ..).1 hf
  obtain ⟨-, -, -, rfl⟩ := (mac_ok_iff ..).1 hm
  have hk := h (by rw [hp]; decide)
  refine fun _ => { pads := hk.pads, ibase := hk.ibase, obase := hk.obase, outer_eq := hk.outer_eq, inner_alg := ?_, inner_keyed := ?_, inner_done := ?_ }
  · exact (close_alg _).trans hk.inner_alg
  · intro hd; cases hd
  · exact fun _ => ⟨rfl, close_wiped _⟩

end Sys2Proof.Machine
end

