-- ==== Sys2Proof/Laws/Pbkdf2.lean ====
section
/-! SUPPORT. The private HMAC context of a derivation: what one PRF call, one block and all blocks answer (spec/46_pbkdf2.md R220,
R223, R224). -/

namespace Sys2Proof.Machine

/-- The MAC of `x` from the two keyed baselines (R204, R206). -/
def macFrom (ib ob : DCtx) (x : Bytes) : Bytes := (ob.feed (ib.feed x).close.1).close.1

/-- `U_(j+1)` from `U_1` and the two keyed baselines (R223). -/
def chainFrom (ib ob : DCtx) (u : Bytes) : Nat → Bytes
  | 0 => u
  | j + 1 => macFrom ib ob (chainFrom ib ob u j)

/-- `F` of the block whose `U_1` is `u` (R223). -/
def blockFrom (ib ob : DCtx) (u : Bytes) (c : Nat) : Bytes :=
  (List.range (c - 1)).foldl (fun t j => xorBytes t (chainFrom ib ob u (j + 1))) u

/-- A context keyed with the baselines `ib` and `ob` of the algorithm `a`. -/
structure HCtx.KeyedBy (ph : HCtx) (a : Alg) (ib ob : DCtx) : Prop where
  inv : ph.KeyInv
  alg_eq : ph.alg = a
  ibase_eq : ph.ibase = ib
  obase_eq : ph.obase = ob
  phase_ne : ph.phase ≠ .empty

@[simp] theorem macFrom_length (ib ob : DCtx) (x : Bytes) : (macFrom ib ob x).length = ob.alg.digestBytes := by
  simp [macFrom]

theorem keyedBy_ob_alg {ph : HCtx} {a : Alg} {ib ob : DCtx} (h : ph.KeyedBy a ib ob) : ob.alg = a := by
  rw [← h.obase_eq, h.inv.obase.alg_eq, h.alg_eq]

/-- One PRF call answers the MAC from the baselines and leaves the context keyed by them. -/
theorem prf_eq {ph : HCtx} {a : Alg} {ib ob : DCtx} (h : ph.KeyedBy a ib ob) (x : Bytes)
    (hb : 8 * (a.blockBytes + x.length) < Config.maxMsgBits) :
    ∃ ph', ph.prf x = .ok (macFrom ib ob x, ph') ∧ ph'.KeyedBy a ib ob := by
  have ht : ph.ibase.totBits.toNat = 8 * a.blockBytes := by
    have hlt := block_lt_bound a
    simp only [Config.maxMsgBits] at hlt
    rw [h.inv.ibase.totBits_eq, h.alg_eq, BitVec.toNat_ofNat, Nat.mod_eq_of_lt (by omega)]
  obtain ⟨c1, e1⟩ : ∃ c1 : HCtx, c1 = { ph with inner := ph.ibase, outer := ph.obase, phase := .keyed } := ⟨_, rfl⟩
  have hre : ph.reinit = .ok c1 := (reinit_ok_iff ph c1).2 ⟨h.phase_ne, e1⟩
  have i1 : c1.inner = ph.ibase := by rw [e1]
  have p1 : c1.phase = .keyed := by rw [e1]
  obtain ⟨c2, e2⟩ : ∃ c2 : HCtx, c2 = { c1 with inner := ph.ibase.feed x } := ⟨_, rfl⟩
  have hup : c1.update x = .ok c2 := (hupdate_ok_iff c1 c2 x).2
    ⟨p1, _, by rw [i1]; exact update_ok ph.ibase x h.inv.ibase.phase_eq (by rw [ht]; omega), e2⟩
  have p2 : c2.phase = .keyed := by rw [e2]; exact p1
  have ne2 : c2.phase ≠ .empty := by rw [p2]; decide
  have hinv2 : c2.Inv := hupdate_inv (reinit_inv (fun _ => h.inv) hre) hup
  have a2 : c2.alg = ph.alg := by rw [e2, e1]
  have ib2 : c2.ibase = ph.ibase := by rw [e2, e1]
  have ob2 : c2.obase = ph.obase := by rw [e2, e1]
  have in2 : c2.inner = ph.ibase.feed x := by rw [e2]
  have hmac := keyInv_mac (hinv2 ne2) p2
  obtain ⟨c3, e3⟩ : ∃ c3 : HCtx, c3 = { c2 with inner := c2.inner.close.2, phase := .finalized } := ⟨_, rfl⟩
  rw [← e3, in2, ob2] at hmac
  have hval : (macFrom ph.ibase ph.obase x).take c2.alg.digestBytes = macFrom ph.ibase ph.obase x :=
    List.take_of_length_le (by rw [macFrom_length, h.inv.obase.alg_eq, a2])
  have hfin : c2.finish c2.alg.digestBytes = .ok (macFrom ph.ibase ph.obase x, c3) :=
    (hfinish_ok_iff c2 _ _).2
      ⟨p2, Nat.pos_iff_ne_zero.1 (digestBytes_pos _), Nat.le_refl _, _, hmac, by rw [← hval]; rfl⟩
  have p3 : c3.phase ≠ .empty := by rw [e3]; exact fun hd => nomatch hd
  refine ⟨c3, ?_, hfinish_inv hinv2 hfin p3, ?_, ?_, ?_, p3⟩
  · simp only [HCtx.prf, hre, hup, hfin, h.ibase_eq, h.obase_eq]
  · rw [e3]; exact a2.trans h.alg_eq
  · rw [e3]; exact ib2.trans h.ibase_eq
  · rw [e3]; exact ob2.trans h.obase_eq

/-- The iterations of one block. -/
theorem iterate_eq {a : Alg} {ib ob : DCtx} (n : Nat) {ph : HCtx} (h : ph.KeyedBy a ib ob) (u t : Bytes)
    (hu : u.length = a.digestBytes) :
    ∃ ph', pbkdf2Iterate n ph u t =
        .ok ((List.range n).foldl (fun t j => xorBytes t (chainFrom ib ob u (j + 1))) t, ph') ∧ ph'.KeyedBy a ib ob := by
  induction n generalizing ph u t with
  | zero => exact ⟨ph, rfl, h⟩
  | succ n ih =>
    have hb : 8 * (a.blockBytes + u.length) < Config.maxMsgBits := by rw [hu]; cases a <;> decide
    obtain ⟨ph1, h1, k1⟩ := prf_eq h u hb
    obtain ⟨ph2, h2, k2⟩ := ih k1 (macFrom ib ob u) (xorBytes t (macFrom ib ob u)) (by simp [keyedBy_ob_alg h])
    have hshift : ∀ j, chainFrom ib ob (macFrom ib ob u) j = chainFrom ib ob u (j + 1) := fun j => by
      induction j with
      | zero => rfl
      | succ j ihj => rw [chainFrom, ihj]; rfl
    refine ⟨ph2, ?_, k2⟩
    simp only [pbkdf2Iterate, h1, h2, hshift]
    rw [List.range_succ_eq_map, List.foldl_cons, List.foldl_map]
    rfl

theorem blockFrom_length {ib ob : DCtx} (u : Bytes) (c : Nat) (hu : u.length = ob.alg.digestBytes) :
    (blockFrom ib ob u c).length = ob.alg.digestBytes := by
  have h : ∀ (l : List Nat) (t : Bytes), t.length = ob.alg.digestBytes →
      (l.foldl (fun t j => xorBytes t (chainFrom ib ob u (j + 1))) t).length = ob.alg.digestBytes := by
    intro l
    induction l with
    | nil => intro t ht; exact ht
    | cons j l ih =>
      intro t ht
      exact ih _ (by simp [length_xorBytes, ht, chainFrom])
  exact h _ u hu

/-- One block: `F(i)`. -/
theorem block_eq {a : Alg} {ib ob : DCtx} {ph : HCtx} (h : ph.KeyedBy a ib ob) (s : Bytes) (c i : Nat)
    (hb : 8 * (a.blockBytes + s.length + 4) < Config.maxMsgBits) :
    ∃ ph', pbkdf2Block ph s c i = .ok (blockFrom ib ob (macFrom ib ob (s ++ beBytes 4 i)) c, ph') ∧ ph'.KeyedBy a ib ob := by
  obtain ⟨ph1, h1, k1⟩ := prf_eq h (s ++ beBytes 4 i) (by simp; omega)
  obtain ⟨ph2, h2, k2⟩ := iterate_eq (c - 1) k1 (macFrom ib ob (s ++ beBytes 4 i)) (macFrom ib ob (s ++ beBytes 4 i))
    (by simp [keyedBy_ob_alg h])
  exact ⟨ph2, by simp only [pbkdf2Block, h1, h2]; rfl, k2⟩

theorem take_append_take {α : Type} (n : Nat) (l r : List α) : (l.take n ++ r).take n = (l ++ r).take n := by
  simp only [List.take_append, List.length_take, List.take_take, Nat.min_self]
  congr 2
  omega

/-- The blocks from `i` on, cut to the output length. -/
theorem blocks_eq {a : Alg} {ib ob : DCtx} (s : Bytes) (c dk n : Nat) (hb : 8 * (a.blockBytes + s.length + 4) < Config.maxMsgBits)
    (i : Nat) {ph : HCtx} (h : ph.KeyedBy a ib ob) (out : Bytes) (ho : out.length ≤ dk) :
    pbkdf2Blocks s c dk a.digestBytes n i ph out =
      .ok ((out ++ (List.range n).flatMap fun j => blockFrom ib ob (macFrom ib ob (s ++ beBytes 4 (i + j))) c).take dk) := by
  induction n generalizing i ph out with
  | zero => simp [pbkdf2Blocks, List.take_of_length_le ho]
  | succ n ih =>
    obtain ⟨ph1, h1, k1⟩ := block_eq h s c i hb
    have hlen : (blockFrom ib ob (macFrom ib ob (s ++ beBytes 4 i)) c).length = a.digestBytes := by
      rw [blockFrom_length _ _ (by simp), keyedBy_ob_alg h]
    have hcut : out ++ (blockFrom ib ob (macFrom ib ob (s ++ beBytes 4 i)) c).take (min a.digestBytes (dk - out.length))
        = (out ++ blockFrom ib ob (macFrom ib ob (s ++ beBytes 4 i)) c).take dk := by
      rw [List.take_append, List.take_of_length_le ho, Nat.min_comm, ← List.take_take, List.take_of_length_le (Nat.le_of_eq hlen)]
    have hsucc : ∀ j, i + 1 + j = i + (j + 1) := fun j => by omega
    simp only [pbkdf2Blocks, h1, hcut]
    rw [ih (i + 1) k1 _ (by simp), take_append_take, List.range_succ_eq_map, List.flatMap_cons, List.flatMap_map]
    simp only [hsucc, Nat.succ_eq_add_one, Nat.add_zero, List.append_assoc]

/-- Where the checks pass the derivation completes: the blocks `F(1), F(2), ...` cut to the output length (R220, R224). -/
theorem derive_eq (a : Alg) (p s : Bytes) (c dk : Nat) (hp : keyTooLong a p = false)
    (hb : 8 * (a.blockBytes + s.length + 4) < Config.maxMsgBits) :
    pbkdf2Derive a p s c dk =
      .ok (((List.range (pbkdf2BlockCount a dk)).flatMap fun j =>
        blockFrom (HCtx.initial.keyed a p).ibase (HCtx.initial.keyed a p).obase
          (macFrom (HCtx.initial.keyed a p).ibase (HCtx.initial.keyed a p).obase (s ++ beBytes 4 (j + 1))) c).take dk) := by
  have hk : (HCtx.initial.keyed a p).KeyedBy a (HCtx.initial.keyed a p).ibase (HCtx.initial.keyed a p).obase :=
    ⟨keyed_inv _ _ _, rfl, rfl, rfl, fun hd => nomatch hd⟩
  simp only [pbkdf2Derive, key_eq, hp, Bool.false_eq_true, if_false]
  rw [blocks_eq s c dk _ hb 1 hk [] (Nat.zero_le _)]
  simp only [List.nil_append, Nat.add_comm 1]

theorem flatMap_length_const {α : Type} (l : List α) (f : α → Bytes) (n : Nat) (h : ∀ x ∈ l, (f x).length = n) :
    (l.flatMap f).length = l.length * n := by
  induction l with
  | nil => simp
  | cons x l ih =>
    rw [List.flatMap_cons, List.length_append, h x (by simp), ih fun y hy => h y (by simp [hy]), List.length_cons,
      Nat.succ_mul, Nat.add_comm]

theorem blockCount_enough (a : Alg) (dk : Nat) : dk ≤ pbkdf2BlockCount a dk * a.digestBytes := by
  unfold pbkdf2BlockCount
  have hp := digestBytes_pos a
  have h := Nat.lt_div_mul_add (a := dk + a.digestBytes - 1) hp
  omega

/-- The output is exactly `dk` bytes (R224). -/
theorem derive_length {a : Alg} {p s : Bytes} {c dk : Nat} {out : Bytes} (hp : keyTooLong a p = false)
    (hb : 8 * (a.blockBytes + s.length + 4) < Config.maxMsgBits) (h : pbkdf2Derive a p s c dk = .ok out) :
    out.length = dk := by
  rw [derive_eq a p s c dk hp hb] at h
  cases h
  have ho : (HCtx.initial.keyed a p).obase.alg = a := by simp [HCtx.keyed]
  rw [List.length_take, flatMap_length_const _ _ a.digestBytes (fun j _ => by rw [blockFrom_length _ _ (by simp), ho]),
    List.length_range]
  exact Nat.min_eq_left (blockCount_enough a dk)

/-- The checks of PBKDF2 pass exactly where every operand is in its range (R221, R256). -/
theorem checks_ok_iff (a : Alg) (p s : Bytes) (c dk : Nat) :
    pbkdf2Checks a p s c dk = .ok () ↔
      c ≠ 0 ∧ dk ≠ 0 ∧ dk ≤ pbkdf2MaxOutput a ∧ keyTooLong a p = false ∧
      8 * (a.blockBytes + s.length + 4) < Config.maxMsgBits := by
  unfold pbkdf2Checks
  repeat' split
  all_goals simp_all

/-- Why the checks of PBKDF2 stop it (R221, R256). -/
theorem checks_error {a : Alg} {p s : Bytes} {c dk : Nat} {e : Stop} (h : pbkdf2Checks a p s c dk = .error e) :
    e = .raise (.precondition .noIterations) ∨ e = .raise (.precondition .noOutput) ∨
    e = .raise (.precondition .outputTooLong) ∨ e = .refuse .messageTooLong := by
  unfold pbkdf2Checks at h
  repeat' split at h
  all_goals simp_all

/-- Where the checks pass the derivation cannot be stopped. -/
theorem derive_not_error {a : Alg} {p s : Bytes} {c dk : Nat} (h : pbkdf2Checks a p s c dk = .ok ()) (e : Stop) :
    pbkdf2Derive a p s c dk ≠ .error e := by
  obtain ⟨-, -, -, hp, hb⟩ := (checks_ok_iff a p s c dk).1 h
  rw [derive_eq a p s c dk hp hb]
  exact fun hd => nomatch hd

end Sys2Proof.Machine
end

