-- ==== Sys2Proof/Laws/Ops.lean ====
section
/-! SUPPORT. Everything the shared operations and the commands can do: the answer of the unit served, and nothing else
(spec/60_exceptions.md R243, spec/20_memory.md R56, R60). -/

namespace Sys2Proof.Machine

/-! ## Answering -/

theorem engine?_eq_some (s : State) (e : Engine) : s.engine? = some e ↔ ∃ u, s.unit? = some u ∧ u.engine = e := by
  simp [State.engine?]

theorem modify_eq_set {α : Type} (l : List α) (i : Nat) (f : α → α) (a : α) (h : l[i]? = some a) :
    l.modify i f = l.set i (f a) := by
  apply List.ext_getElem?
  intro j
  rw [List.getElem?_modify, List.getElem?_set]
  have hi := (List.getElem?_eq_some_iff.1 h).1
  by_cases hij : i = j
  · subst hij; rw [h]; simp [hi]
  · simp [hij]

theorem modifyUnit_eq (s : State) (f : HwUnit → HwUnit) (u : HwUnit) (h : s.unit? = some u) :
    s.modifyUnit f = { s with units := s.units.set s.cur (f u) } := by
  rw [State.modifyUnit, modify_eq_set _ _ _ _ h]

theorem unit?_modifyUnit (s : State) (f : HwUnit → HwUnit) : (s.modifyUnit f).unit? = s.unit?.map f := by
  simp [State.unit?]

/-- `Respond(OK, out)` is an answer with the context given. -/
theorem complete_answers (s : State) (e : Engine) (out : Option Bytes) (u : HwUnit) (h : s.unit? = some u) :
    s.Answers (s.complete e out) e ⟨.ok, out⟩ := by
  refine ⟨u, h, ?_⟩
  have h1 : (s.setEngine e).unit? = some { u with engine := e } := by
    rw [State.setEngine, unit?_modifyUnit, h]; rfl
  rw [State.complete, State.respond, modifyUnit_eq _ _ _ h1, State.setEngine, modifyUnit_eq _ _ _ h]
  simp [HwUnit.respond]

/-- A raised status is an answer that leaves the context as it was (R243). -/
theorem respond_answers (s : State) (r : Response) (u : HwUnit) (h : s.unit? = some u) :
    s.Answers (s.respond r) u.engine r :=
  ⟨u, h, by rw [State.respond, modifyUnit_eq _ _ _ h]; rfl⟩

theorem answers_unit? {s t : State} {e : Engine} {r : Response} (h : s.Answers t e r) :
    ∃ u, s.unit? = some u ∧ t.unit? = some { u with engine := e, rsp := u.rsp ++ [r] } := by
  obtain ⟨u, hu, rfl⟩ := h
  refine ⟨u, hu, ?_⟩
  have hi : s.cur < s.units.length := (List.getElem?_eq_some_iff.1 hu).1
  simp [State.unit?, hi]

theorem answers_cur {s t : State} {e : Engine} {r : Response} (h : s.Answers t e r) : t.cur = s.cur := by
  obtain ⟨u, -, rfl⟩ := h; rfl

theorem answers_length {s t : State} {e : Engine} {r : Response} (h : s.Answers t e r) :
    t.units.length = s.units.length := by
  obtain ⟨u, -, rfl⟩ := h; simp

theorem answers_other {s t : State} {e : Engine} {r : Response} (h : s.Answers t e r) (k : Nat) (hk : k ≠ s.cur) :
    t.units[k]? = s.units[k]? := by
  obtain ⟨u, -, rfl⟩ := h
  simp [Ne.symm hk]

theorem answers_mem {s t : State} {e : Engine} {r : Response} (h : s.Answers t e r) (u : HwUnit) (hu : u ∈ t.units) :
    u ∈ s.units ∨ u.engine = e := by
  obtain ⟨v, -, rfl⟩ := h
  rcases List.mem_or_eq_of_mem_set hu with h | h
  · exact .inl h
  · exact .inr (by rw [h])

/-! ## The allocator's draw -/

/-- All a draw does: the unit served uses up one answer, where scratch is drawn. -/
theorem takeDraw_drawn {s : State} {u : HwUnit} (h : s.unit? = some u) : s.Drawn s.takeDraw := by
  constructor <;> intro hs
  · simp [State.takeDraw, hs]
  · exact ⟨u, h, by rw [State.takeDraw, if_pos hs, modifyUnit_eq _ _ _ h]; rfl⟩

/-- The unit served after a draw: the same but for its draws. -/
theorem takeDraw_unit? {s : State} {u : HwUnit} (h : s.unit? = some u) :
    s.takeDraw.unit? = some u ∨ s.takeDraw.unit? = some (u.draw s.cur) := by
  unfold State.takeDraw
  split
  · exact .inr (by rw [unit?_modifyUnit, h]; rfl)
  · exact .inl h

/-- A draw leaves the context, the kind and the streams of the unit served. -/
theorem takeDraw_served {s : State} {u : HwUnit} (h : s.unit? = some u) :
    ∃ v, s.takeDraw.unit? = some v ∧ v.engine = u.engine ∧ v.kind = u.kind ∧ v.cmd = u.cmd ∧ v.rsp = u.rsp := by
  rcases takeDraw_unit? h with h | h <;> exact ⟨_, h, rfl, rfl, rfl, rfl⟩

theorem takeDraw_length (s : State) : s.takeDraw.units.length = s.units.length := by
  unfold State.takeDraw; split <;> simp

theorem takeDraw_other (s : State) (k : Nat) (hk : k ≠ s.cur) : s.takeDraw.units[k]? = s.units[k]? := by
  unfold State.takeDraw; split
  · simp [Ne.symm hk]
  · rfl

/-! ## The operations as one write of the unit served -/

theorem respond_eq_set {s : State} {u : HwUnit} (hu : s.unit? = some u) (r : Response) :
    s.respond r = { s with units := s.units.set s.cur (u.respond r) } := modifyUnit_eq _ _ _ hu

theorem complete_eq_set {s : State} {u : HwUnit} (hu : s.unit? = some u) (e : Engine) (o : Option Bytes) :
    s.complete e o = { s with units := s.units.set s.cur { u with engine := e, rsp := u.rsp ++ [⟨.ok, o⟩] } } := by
  obtain ⟨v, hv, h⟩ := complete_answers s e o u hu
  rw [hu] at hv; cases hv; exact h

theorem takeDraw_eq_set {s : State} {u : HwUnit} (hu : s.unit? = some u) :
    s.takeDraw = { s with units := s.units.set s.cur (if s.scratchFromAllocator then u.draw s.cur else u) } := by
  unfold State.takeDraw
  split
  · exact modifyUnit_eq _ _ _ hu
  · have : s.units.set s.cur u = s.units := by
      obtain ⟨h1, h2⟩ := List.getElem?_eq_some_iff.1 hu
      rw [← h2, List.set_getElem_self]
    rw [this]

/-! ## The end of a command's body -/

/-- What a body's result leads to: an OK with its context and output, a status with the context unchanged, or a refusal. -/
theorem conclude_cases (s : State) (u : HwUnit) (hu : s.unit? = some u) (x : Except Stop (Engine × Option Bytes)) :
    (∃ e out, x = .ok (e, out) ∧ s.conclude x = .next (s.complete e out) ∧ s.Answers (s.complete e out) e ⟨.ok, out⟩) ∨
    (∃ st, x = .error (.raise st) ∧ s.conclude x = .next (s.respond ⟨st, none⟩) ∧
      s.Answers (s.respond ⟨st, none⟩) u.engine ⟨st, none⟩) ∨
    (∃ why, x = .error (.refuse why) ∧ s.conclude x = .refused why) := by
  rcases x with (st | why) | ⟨e, out⟩
  · exact .inr (.inl ⟨st, rfl, rfl, respond_answers s _ u hu⟩)
  · exact .inr (.inr ⟨why, rfl, rfl⟩)
  · exact .inl ⟨e, out, rfl, rfl, complete_answers s e out u hu⟩

section
variable {s : State} {u : HwUnit}

theorem onDigest_eq {c : DCtx} {f : DCtx → Outcome} (h : s.engine? = some (.digest c)) : s.onDigest f = f c := by
  simp [State.onDigest, h]

theorem onHmac_eq {c : HCtx} {f : HCtx → Outcome} (h : s.engine? = some (.hmac c)) : s.onHmac f = f c := by
  simp [State.onHmac, h]

theorem onPbkdf2_eq {f : Outcome} (h : s.engine? = some .pbkdf2) : s.onPbkdf2 f = f := by
  simp [State.onPbkdf2, h]

end

/-! ## The commands -/

/-- The body of a command on the context of its unit, as a result: what `exec` concludes with (but for the draw of PBKDF2). -/
def body (i : Instr) (e : Engine) : Except Stop (Engine × Option Bytes) :=
  match i, e with
  | .dinit a, .digest c => .ok (.digest (c.start a), none)
  | .dupd m, .digest c => (c.update m).map fun c' => (.digest c', none)
  | .dfin, .digest c => c.finish.map fun r => (.digest r.2, some r.1)
  | .hkey a k, .hmac c => (c.key a k).map fun c' => (.hmac c', none)
  | .hupd m, .hmac c => (c.update m).map fun c' => (.hmac c', none)
  | .hfin n, .hmac c => (c.finish n.toNat).map fun r => (.hmac r.2, some r.1)
  | .hreinit, .hmac c => c.reinit.map fun c' => (.hmac c', none)
  | .pbkdf2 a p salt c dk, .pbkdf2 =>
    match pbkdf2Checks a p salt c.toNat dk.toNat with
    | .error x => .error x
    | .ok _ => (pbkdf2Derive a p salt c.toNat dk.toNat).map fun out => (.pbkdf2, some out)
  | _, _ => .error (.raise (.illegalCommand .opcode))

/-- A command of the digest unit or of the HMAC engine: its body on the context of the unit served. -/
theorem exec_eq_body {i : Instr} {s : State} {u : HwUnit} (hu : s.unit? = some u) (hi : i.unit ≠ .pbkdf2) :
    exec i s = s.conclude (body i u.engine) := by
  have he : s.engine? = some u.engine := by simp [State.engine?, hu]
  cases i <;> first
    | exact absurd rfl hi
    | (cases hue : u.engine <;> rw [hue] at he <;>
        simp [exec, execDinit, execDupd, execDfin, execHkey, execHupd, execHfin, execHreinit,
          State.onDigest, State.onHmac, he, body, State.conclude])

/-- PBKDF2 on its unit: the checks, the draw, the derivation. -/
theorem exec_pbkdf2 {a : Alg} {p salt : Bytes} {c : BitVec 32} {dk : BitVec 64} {s : State} (he : s.engine? = some .pbkdf2) :
    exec (.pbkdf2 a p salt c dk) s =
      match pbkdf2Checks a p salt c.toNat dk.toNat with
      | .error e => s.conclude (.error e)
      | .ok _ =>
        if s.drawFails then s.takeDraw.raise .allocFail
        else s.takeDraw.conclude ((pbkdf2Derive a p salt c.toNat dk.toNat).map fun out => (.pbkdf2, some out)) := by
  refine (onPbkdf2_eq he).trans ?_
  cases pbkdf2Checks a p salt c.toNat dk.toNat <;> rfl

/-- PBKDF2 on a unit of another kind is illegal (R71). -/
theorem exec_pbkdf2_wrong {a : Alg} {p salt : Bytes} {c : BitVec 32} {dk : BitVec 64} {s : State} {u : HwUnit}
    (hu : s.unit? = some u) (he : u.engine ≠ .pbkdf2) :
    exec (.pbkdf2 a p salt c dk) s = s.raise (.illegalCommand .opcode) := by
  have h : s.engine? = some u.engine := by simp [State.engine?, hu]
  cases hue : u.engine <;> rw [hue] at h he
  · simp [exec, execPbkdf2, State.onPbkdf2, h]
  · simp [exec, execPbkdf2, State.onPbkdf2, h]
  · exact absurd rfl he

/-- No unit is served: every command faults. -/
theorem exec_noUnit {i : Instr} {s : State} (hu : s.unit? = none) : exec i s = .fault .noUnit := by
  have h : s.engine? = none := by simp [State.engine?, hu]
  cases i <;> simp [exec, execDinit, execDupd, execDfin, execHkey, execHupd, execHfin, execHreinit, execPbkdf2,
    State.onDigest, State.onHmac, State.onPbkdf2, h]

/-- The kind of a context is kept by every command. -/
theorem body_kind {i : Instr} {e e' : Engine} {out : Option Bytes} (h : body i e = .ok (e', out)) : e'.kind = e.kind := by
  cases i <;> cases e <;> simp only [body] at h <;> first
    | cases h; done
    | (cases h; rfl)
    | (rename_i x; revert h; cases hx : x.update _ <;> intro h <;> cases h <;> rfl)
    | (rename_i x; revert h; cases hx : x.finish <;> intro h <;> cases h <;> rfl)
    | (rename_i x; revert h; cases hx : x.key _ _ <;> intro h <;> cases h <;> rfl)
    | (rename_i x; revert h; cases hx : x.finish _ <;> intro h <;> cases h <;> rfl)
    | (rename_i x; revert h; cases hx : x.reinit <;> intro h <;> cases h <;> rfl)
    | (revert h; split
       · intro h; cases h
       · intro h; cases hd : pbkdf2Derive _ _ _ _ _ <;> rw [hd] at h <;> cases h <;> rfl)

/-- The invariant of a context is kept by every command. -/
theorem body_inv {i : Instr} {e e' : Engine} {out : Option Bytes} (hi : e.Inv) (h : body i e = .ok (e', out)) : e'.Inv := by
  cases i <;> cases e <;> simp only [body] at h <;> first
    | cases h; done
    | (cases h; exact start_dctx_inv _ _)
    | (rename_i x; revert h; cases hx : DCtx.update x _ <;> intro h <;> cases h <;> exact update_inv hi hx)
    | (rename_i x; revert h; cases hx : DCtx.finish x <;> intro h <;> cases h <;> exact finish_inv hx)
    | (rename_i x; revert h; cases hx : HCtx.key x _ _ <;> intro h <;> cases h <;> exact key_inv hx)
    | (rename_i x; revert h; cases hx : HCtx.update x _ <;> intro h <;> cases h <;> exact hupdate_inv hi hx)
    | (rename_i x; revert h; cases hx : HCtx.finish x _ <;> intro h <;> cases h <;> exact hfinish_inv hi hx)
    | (rename_i x; revert h; cases hx : HCtx.reinit x <;> intro h <;> cases h <;> exact reinit_inv hi hx)
    | (revert h; split
       · intro h; cases h
       · intro h; cases hd : pbkdf2Derive _ _ _ _ _ <;> rw [hd] at h <;> cases h <;> trivial)

/-- Why a body stops: MISUSE in the digest unit and the HMAC engine, PRECONDITION in `HFIN` and PBKDF2, ILLEGAL_COMMAND on a
unit of another kind, the refusal past the bound (R242, R244, R256). -/
theorem body_error {i : Instr} {e : Engine} {x : Stop} (h : body i e = .error x) :
    (x = .raise (.illegalCommand .opcode) ∧ i.unit ≠ e.kind) ∨
    (∃ why, x = .raise (.misuse why) ∧ i.unit = e.kind ∧
      ((∃ m, i = .dupd m) ∨ i = .dfin ∨ (∃ m, i = .hupd m) ∨ (∃ n, i = .hfin n) ∨ i = .hreinit)) ∨
    (∃ why, x = .raise (.precondition why) ∧ i.unit = e.kind ∧
      (((∃ n, i = .hfin n) ∧ (why = .noMac ∨ why = .macTooLong)) ∨
       ((∃ a p salt c dk, i = .pbkdf2 a p salt c dk) ∧ (why = .noIterations ∨ why = .noOutput ∨ why = .outputTooLong)))) ∨
    (x = .refuse .messageTooLong ∧ i.unit = e.kind) := by
  have hup : ∀ (c : DCtx) (m : Bytes), c.update m = .error x →
      (∃ why, x = .raise (.misuse why)) ∨ x = .refuse .messageTooLong := fun c m hc => by
    rcases (update_error_iff ..).1 hc with ⟨-, rfl⟩ | ⟨-, rfl⟩ | ⟨-, -, rfl⟩ <;> simp
  have hfin : ∀ c : DCtx, c.finish = .error x → ∃ why, x = .raise (.misuse why) := fun c hc => by
    rcases (finish_error_iff ..).1 hc with ⟨-, rfl⟩ | ⟨-, rfl⟩ <;> simp
  have hmap : ∀ {α β : Type} {f : α → β} {y : Except Stop α}, y.map f = .error x → y = .error x := by
    intro α β f y hy; cases y <;> simp_all [Except.map]
  cases i <;> cases e <;> simp only [body, reduceCtorEq] at h <;> first
    | (cases h; exact .inl ⟨rfl, by simp [Instr.unit, Engine.kind]⟩)
    | skip
  · rcases hup _ _ (hmap h) with ⟨why, rfl⟩ | rfl
    · exact .inr (.inl ⟨why, rfl, rfl, by simp⟩)
    · exact .inr (.inr (.inr ⟨rfl, rfl⟩))
  · obtain ⟨why, rfl⟩ := hfin _ (hmap h)
    exact .inr (.inl ⟨why, rfl, rfl, by simp⟩)
  · have hk := hmap h
    rw [key_eq] at hk
    split at hk
    · cases hk; exact .inr (.inr (.inr ⟨rfl, rfl⟩))
    · cases hk
  · rcases hupdate_error (hmap h) with ⟨-, rfl⟩ | ⟨-, rfl⟩ | ⟨-, hi⟩
    · exact .inr (.inl ⟨_, rfl, rfl, by simp⟩)
    · exact .inr (.inl ⟨_, rfl, rfl, by simp⟩)
    · rcases hup _ _ hi with ⟨why, rfl⟩ | rfl
      · exact .inr (.inl ⟨why, rfl, rfl, by simp⟩)
      · exact .inr (.inr (.inr ⟨rfl, rfl⟩))
  · rcases hfinish_error (hmap h) with ⟨-, rfl⟩ | ⟨-, rfl⟩ | ⟨-, -, rfl⟩ | ⟨-, -, rfl⟩ | ⟨-, hm⟩
    · exact .inr (.inl ⟨_, rfl, rfl, by simp⟩)
    · exact .inr (.inl ⟨_, rfl, rfl, by simp⟩)
    · exact .inr (.inr (.inl ⟨_, rfl, rfl, by simp⟩))
    · exact .inr (.inr (.inl ⟨_, rfl, rfl, by simp⟩))
    · rcases mac_error hm with hm | ⟨d, hm⟩
      · obtain ⟨why, rfl⟩ := hfin _ hm
        exact .inr (.inl ⟨why, rfl, rfl, by simp⟩)
      · rcases hup _ _ hm with ⟨why, rfl⟩ | rfl
        · exact .inr (.inl ⟨why, rfl, rfl, by simp⟩)
        · exact .inr (.inr (.inr ⟨rfl, rfl⟩))
  · obtain ⟨-, rfl⟩ := (reinit_error_iff ..).1 (hmap h)
    exact .inr (.inl ⟨_, rfl, rfl, by simp⟩)
  · revert h
    split
    · rename_i hc
      intro h
      cases h
      rcases checks_error hc with rfl | rfl | rfl | rfl
      · exact .inr (.inr (.inl ⟨_, rfl, rfl, by simp⟩))
      · exact .inr (.inr (.inl ⟨_, rfl, rfl, by simp⟩))
      · exact .inr (.inr (.inl ⟨_, rfl, rfl, by simp⟩))
      · exact .inr (.inr (.inr ⟨rfl, rfl⟩))
    · rename_i hc
      intro h
      exact absurd (hmap h) (derive_not_error hc _)

/-- Everything a command can do on the unit served. At most one draw is taken (PBKDF2 only); then the unit answers OK with what
the body gives, or a status with its context unchanged and no output; or the command is refused past the bound. -/
theorem exec_cases (i : Instr) {s : State} {u : HwUnit} (hu : s.unit? = some u) :
    (∃ e out s' t, body i u.engine = .ok (e, out) ∧ exec i s = .next t ∧ s'.Answers t e ⟨.ok, out⟩ ∧
      (s' = s ∨ (s' = s.takeDraw ∧ i.unit = .pbkdf2 ∧ u.engine = .pbkdf2 ∧ s.drawFails = false))) ∨
    (∃ st t, body i u.engine = .error (.raise st) ∧ exec i s = .next t ∧ s.Answers t u.engine ⟨st, none⟩) ∨
    (∃ t, i.unit = .pbkdf2 ∧ u.engine = .pbkdf2 ∧ s.drawFails = true ∧ exec i s = .next t ∧
      s.takeDraw.Answers t u.engine ⟨.allocFail, none⟩) ∨
    (body i u.engine = .error (.refuse .messageTooLong) ∧ exec i s = .refused .messageTooLong) := by
  by_cases hi : i.unit = .pbkdf2
  · cases i <;> first
      | (simp [Instr.unit] at hi; done)
      | skip
    rename_i a p salt c dk
    by_cases he : u.engine = .pbkdf2
    · have hs : s.engine? = some .pbkdf2 := by simp [State.engine?, hu, he]
      obtain ⟨v, hd, hv, -⟩ := takeDraw_served hu
      rw [exec_pbkdf2 hs]
      simp only [he, body]
      cases hc : pbkdf2Checks a p salt c.toNat dk.toNat with
      | error x =>
        cases x with
        | raise st => exact .inr (.inl ⟨st, _, rfl, rfl, by rw [← he]; exact respond_answers s _ u hu⟩)
        | refuse r =>
          rcases checks_error hc with h | h | h | h <;> cases h
          exact .inr (.inr (.inr ⟨rfl, rfl⟩))
      | ok _ =>
        simp only []
        cases hf : s.drawFails
        · cases hx : pbkdf2Derive a p salt c.toNat dk.toNat with
          | error x => exact absurd hx (derive_not_error hc x)
          | ok out =>
            exact .inl ⟨.pbkdf2, some out, s.takeDraw, _, rfl, rfl, complete_answers _ _ _ v hd,
              .inr ⟨rfl, rfl, trivial, rfl⟩⟩
        · exact .inr (.inr (.inl ⟨_, rfl, trivial, rfl, rfl, by rw [← he, ← hv]; exact respond_answers _ _ v hd⟩))
    · rw [exec_pbkdf2_wrong hu he]
      refine .inr (.inl ⟨_, _, ?_, rfl, respond_answers s _ u hu⟩)
      cases hue : u.engine
      · rfl
      · rfl
      · exact absurd hue he
  · rw [exec_eq_body hu hi]
    rcases conclude_cases s u hu (body i u.engine) with ⟨e, out, hb, hc, ha⟩ | ⟨st, hb, hc, ha⟩ | ⟨why, hb, hc⟩
    · exact .inl ⟨e, out, s, _, hb, hc, ha, .inl rfl⟩
    · exact .inr (.inl ⟨st, _, hb, hc, ha⟩)
    · rcases body_error hb with ⟨h, -⟩ | ⟨w, h, -⟩ | ⟨w, h, -⟩ | ⟨h, -⟩ <;> cases h
      exact .inr (.inr (.inr ⟨hb, hc⟩))

/-- `exec_cases` for a command that answers a next state: after at most one draw the unit served answers, and the new context is
the body's or the old one. -/
theorem exec_next {i : Instr} {s t : State} (h : exec i s = .next t) :
    ∃ u s' e r, s.unit? = some u ∧ s'.Answers t e r ∧ (s' = s ∨ (s' = s.takeDraw ∧ i.unit = .pbkdf2 ∧ u.engine = .pbkdf2)) ∧
      ((r.status = .ok ∧ body i u.engine = .ok (e, r.output)) ∨ (r.status ≠ .ok ∧ r.output = none ∧ e = u.engine)) := by
  cases hu : s.unit? with
  | none => rw [exec_noUnit hu] at h; cases h
  | some u =>
    rcases exec_cases i hu with ⟨e, out, s', t', hb, hx, ha, hs⟩ | ⟨st, t', hb, hx, ha⟩ | ⟨t', hi, he, hd, hx, ha⟩ | ⟨hb, hx⟩
    · rw [h] at hx; cases hx
      exact ⟨u, s', e, _, rfl, ha, hs.imp id fun ⟨h1, h2, h3, _⟩ => ⟨h1, h2, h3⟩, .inl ⟨rfl, hb⟩⟩
    · rw [h] at hx; cases hx
      refine ⟨u, s, _, _, rfl, ha, .inl rfl, .inr ⟨?_, rfl, rfl⟩⟩
      rcases body_error hb with ⟨h, -⟩ | ⟨w, h, -⟩ | ⟨w, h, -⟩ | ⟨h, -⟩ <;> cases h <;> exact fun hd => nomatch hd
    · rw [h] at hx; cases hx
      exact ⟨u, s.takeDraw, _, _, rfl, ha, .inr ⟨rfl, hi, he⟩, .inr ⟨fun hd => (nomatch hd), rfl, rfl⟩⟩
    · rw [h] at hx; cases hx

/-- A command's effect on the unit served depends on that unit, its number and the parameter alone. -/
theorem exec_local {i : Instr} {s s' t : State} {u : HwUnit} (hu : s.unit? = some u) (hu' : s'.unit? = some u) (hc : s.cur = s'.cur)
    (hf : s.scratchFromAllocator = s'.scratchFromAllocator) (h : exec i s = .next t) :
    ∃ v, t = { s with units := s.units.set s.cur v } ∧ exec i s' = .next { s' with units := s'.units.set s'.cur v } := by
  have hlt : s.cur < s.units.length := (List.getElem?_eq_some_iff.1 hu).1
  have hlt' : s'.cur < s'.units.length := (List.getElem?_eq_some_iff.1 hu').1
  have hd : s'.drawFails = s.drawFails := by simp [State.drawFails, State.allocNext?, hu, hu', hf]
  by_cases hi : i.unit = .pbkdf2
  · cases i <;> first | (simp [Instr.unit] at hi; done) | skip
    rename_i a p salt c dk
    by_cases hp : u.engine = .pbkdf2
    · rw [exec_pbkdf2 (by simp [State.engine?, hu, hp])] at h
      rw [exec_pbkdf2 (by simp [State.engine?, hu', hp])]
      cases hk : pbkdf2Checks a p salt c.toNat dk.toNat with
      | error x =>
        rw [hk] at h
        cases x with
        | raise st => cases h; exact ⟨_, respond_eq_set hu _, congrArg Host.Outcome.next (respond_eq_set hu' _)⟩
        | refuse w => cases h
      | ok x =>
        rw [hk] at h
        simp only at h ⊢
        rw [hd]
        have key : ∀ w w' : HwUnit, (s.takeDraw.unit? = some w) → s'.takeDraw.unit? = some w' → w = w' := by
          intro w w' hw hw'
          rw [takeDraw_eq_set hu] at hw; rw [takeDraw_eq_set hu'] at hw'
          simp only [State.unit?, List.getElem?_set_self, hlt, hlt', Option.some.injEq] at hw hw'
          rw [← hw, ← hw', hf, hc]
        obtain ⟨w, hw, -⟩ := takeDraw_served hu
        obtain ⟨w', hw', -⟩ := takeDraw_served hu'
        obtain rfl := key w w' hw hw'
        cases hf : s.drawFails <;> rw [hf] at h
        · cases hx : pbkdf2Derive a p salt c.toNat dk.toNat with
          | error x => exact absurd hx (derive_not_error hk x)
          | ok out =>
            rw [hx] at h; cases h
            refine ⟨{ w with engine := .pbkdf2, rsp := w.rsp ++ [⟨.ok, some out⟩] }, (complete_eq_set hw _ _).trans ?_, congrArg Host.Outcome.next ((complete_eq_set hw' _ _).trans ?_)⟩
            · rw [takeDraw_eq_set hu]; simp
            · rw [takeDraw_eq_set hu']; simp
        · cases h
          refine ⟨w.respond ⟨.allocFail, none⟩, (respond_eq_set hw _).trans ?_, congrArg Host.Outcome.next ((respond_eq_set hw' _).trans ?_)⟩
          · rw [takeDraw_eq_set hu]; simp
          · rw [takeDraw_eq_set hu']; simp
    · rw [exec_pbkdf2_wrong hu hp] at h; cases h
      exact ⟨_, respond_eq_set hu _, (exec_pbkdf2_wrong hu' hp).trans (congrArg Host.Outcome.next (respond_eq_set hu' _))⟩
  · rw [exec_eq_body hu hi] at h
    rw [exec_eq_body hu' hi]
    rcases hb : body i u.engine with (st | w) | ⟨e, o⟩ <;> rw [hb] at h <;> cases h
    · exact ⟨_, respond_eq_set hu _, congrArg Host.Outcome.next (respond_eq_set hu' _)⟩
    · exact ⟨_, complete_eq_set hu _ _, congrArg Host.Outcome.next (complete_eq_set hu' _ _)⟩

end Sys2Proof.Machine
end

