-- ==== Sys2Proof/Laws/Step.lean ====
section
/-! SUPPORT. What one step can do, and the pieces of the invariant's preservation (spec/00_scope.md R6, spec/20_memory.md R59,
spec/60_exceptions.md R257, spec/70_reset_and_hazards.md R270). -/

namespace Sys2Proof.Machine

variable {s t : State}

/-! ## The operations around a command keep the invariant -/

theorem unit?_of_inv (h : s.Inv) : ∃ u, s.unit? = some u ∧ u ∈ s.units :=
  ⟨s.units[s.cur]'h.cur_lt, by simp [State.unit?, h.cur_lt], List.getElem_mem _⟩

theorem unit?_mem {u : HwUnit} (h : s.unit? = some u) : u ∈ s.units := List.mem_of_getElem? h

theorem units_pos (h : s.Inv) : 0 < s.units.length := Nat.lt_of_le_of_lt (Nat.zero_le _) h.cur_lt

/-- A change of the served unit that keeps its kind and leaves a context with its invariant keeps the machine's. -/
theorem set_inv (h : s.Inv) {u v : HwUnit} (hu : s.unit? = some u) (hk : v.kind = u.kind) (hv : v.engine.Inv) :
    ({ s with units := s.units.set s.cur v } : State).Inv where
  cur_lt := by simpa using h.cur_lt
  all_kinds := fun k => by
    obtain ⟨w, hw, rfl⟩ := h.all_kinds k
    obtain ⟨j, hj, rfl⟩ := List.getElem_of_mem hw
    by_cases hc : s.cur = j
    · have hjv : s.units[j] = u := by
        have h2 := (List.getElem?_eq_some_iff.1 hu).2
        subst hc
        exact h2
      exact ⟨v, List.mem_set (by simpa using h.cur_lt) v, by rw [hk, ← hjv]⟩
    · refine ⟨s.units[j], ?_, rfl⟩
      rw [List.mem_iff_getElem]
      exact ⟨j, by simpa using hj, by simp [hc]⟩
  engines := fun w hw => by
    rcases List.mem_or_eq_of_mem_set hw with hw | rfl
    · exact h.engines w hw
    · exact hv

theorem answers_inv (h : s.Inv) {e : Engine} {r : Response} (ha : s.Answers t e r) (hi : e.Inv)
    (hk : ∀ u, s.unit? = some u → e.kind = u.kind) : t.Inv := by
  obtain ⟨u, hu, rfl⟩ := ha
  exact set_inv h hu (hk u hu) hi

theorem consume_eq_set {u : HwUnit} (hu : s.unit? = some u) (rest : Bytes) :
    s.consume rest = { s with units := s.units.set s.cur { u with cmd := rest } } := modifyUnit_eq s _ u hu

theorem consume_unit? {u : HwUnit} (hu : s.unit? = some u) (rest : Bytes) :
    (s.consume rest).unit? = some { u with cmd := rest } := by
  rw [State.consume, unit?_modifyUnit, hu]; rfl

theorem consume_inv (h : s.Inv) (rest : Bytes) : (s.consume rest).Inv := by
  obtain ⟨u, hu, hm⟩ := unit?_of_inv h
  rw [consume_eq_set hu]
  exact set_inv h hu rfl (h.engines u hm)

theorem takeDraw_inv (h : s.Inv) : s.takeDraw.Inv := by
  obtain ⟨u, hu, hm⟩ := unit?_of_inv h
  unfold State.takeDraw
  split
  · rw [modifyUnit_eq _ _ _ hu]
    exact set_inv h hu rfl (h.engines u hm)
  · exact h

theorem passTurn_inv (h : s.Inv) : s.passTurn.Inv where
  cur_lt := passTurn_cur_lt s (units_pos h)
  all_kinds := by simpa using h.all_kinds
  engines := by simpa using h.engines

theorem initial_inv (k : UnitKind) : (Engine.initial k).Inv := by
  cases k
  · exact trivial
  · exact fun h => absurd rfl h
  · exact trivial

theorem platformReset_inv (h : s.Inv) : s.platformReset.Inv where
  cur_lt := by simpa using h.cur_lt
  all_kinds := fun k => by
    obtain ⟨u, hu, rfl⟩ := h.all_kinds k
    exact ⟨u.reset, List.mem_map.2 ⟨u, hu, rfl⟩, unit_reset_kind u⟩
  engines := fun u hu => by
    obtain ⟨v, -, rfl⟩ := List.mem_map.1 hu
    exact initial_inv _

/-- A command that answers keeps the invariant. -/
theorem exec_inv {i : Instr} (h : s.Inv) (hx : exec i s = .next t) : t.Inv := by
  obtain ⟨u, s', e, r, hu, ha, hs, hr⟩ := exec_next hx
  have hi' : s'.Inv := by
    rcases hs with rfl | ⟨rfl, -, -⟩
    · exact h
    · exact takeDraw_inv h
  obtain ⟨u', hu', he'⟩ : ∃ v, s'.unit? = some v ∧ v.engine = u.engine := by
    rcases hs with rfl | ⟨rfl, -, -⟩
    · exact ⟨u, hu, rfl⟩
    · obtain ⟨v, hv, he, -⟩ := takeDraw_served hu
      exact ⟨v, hv, he⟩
  have he := h.engines u (unit?_mem hu)
  rcases hr with ⟨-, hb⟩ | ⟨-, -, rfl⟩
  · exact answers_inv hi' ha (body_inv he hb) fun v hv => by
      rw [hu'] at hv; cases hv; rw [HwUnit.kind, he']; exact body_kind hb
  · exact answers_inv hi' ha he fun v hv => by rw [hu'] at hv; cases hv; rw [HwUnit.kind, he']

/-! ## Cases of a step -/

theorem afterTurn_next_iff {x : Outcome} : afterTurn x = .next t ↔ ∃ m, x = .next m ∧ t = m.passTurn := by
  cases x <;> simp [afterTurn, eq_comm]

theorem afterTurn_fault_iff {x : Outcome} {f : Fault} : afterTurn x = .fault f ↔ x = .fault f := by
  cases x <;> simp [afterTurn]

theorem afterTurn_refused_iff {x : Outcome} {r : Refusal} : afterTurn x = .refused r ↔ x = .refused r := by
  cases x <;> simp [afterTurn]

/-- Everything a step can do: the reset event, a fault where no unit is served, an idle turn, a command, an illegal word, the
refusal of part of a frame. -/
theorem step_cases (s : State) :
    (s.resetLine = true ∧ step s = .next s.platformReset) ∨
    (s.resetLine = false ∧ s.unit? = none ∧ step s = .fault .noUnit) ∨
    (∃ u, s.resetLine = false ∧ s.unit? = some u ∧ u.cmd = [] ∧ step s = .next s.passTurn) ∨
    (∃ u i rest, s.resetLine = false ∧ s.unit? = some u ∧ u.cmd ≠ [] ∧ decodeFrame u.kind u.cmd = .command i rest ∧
      step s = afterTurn (exec i (s.consume rest))) ∨
    (∃ u why rest, s.resetLine = false ∧ s.unit? = some u ∧ u.cmd ≠ [] ∧ decodeFrame u.kind u.cmd = .illegal why rest ∧
      step s = .next ((s.consume rest).respond ⟨.illegalCommand why, none⟩).passTurn) ∨
    (∃ u, s.resetLine = false ∧ s.unit? = some u ∧ u.cmd ≠ [] ∧ decodeFrame u.kind u.cmd = .truncated ∧
      step s = .refused .truncatedFrame) := by
  cases hr : s.resetLine
  · cases hu : s.unit? with
    | none => exact .inr (.inl ⟨rfl, rfl, by simp [step, hr, State.turn, hu]⟩)
    | some u =>
      by_cases hc : u.cmd = []
      · exact .inr (.inr (.inl ⟨u, rfl, rfl, hc, by simp [step, hr, State.turn, hu, HwUnit.idle, hc]⟩))
      · have hi : u.idle = false := by simpa [HwUnit.idle] using hc
        have hs : step s = s.serve (decodeFrame u.kind u.cmd) := by simp [step, hr, State.turn, hu, hi]
        cases hd : decodeFrame u.kind u.cmd with
        | command i rest => exact .inr (.inr (.inr (.inl ⟨u, i, rest, rfl, rfl, hc, hd, by rw [hs, hd]; rfl⟩)))
        | illegal why rest => exact .inr (.inr (.inr (.inr (.inl ⟨u, why, rest, rfl, rfl, hc, hd, by rw [hs, hd]; rfl⟩))))
        | truncated => exact .inr (.inr (.inr (.inr (.inr ⟨u, rfl, rfl, hc, hd, by rw [hs, hd]; rfl⟩))))
  · exact .inl ⟨rfl, by simp [step, hr]⟩

/-- A step on an illegal word: ILLEGAL_COMMAND is sent and the frame is gone from the stream; nothing else of the unit changes. -/
theorem step_illegal {u : HwUnit} {why : IllegalCause} {rest : Bytes} (hr : s.resetLine = false) (hu : s.unit? = some u)
    (hd : decodeFrame u.kind u.cmd = .illegal why rest) :
    step s = .next (State.passTurn { s with
      units := s.units.set s.cur { u with cmd := rest, rsp := u.rsp ++ [⟨.illegalCommand why, none⟩] } }) := by
  rcases step_cases s with h | h | ⟨v, h1, h2, h3, h4⟩ | ⟨v, i', rest', h1, h2, h3, h4, h5⟩ | ⟨v, why, rest', h1, h2, h3, h4, h5⟩ | ⟨v, h1, h2, h3, h4, h5⟩
  · simp [hr] at h
  · simp [hu] at h
  · rw [hu] at h2; cases h2; rw [h3] at hd; exact absurd hd (by simp [decodeFrame, takeScalar])
  · rw [hu] at h2; cases h2; rw [hd] at h4; cases h4
  · rw [hu] at h2; cases h2; rw [hd] at h4; cases h4
    rw [h5, State.respond, modifyUnit_eq _ _ _ (consume_unit? hu rest), consume_eq_set hu]
    simp [HwUnit.respond]
  · rw [hu] at h2; cases h2; rw [hd] at h4; cases h4

/-- `step_cases` where a unit is served, as one equation: an idle unit passes the turn, another is served its frame. -/
theorem step_eq_serve {u : HwUnit} (hr : s.resetLine = false) (hu : s.unit? = some u) :
    step s = if u.idle then .next s.passTurn else s.serve (decodeFrame u.kind u.cmd) := by
  simp [step, hr, State.turn, hu]

theorem step_served {s t : State} (r : s.resetLine = false) (h : step s = .next t) : ∃ u, s.unit? = some u := by
  cases hu : s.unit? with
  | some u => exact ⟨u, rfl⟩
  | none => simp [step, r, State.turn, hu] at h

/-- A step's effect on the unit served depends on that unit, its number and the parameter alone, and is one write of that unit
(R60). -/
theorem step_local {s' : State} (r1 : s.resetLine = false) (r2 : s'.resetLine = false) (hu : s.units[s.cur]? = s'.units[s'.cur]?)
    (hc : s.cur = s'.cur) (hf : s.scratchFromAllocator = s'.scratchFromAllocator) (h : step s = .next t) :
    ∃ v, t = State.passTurn { s with units := s.units.set s.cur v } ∧
      step s' = .next (State.passTurn { s' with units := s'.units.set s'.cur v }) := by
  change s.unit? = s'.unit? at hu
  have self : ∀ {x : State} {u}, x.unit? = some u → x = { x with units := x.units.set x.cur u } := by
    intro x u hx
    obtain ⟨h1, h2⟩ := List.getElem?_eq_some_iff.1 hx
    rw [← h2, List.set_getElem_self]
  cases hv : s.unit? with
  | none => simp [step, r1, State.turn, hv] at h
  | some u =>
    have hv' : s'.unit? = some u := by rw [← hu, hv]
    rw [step_eq_serve r1 hv] at h
    rw [step_eq_serve r2 hv']
    cases hi : u.idle <;> rw [hi] at h
    · cases hd : decodeFrame u.kind u.cmd with
      | truncated => rw [hd] at h; cases h
      | illegal why rest =>
        rw [hd] at h; cases h
        refine ⟨({ u with cmd := rest } : HwUnit).respond ⟨.illegalCommand why, none⟩,
          congrArg _ ((respond_eq_set (consume_unit? hv rest) _).trans ?_),
          congrArg (fun x => Host.Outcome.next (State.passTurn x)) ((respond_eq_set (consume_unit? hv' rest) _).trans ?_)⟩
        · rw [consume_eq_set hv]; simp
        · rw [consume_eq_set hv']; simp
      | command i rest =>
        rw [hd] at h
        obtain ⟨m, hm, rfl⟩ := afterTurn_next_iff.1 h
        obtain ⟨v, rfl, hx⟩ := exec_local (consume_unit? hv rest) (consume_unit? hv' rest) (by simpa using hc) (by simpa using hf) hm
        refine ⟨v, ?_, afterTurn_next_iff.2 ⟨_, hx, ?_⟩⟩
        · rw [consume_eq_set hv]; simp
        · rw [consume_eq_set hv']; simp
    · cases h
      exact ⟨u, congrArg _ (self hv), congrArg (fun x => Host.Outcome.next (State.passTurn x)) (self hv')⟩

/-! ## The host's moves -/

/-- When the host has the move, and what it does. -/
theorem submit_eq_some {k : Nat} {frame : Bytes} : s.submit k frame = some t ↔
    ∃ u, s.units[k]? = some u ∧ u.cmd = [] ∧ wholeFrame u.kind frame = true ∧
      t = { s with units := s.units.set k { u with cmd := frame } } := by
  unfold State.submit
  cases hu : s.units[k]? with
  | none => simp
  | some u =>
    by_cases h : (u.idle && wholeFrame u.kind frame) = true
    · obtain ⟨h1, h2⟩ := Bool.and_eq_true_iff.1 h
      rw [unit_idle] at h1
      simp [h1, h2, @eq_comm _ t]
    · rw [Bool.and_eq_true_iff, unit_idle] at h
      simp only [Bool.and_eq_true, unit_idle, if_neg h]
      refine ⟨(fun h => nomatch h), fun ⟨v, hv, h1, h2, _⟩ => ?_⟩
      cases hv; exact absurd ⟨h1, h2⟩ h

/-- One unit is written, and its stream is empty or one whole frame. -/
theorem serial_set (h : s.Serial) {k : Nat} {v : HwUnit} (hv : v.cmd = [] ∨ wholeFrame v.kind v.cmd = true) :
    ({ s with units := s.units.set k v } : State).Serial := fun u hu => by
  rcases List.mem_or_eq_of_mem_set hu with hu | rfl
  · exact h u hu
  · exact hv

/-- The stream of a unit that keeps the host's duties, once its frame is taken, is empty. -/
theorem rest_of_wholeFrame {k : UnitKind} {bs rest : Bytes} (h : wholeFrame k bs = true) (hr : (decodeFrame k bs).rest? = some rest) :
    rest = [] := by
  rw [wholeFrame, hr] at h; simpa using h

end Sys2Proof.Machine
end

