-- ==== Sys2Proof/Laws/Answers.lean ====
section
/-! SUPPORT. How a command that completes, raises or is refused reads in the terms of Safety.lean (spec/60_exceptions.md R243). -/

namespace Sys2Proof.Machine

variable {i : Instr} {s t : State} {u : HwUnit} {e e' : Engine} {r : Response} {st : Status} {o : Option Bytes}

theorem answers_lastResponse (h : s.Answers t e r) : t.lastResponse = some r := by
  obtain ⟨u, -, h⟩ := answers_unit? h
  simp [State.lastResponse, h]

theorem answers_engine? (h : s.Answers t e r) : t.engine? = some e := by
  obtain ⟨u, -, h⟩ := answers_unit? h
  simp [State.engine?, h]

theorem unit_of_engine? (h : s.engine? = some e) : ∃ u, s.unit? = some u ∧ u.engine = e := (engine?_eq_some s e).1 h

theorem raises_of_exec (hu : s.unit? = some u) (he : exec i s = s.raise st) : s.Raises i st :=
  ⟨_, u.engine, by simp [State.engine?, hu], he, respond_answers s _ u hu⟩

/-- A command of the digest unit or the HMAC engine whose body raises a status. -/
theorem raises_of_body (h : s.engine? = some e) (hi : i.unit ≠ .pbkdf2) (hb : body i e = .error (.raise st)) : s.Raises i st := by
  obtain ⟨u, hu, rfl⟩ := unit_of_engine? h
  exact raises_of_exec hu (by rw [exec_eq_body hu hi, hb]; rfl)

/-- A command of the digest unit or the HMAC engine whose body completes. -/
theorem exec_of_body (h : s.engine? = some e) (hi : i.unit ≠ .pbkdf2) (hb : body i e = .ok (e', o)) :
    exec i s = .next (s.complete e' o) ∧ s.Answers (s.complete e' o) e' ⟨.ok, o⟩ := by
  obtain ⟨u, hu, rfl⟩ := unit_of_engine? h
  exact ⟨by rw [exec_eq_body hu hi, hb]; rfl, complete_answers s e' o u hu⟩

/-- A command of the digest unit or the HMAC engine whose body is refused. -/
theorem refused_of_body (h : s.engine? = some e) (hi : i.unit ≠ .pbkdf2) {why : Refusal} (hb : body i e = .error (.refuse why)) :
    exec i s = .refused why := by
  obtain ⟨u, hu, rfl⟩ := unit_of_engine? h
  rw [exec_eq_body hu hi, hb]; rfl

/-- A command on a unit of another kind (R71). -/
theorem body_wrongKind (h : i.unit ≠ e.kind) : body i e = .error (.raise (.illegalCommand .opcode)) := by
  cases i <;> cases e <;> first | rfl | exact absurd rfl h

/-- PBKDF2 writes no context (R35). -/
theorem body_pbkdf2_engine (hi : i.unit = .pbkdf2) (h : body i e = .ok (e', o)) : e' = e := by
  cases i <;> first | (simp [Instr.unit] at hi; done) | skip
  cases e <;> simp only [body] at h <;> first | (cases h; done) | skip
  split at h
  · cases h
  · cases hd : pbkdf2Derive _ _ _ _ _ <;> rw [hd] at h <;> cases h; rfl

/-- Where the last response of a command comes from. -/
theorem exec_lastResponse (h : exec i s = .next t) (hr : t.lastResponse = some r) :
    ∃ u, s.unit? = some u ∧
      ((r.status = .ok ∧ ∃ e, body i u.engine = .ok (e, r.output)) ∨
       (∃ st, r = ⟨st, none⟩ ∧ body i u.engine = .error (.raise st)) ∨
       (r = ⟨.allocFail, none⟩ ∧ i.unit = .pbkdf2 ∧ u.engine = .pbkdf2 ∧ s.drawFails = true)) := by
  cases hu : s.unit? with
  | none => rw [exec_noUnit hu] at h; cases h
  | some u =>
    rcases exec_cases i hu with ⟨e, out, s', t', hb, hx, ha, -⟩ | ⟨st, t', hb, hx, ha⟩ | ⟨t', hi, he, hd, hx, ha⟩ | ⟨-, hx⟩
    · rw [h] at hx; cases hx
      rw [answers_lastResponse ha] at hr; cases hr
      exact ⟨u, rfl, .inl ⟨rfl, _, hb⟩⟩
    · rw [h] at hx; cases hx
      rw [answers_lastResponse ha] at hr; cases hr
      exact ⟨u, rfl, .inr (.inl ⟨_, rfl, hb⟩)⟩
    · rw [h] at hx; cases hx
      rw [answers_lastResponse ha] at hr; cases hr
      exact ⟨u, rfl, .inr (.inr ⟨rfl, hi, he, hd⟩)⟩
    · rw [h] at hx; cases hx

section
variable {a : Alg} {p salt : Bytes} {c : BitVec 32} {dk : BitVec 64}

/-- PBKDF2 whose checks stop it: no draw is taken (R221, R246). -/
theorem exec_pbkdf2_of_check (h : s.engine? = some .pbkdf2) {x : Stop} (hc : pbkdf2Checks a p salt c.toNat dk.toNat = .error x) :
    exec (.pbkdf2 a p salt c dk) s = s.conclude (.error x) := by
  rw [exec_pbkdf2 h, hc]

/-- PBKDF2 whose checks pass (R220, R222). -/
theorem exec_pbkdf2_of_ok (h : s.engine? = some .pbkdf2) (hc : pbkdf2Checks a p salt c.toNat dk.toNat = .ok ()) :
    ∃ t, exec (.pbkdf2 a p salt c dk) s = .next t ∧
      ((s.drawFails = true ∧ s.takeDraw.Answers t .pbkdf2 ⟨.allocFail, none⟩) ∨
       (s.drawFails = false ∧ ∃ out, pbkdf2Derive a p salt c.toNat dk.toNat = .ok out ∧
         s.takeDraw.Answers t .pbkdf2 ⟨.ok, some out⟩)) := by
  obtain ⟨u, hu, he⟩ := unit_of_engine? h
  obtain ⟨v, hd, hv, -⟩ := takeDraw_served hu
  rw [exec_pbkdf2 h, hc]
  simp only
  cases hf : s.drawFails
  · cases hx : pbkdf2Derive a p salt c.toNat dk.toNat with
    | error x => exact absurd hx (derive_not_error hc x)
    | ok out => exact ⟨_, rfl, .inr ⟨rfl, out, rfl, complete_answers _ _ _ v hd⟩⟩
  · exact ⟨_, rfl, .inl ⟨rfl, by rw [← he, ← hv]; exact respond_answers _ _ v hd⟩⟩

theorem keyTooLong_eq_true : keyTooLong a p = true ↔ a.blockBytes < p.length ∧ 2 ^ 64 ≤ 8 * p.length := by
  rw [keyTooLong, Bool.and_eq_true, decide_eq_true_iff, decide_eq_true_iff, Config.maxMsgBits]

theorem keyTooLong_eq_false : keyTooLong a p = false ↔ p.length ≤ a.blockBytes ∨ 8 * p.length < 2 ^ 64 := by
  rw [← Bool.not_eq_true, keyTooLong_eq_true]; omega

end

end Sys2Proof.Machine
end

