-- ==== Sys2Proof/Laws/Closed.lean ====
section
/-! SUPPORT. The commands on a context in a known phase, programs of commands, and the closed forms they answer
(spec/40_digest.md R108, spec/45_hmac.md R207, spec/46_pbkdf2.md R223, R224). -/

namespace Sys2Proof.Machine

/-! ## Programs -/

theorem runCommands_cons {i : Instr} {is : List Instr} {s t : State} (h : exec i s = .next t) :
    runCommands (i :: is) s = runCommands is t := by simp [runCommands, h]
theorem runCommands_append (l1 l2 : List Instr) {s t : State} (h : runCommands l1 s = .next t) :
    runCommands (l1 ++ l2) s = runCommands l2 t := by
  induction l1 generalizing s with
  | nil => simp [runCommands] at h; subst h; rfl
  | cons i l ih =>
    rw [List.cons_append]
    cases he : exec i s with
    | next u => rw [runCommands_cons he]; rw [runCommands_cons he] at h; exact ih h
    | fault f => simp [runCommands, he] at h
    | refused f => simp [runCommands, he] at h

/-! ## One command that completes -/

theorem dinit_step {s : State} {c : DCtx} (h : s.engine? = some (.digest c)) (a : Alg) :
    ∃ t, exec (.dinit a) s = .next t ∧ s.Answers t (.digest (c.start a)) ⟨.ok, none⟩ :=
  ⟨_, exec_of_body (i := .dinit a) h (by simp [Instr.unit]) rfl⟩

theorem dupd_step {s : State} {c : DCtx} {m : Bytes} (h : s.engine? = some (.digest c)) (hp : c.phase = .active)
    (hb : c.totBits.toNat + 8 * m.length < 2 ^ 64) :
    ∃ t, exec (.dupd m) s = .next t ∧ s.Answers t (.digest (c.feed m)) ⟨.ok, none⟩ :=
  ⟨_, exec_of_body (i := .dupd m) h (by simp [Instr.unit]) (by rw [body, update_ok c m hp hb]; rfl)⟩

theorem dfin_step {s : State} {c : DCtx} (h : s.engine? = some (.digest c)) (hp : c.phase = .active) :
    ∃ t, exec .dfin s = .next t ∧ s.Answers t (.digest c.close.2) ⟨.ok, some c.close.1⟩ :=
  ⟨_, exec_of_body (i := .dfin) h (by simp [Instr.unit]) (by rw [body, finish_ok c hp]; rfl)⟩

theorem hkey_step {s : State} {c : HCtx} {a : Alg} {k : Bytes} (h : s.engine? = some (.hmac c))
    (hk : k.length ≤ a.blockBytes ∨ 8 * k.length < 2 ^ 64) :
    ∃ t, exec (.hkey a k) s = .next t ∧ s.Answers t (.hmac (c.keyed a k)) ⟨.ok, none⟩ :=
  ⟨_, exec_of_body (i := .hkey a k) h (by simp [Instr.unit]) (by rw [body, key_eq, keyTooLong_eq_false.2 hk]; rfl)⟩

theorem hupd_step {s : State} {c : HCtx} {m : Bytes} (h : s.engine? = some (.hmac c)) (hp : c.phase = .keyed)
    (ha : c.inner.phase = .active) (hb : c.inner.totBits.toNat + 8 * m.length < 2 ^ 64) :
    ∃ t, exec (.hupd m) s = .next t ∧ s.Answers t (.hmac { c with inner := c.inner.feed m }) ⟨.ok, none⟩ :=
  ⟨_, exec_of_body (i := .hupd m) h (by simp [Instr.unit])
    (by rw [body, (hupdate_ok_iff c _ m).2 ⟨hp, _, update_ok _ m ha hb, rfl⟩]; rfl)⟩

theorem hfin_step {s : State} {c : HCtx} {n : BitVec 32} (h : s.engine? = some (.hmac c)) (hi : c.KeyInv)
    (hp : c.phase = .keyed) (hn : n ≠ 0) (hd : n.toNat ≤ c.alg.digestBytes) :
    ∃ t, exec (.hfin n) s = .next t ∧ s.Answers t (.hmac { c with inner := c.inner.close.2, phase := .finalized })
      ⟨.ok, some ((c.obase.feed c.inner.close.1).close.1.take n.toNat)⟩ := by
  have hn0 : n.toNat ≠ 0 := fun hc => hn (BitVec.eq_of_toNat_eq hc)
  exact ⟨_, exec_of_body (i := .hfin n) h (by simp [Instr.unit])
    (by rw [body, (hfinish_ok_iff c _ _).2 ⟨hp, hn0, hd, _, keyInv_mac hi hp, rfl⟩]; rfl)⟩

theorem hreinit_step {s : State} {c : HCtx} (h : s.engine? = some (.hmac c)) (hp : c.phase ≠ .empty) :
    ∃ t, exec .hreinit s = .next t ∧
      s.Answers t (.hmac { c with inner := c.ibase, outer := c.obase, phase := .keyed }) ⟨.ok, none⟩ :=
  ⟨_, exec_of_body (i := .hreinit) h (by simp [Instr.unit]) (by rw [body, (reinit_ok_iff c _).2 ⟨hp, rfl⟩]; rfl)⟩

/-! ## The digest of a whole message (R108) -/

/-- Closing a context that was started and fed a message answers the closed form, whatever it held before. -/
theorem close_start_feed (c0 : DCtx) (a : Alg) (m : Bytes) (hb : 8 * m.length < 2 ^ 64) :
    ((c0.start a).feed m).close.1 = digestClosed a m := by
  have hB : (c0.start a).bufLen.toNat < (c0.start a).alg.blockBytes := by simpa using blockBytes_pos a
  obtain ⟨a1, a2, a3⟩ := absorb_closed (c0.start a) m hB
  have ht := feed_totBits_toNat (c0.start a) m (by simpa [Config.maxMsgBits] using hb)
  simp at ht a2
  have hpd : ((c0.start a).feed m).absorbPad =
      ((c0.start a).feed m).absorb (pad a (m.length % a.blockBytes) (8 * m.length)) := by
    rw [DCtx.absorbPad, feed_totBits, feed_bufLen, a2]
    have ht2 : ((c0.start a).totBits + BitVec.ofNat 128 (8 * m.length)).toNat = 8 * m.length := by simpa using ht
    rw [ht2]; simp
  have h2 : (((c0.start a).feed m).absorb (pad a (m.length % a.blockBytes) (8 * m.length))).h =
      ((c0.start a).absorb (m ++ pad a (m.length % a.blockBytes) (8 * m.length))).h := by
    rw [absorb_append, DCtx.feed, absorb_setTotBits]
  obtain ⟨b1, -, -⟩ := absorb_closed (c0.start a) (m ++ pad a (m.length % a.blockBytes) (8 * m.length)) hB
  rw [DCtx.close, hpd, h2, b1]
  simp [digestClosed, firstBytes]

@[simp] theorem digestClosed_length (a : Alg) (m : Bytes) : (digestClosed a m).length = a.digestBytes := serialize_length _ _

/-! ## The two digests of a MAC (R207) -/

theorem keyed_inner {c : HCtx} {a : Alg} {k : Bytes} :
    (c.keyed a k).inner.totBits.toNat = 8 * a.blockBytes ∧ (c.keyed a k).inner.phase = .active := by
  refine ⟨?_, by simp [HCtx.keyed]⟩
  show (((c.inner.start a).feed _).totBits).toNat = _
  rw [feed_totBits_toNat _ _ (by simpa using block_lt_bound a)]; simp

theorem outer_close {c : HCtx} {a : Alg} {k : Bytes} (x : Bytes) (hx : 8 * (a.blockBytes + x.length) < 2 ^ 64) :
   ((c.keyed a k).obase.feed x).close.1 = digestClosed a (maskBytes 0x5c (keyNorm a k) ++ x) := by
  show (((c.outer.start a).feed _).feed x).close.1 = _
  rw [← feed_append, close_start_feed]
  simp; omega
theorem inner_close {c : HCtx} {a : Alg} {k : Bytes} (x : Bytes) (hx : 8 * (a.blockBytes + x.length) < 2 ^ 64) :
   ((c.keyed a k).inner.feed x).close.1 = digestClosed a (maskBytes 0x36 (keyNorm a k) ++ x) := by
  show (((c.inner.start a).feed _).feed x).close.1 = _
  rw [← feed_append, close_start_feed]
  simp; omega
theorem mac_fits (a : Alg) : 8 * (a.blockBytes + a.digestBytes) < 2 ^ 64 := by cases a <;> decide

/-! ## The derivation (R223, R224) -/

/-- A PRF call is the closed form of HMAC. -/
theorem macFrom_eq (a : Alg) (p x : Bytes) (hx : 8 * (a.blockBytes + x.length) < 2 ^ 64) :
   macFrom (HCtx.initial.keyed a p).ibase (HCtx.initial.keyed a p).obase x = pbkdf2Prf a p x := by
  have h1 : (HCtx.initial.keyed a p).ibase = (HCtx.initial.keyed a p).inner := rfl
  have hl : (hmacClosed a p x a.digestBytes) =
      digestClosed a (maskBytes 0x5c (keyNorm a p) ++ digestClosed a (maskBytes 0x36 (keyNorm a p) ++ x)) := by
    rw [hmacClosed, List.take_of_length_le]; rw [digestClosed_length]
  rw [macFrom, h1, inner_close _ hx, outer_close _ (by rw [digestClosed_length]; exact mac_fits _), pbkdf2Prf, hl]

@[simp] theorem pbkdf2Prf_length (a : Alg) (p x : Bytes) : (pbkdf2Prf a p x).length = a.digestBytes := by
  rw [pbkdf2Prf, hmacClosed, List.length_take, digestClosed_length, Nat.min_self]

/-- The chain of one block is the closed form's. -/
theorem chainFrom_eq (a : Alg) (p s : Bytes) (i : Nat) (hb : 8 * (a.blockBytes + s.length + 4) < 2 ^ 64) (j : Nat) :
   chainFrom (HCtx.initial.keyed a p).ibase (HCtx.initial.keyed a p).obase (macFrom (HCtx.initial.keyed a p).ibase (HCtx.initial.keyed a p).obase (s ++ beBytes 4 i)) j = pbkdf2U a p s i j := by
  induction j with
  | zero => exact macFrom_eq a p _ (by simp; omega)
  | succ j ih =>
    rw [chainFrom, ih, pbkdf2U, macFrom_eq]
    have : (pbkdf2U a p s i j).length = a.digestBytes := by cases j <;> exact pbkdf2Prf_length _ _ _
    rw [this]; exact mac_fits a

/-- The derivation answers the closed form. -/
theorem derive_closed (a : Alg) (p s : Bytes) (c dk : Nat) (hp : keyTooLong a p = false)
    (hb : 8 * (a.blockBytes + s.length + 4) < 2 ^ 64) :
   pbkdf2Derive a p s c dk = .ok (pbkdf2Closed a p s c dk) := by
  rw [derive_eq a p s c dk hp hb, pbkdf2Closed]
  congr 2
  apply List.flatMap_congr
  intro i hi
  have hi : 1 + i = i + 1 := by omega
  rw [blockFrom, pbkdf2F]
  have h0 := chainFrom_eq a p s (i+1) hb 0
  rw [chainFrom] at h0
  have hj := chainFrom_eq a p s (i+1) hb
  rw [h0] at hj ⊢
  simp only [hj]

theorem pbkdf2F_length (a : Alg) (p s : Bytes) (c i : Nat) : (pbkdf2F a p s c i).length = a.digestBytes := by
  have hU : ∀ j, (pbkdf2U a p s i j).length = a.digestBytes := fun j => by cases j <;> exact pbkdf2Prf_length _ _ _
  unfold pbkdf2F
  have : ∀ (L : List Nat) (t : Bytes), t.length = a.digestBytes →
      (L.foldl (fun t j => xorBytes t (pbkdf2U a p s i (j + 1))) t).length = a.digestBytes := by
    intro L; induction L with
    | nil => intro t h; exact h
    | cons x L ih => intro t h; exact ih _ (by rw [length_xorBytes, h, hU]; simp)
  exact this _ _ (hU 0)

/-- The blocks of a longer output begin with those of a shorter one. -/
theorem flatMap_range_split (f : Nat → Bytes) (n1 n2 : Nat) (h : n1 ≤ n2) :
   ((List.range n2).flatMap f) = ((List.range n1).flatMap f) ++ ((List.range' n1 (n2 - n1)).flatMap f) := by
  rw [← List.flatMap_append]
  congr 1
  rw [List.range_eq_range', List.range_eq_range']
  have := List.range'_append (s := 0) (m := n1) (n := n2 - n1) (step := 1)
  simp at this
  rw [this]; congr 1; omega

end Sys2Proof.Machine
end

