-- ==== Sys2Proof/Laws/Agree.lean ====
section
/-! SUPPORT. Contexts that differ in unspecified fields only behave alike (spec/10_state.md R25, R27, R28, R33). -/

namespace Sys2Proof.Machine

/-- Agreement on every field a rule reads while a context is `ACTIVE`. -/
structure DCtx.ActiveAgree (c d : DCtx) : Prop where
  p : c.phase = d.phase
  a : c.alg = d.alg
  b : c.bufLen = d.bufLen
  t : c.totBits = d.totBits
  f : firstBytes c.buf c.bufLen.toNat = firstBytes d.buf d.bufLen.toNat
  h : ∀ (k : Nat) (hk : k < 8), k < c.alg.stateWords → c.h[k] = d.h[k]

theorem compress_agree (a : Alg) (h g : HWords) (blk : Bytes) (e : ∀ (k : Nat) (hk : k < 8), k < a.stateWords → h[k] = g[k]) :
    ∀ (k : Nat) (hk : k < 8), k < a.stateWords → (compress a h blk)[k] = (compress a g blk)[k] := by
  have l5 : a.stateWords = 5 ∨ a.stateWords = 8 := by cases a <;> simp [Alg.stateWords]
  rcases l5 with l5 | l5
  · have hl : Five.load h = Five.load g := by
      simp only [Five.load, e 0 (by omega) (by omega), e 1 (by omega) (by omega), e 2 (by omega) (by omega),
        e 3 (by omega) (by omega), e 4 (by omega) (by omega)]
    have st : ∀ (v : Five) (k : Nat) (hk : k < 8), k < 5 → (v.store h)[k] = (v.store g)[k] := by
      intro v k hk h5
      have : k = 0 ∨ k = 1 ∨ k = 2 ∨ k = 3 ∨ k = 4 := by omega
      rcases this with rfl | rfl | rfl | rfl | rfl <;> rfl
    intro k hk hk5
    rw [l5] at hk5
    have q1 : ∀ x : HWords, compress .sha1 x blk = (compressSha1 (Five.load x) blk).store x := fun _ => rfl
    have q2 : ∀ x : HWords, compress .ripemd160 x blk = (compressRmd160 (Five.load x) blk).store x := fun _ => rfl
    cases a <;> simp [Alg.stateWords] at l5
    · rw [q1, q1, hl]; generalize compressSha1 (Five.load g) blk = v; exact st v k hk hk5
    · rw [q2, q2, hl]; generalize compressRmd160 (Five.load g) blk = v; exact st v k hk hk5
  · have : h = g := by
      apply Vector.ext; intro k hk; exact e k hk (by omega)
    intro k hk _; rw [this]

theorem firstBytes_set_agree (r q : Reg128) (n : Nat) (b : Byte) (hn : n < 128) (e : firstBytes r n = firstBytes q n) :
    firstBytes (r.setIfInBounds n b) (n + 1) = firstBytes (q.setIfInBounds n b) (n + 1) := by
  rw [firstBytes_setIfInBounds _ _ _ hn, firstBytes_setIfInBounds _ _ _ hn, e]

theorem absorbByte_agree {c d : DCtx} (h : c.ActiveAgree d) (b : Byte) : DCtx.ActiveAgree (c.absorbByte b) (d.absorbByte b) := by
  have hlt := c.bufLen.isLt
  have hf := firstBytes_set_agree c.buf d.buf c.bufLen.toNat b hlt (by rw [h.f, h.b])
  by_cases hl : c.bufLen.toNat + 1 = c.alg.blockBytes
  · have hl' : d.bufLen.toNat + 1 = d.alg.blockBytes := by rw [← h.b, ← h.a]; exact hl
    have e1 : c.absorbByte b =
        { c with buf := c.buf.setIfInBounds c.bufLen.toNat b,
                 h := compress c.alg c.h (firstBytes (c.buf.setIfInBounds c.bufLen.toNat b) c.alg.blockBytes), bufLen := 0 } := by
      simp [DCtx.absorbByte, hl]
    have e2 : d.absorbByte b =
        { d with buf := d.buf.setIfInBounds d.bufLen.toNat b,
                 h := compress d.alg d.h (firstBytes (d.buf.setIfInBounds d.bufLen.toNat b) d.alg.blockBytes), bufLen := 0 } := by
      simp [DCtx.absorbByte, hl']
    rw [e1, e2]
    refine ⟨h.p, h.a, rfl, h.t, ?_, ?_⟩
    · simp [firstBytes]
    · intro k hk hs
      show (compress c.alg c.h _)[k] = (compress d.alg d.h _)[k]
      rw [← h.a, ← h.b, ← hl, ← hf, hl]
      exact compress_agree _ _ _ _ h.h k hk hs
  · have hl' : ¬ d.bufLen.toNat + 1 = d.alg.blockBytes := by rw [← h.b, ← h.a]; exact hl
    have e1 : c.absorbByte b = { c with buf := c.buf.setIfInBounds c.bufLen.toNat b, bufLen := c.bufLen + 1 } := by
      simp [DCtx.absorbByte, hl]
    have e2 : d.absorbByte b = { d with buf := d.buf.setIfInBounds d.bufLen.toNat b, bufLen := d.bufLen + 1 } := by
      simp [DCtx.absorbByte, hl']
    rw [e1, e2]
    refine ⟨h.p, h.a, by show c.bufLen + 1 = d.bufLen + 1; rw [h.b], h.t, ?_, h.h⟩
    show firstBytes (c.buf.setIfInBounds _ b) (c.bufLen + 1).toNat = firstBytes (d.buf.setIfInBounds _ b) (d.bufLen + 1).toNat
    rw [← h.b]
    by_cases h127 : c.bufLen.toNat = 127
    · have : (c.bufLen + 1).toNat = 0 := by simp [BitVec.toNat_add, h127]
      rw [this]; simp [firstBytes]
    · have : (c.bufLen + 1).toNat = c.bufLen.toNat + 1 := by simp [BitVec.toNat_add]; omega
      rw [this]; exact hf

theorem absorb_agree {c d : DCtx} (h : c.ActiveAgree d) (m : Bytes) : DCtx.ActiveAgree (c.absorb m) (d.absorb m) := by
  induction m generalizing c d with
  | nil => exact h
  | cons b m ih => rw [absorb_cons, absorb_cons]; exact ih (absorbByte_agree h b)

theorem feed_agree {c d : DCtx} (h : c.ActiveAgree d) (m : Bytes) : DCtx.ActiveAgree (c.feed m) (d.feed m) := by
  have := absorb_agree h m
  exact ⟨this.p, this.a, this.b, by show c.totBits + _ = d.totBits + _; rw [h.t], this.f, this.h⟩

theorem serialize_agree (a : Alg) (h g : HWords) (e : ∀ (k : Nat) (hk : k < 8), k < a.stateWords → h[k] = g[k]) :
    serialize a h = serialize a g := by
  unfold serialize
  congr 1
  apply List.ext_getElem?
  intro n
  simp only [List.getElem?_take]
  split
  · rename_i hn
    have h1 : a.digestWords ≤ a.stateWords ∧ a.stateWords ≤ 8 := by cases a <;> decide
    have hn8 : n < 8 := by omega
    simp [hn8, e n hn8 (by omega)]
  · rfl

theorem close_agree {c d : DCtx} (h : c.ActiveAgree d) : c.close.1 = d.close.1 := by
  have e : pad c.alg c.bufLen.toNat c.totBits.toNat = pad d.alg d.bufLen.toNat d.totBits.toNat := by rw [h.a, h.b, h.t]
  have := absorb_agree h (pad c.alg c.bufLen.toNat c.totBits.toNat)
  show serialize c.alg (c.absorb _).h = serialize d.alg (d.absorb _).h
  rw [← e, ← h.a]
  apply serialize_agree
  intro k hk hs
  exact this.h k hk (by simpa using hs)

theorem activeAgree_agree {c d : DCtx} (h : c.ActiveAgree d) : c.Agree d := ⟨h.p, fun _ => ⟨h.a, h.b, h.t, h.f, h.h⟩⟩
theorem agree_activeAgree {c d : DCtx} (h : c.Agree d) (hp : c.phase = .active) : c.ActiveAgree d := by
  obtain ⟨h1, h2, h3, h4, h5⟩ := h.2 hp
  exact ⟨h.1, h1, h2, h3, h4, h5⟩
theorem start_activeAgree (c d : DCtx) (a : Alg) : DCtx.ActiveAgree (c.start a) (d.start a) :=
  ⟨rfl, rfl, rfl, rfl, by simp [firstBytes], fun _ _ _ => rfl⟩

/-- `DUPD` on two contexts that agree stops alike, or leaves contexts that agree. -/
theorem update_agree {c d : DCtx} (h : c.Agree d) (m : Bytes) :
    (∃ e, c.update m = .error e ∧ d.update m = .error e) ∨
    (∃ c' d', c.update m = .ok c' ∧ d.update m = .ok d' ∧ c'.Agree d') := by
  have hp := h.1
  cases hc : c.phase with
  | empty => left; rw [hc] at hp; exact ⟨_, by simp [DCtx.update, hc]; rfl, by simp [DCtx.update, ← hp]⟩
  | finalized => left; rw [hc] at hp; exact ⟨_, by simp [DCtx.update, hc]; rfl, by simp [DCtx.update, ← hp]⟩
  | active =>
    have ha := agree_activeAgree h hc
    rw [hc] at hp
    simp only [DCtx.update, hc, ← hp, ← ha.t]
    split
    · exact .inl ⟨_, rfl, rfl⟩
    · exact .inr ⟨_, _, rfl, rfl, activeAgree_agree (feed_agree ha m)⟩

/-- `DFIN` on two contexts that agree stops alike, or answers the same and leaves contexts that agree. -/
theorem finish_agree {c d : DCtx} (h : c.Agree d) :
    (∃ e, c.finish = .error e ∧ d.finish = .error e) ∨
    (∃ o c' d', c.finish = .ok (o, c') ∧ d.finish = .ok (o, d') ∧ c'.Agree d') := by
  have hp := h.1
  cases hc : c.phase with
  | empty => left; rw [hc] at hp; exact ⟨_, by simp [DCtx.finish, hc]; rfl, by simp [DCtx.finish, ← hp]⟩
  | finalized => left; rw [hc] at hp; exact ⟨_, by simp [DCtx.finish, hc]; rfl, by simp [DCtx.finish, ← hp]⟩
  | active =>
    have ha := agree_activeAgree h hc
    refine .inr ⟨c.close.1, c.close.2, d.close.2, finish_ok c hc, ?_, ?_, ?_⟩
    · rw [close_agree ha]; exact finish_ok d (hp ▸ hc)
    · simp
    · intro h; simp at h

theorem keyed_agree (c d : HCtx) (a k) : (c.keyed a k).Agree (d.keyed a k) := by
  have h : ∀ (x y : DCtx) (p : Bytes), ((x.start a).feed p).Agree ((y.start a).feed p) :=
    fun x y p => activeAgree_agree (feed_agree (start_activeAgree x y a) p)
  exact ⟨rfl, fun _ => ⟨rfl, h _ _ _, h _ _ _, h _ _ _⟩⟩

theorem hupdate_agree {c d : HCtx} (h : c.Agree d) (m : Bytes) :
    (∃ e, c.update m = .error e ∧ d.update m = .error e) ∨
    (∃ c' d', c.update m = .ok c' ∧ d.update m = .ok d' ∧ c'.Agree d') := by
  have hp := h.1
  cases hc : c.phase with
  | empty => left; rw [hc] at hp; exact ⟨_, by simp [HCtx.update, hc]; rfl, by simp [HCtx.update, ← hp]⟩
  | finalized => left; rw [hc] at hp; exact ⟨_, by simp [HCtx.update, hc]; rfl, by simp [HCtx.update, ← hp]⟩
  | keyed =>
    obtain ⟨h1, h2, h3, h4⟩ := h.2 (by rw [hc]; decide)
    rw [hc] at hp
    simp only [HCtx.update, hc, ← hp]
    rcases update_agree h2 m with ⟨e, e1, e2⟩ | ⟨c', d', e1, e2, e3⟩
    · rw [e1, e2]; exact .inl ⟨e, rfl, rfl⟩
    · rw [e1, e2]; exact .inr ⟨_, _, rfl, rfl, rfl, fun _ => ⟨h1, e3, h3, h4⟩⟩

theorem mac_agree {c d : HCtx} (h1 : c.alg = d.alg) (h2 : c.inner.Agree d.inner) (h3 : c.ibase.Agree d.ibase)
    (h4 : c.obase.Agree d.obase) :
    (∃ e, c.mac = .error e ∧ d.mac = .error e) ∨
    (∃ o c' d', c.mac = .ok (o, c') ∧ d.mac = .ok (o, d') ∧ c'.Agree d') := by
  unfold HCtx.mac
  rcases finish_agree h2 with ⟨e, e1, e2⟩ | ⟨o, c', d', e1, e2, e3⟩
  · rw [e1, e2]; exact .inl ⟨e, rfl, rfl⟩
  · rw [e1, e2]; simp only
    rcases update_agree h4 o with ⟨e, f1, f2⟩ | ⟨x, y, f1, f2, f3⟩
    · rw [f1, f2]; exact .inl ⟨e, rfl, rfl⟩
    · rw [f1, f2]; simp only
      rcases finish_agree f3 with ⟨e, g1, g2⟩ | ⟨o', x', y', g1, g2, g3⟩
      · rw [g1, g2]; exact .inl ⟨e, rfl, rfl⟩
      · rw [g1, g2]; exact .inr ⟨_, _, _, rfl, rfl, rfl, fun _ => ⟨h1, e3, h3, h4⟩⟩

theorem hfinish_agree {c d : HCtx} (h : c.Agree d) (n : Nat) :
    (∃ e, c.finish n = .error e ∧ d.finish n = .error e) ∨
    (∃ o c' d', c.finish n = .ok (o, c') ∧ d.finish n = .ok (o, d') ∧ c'.Agree d') := by
  have hp := h.1
  cases hc : c.phase with
  | empty => left; rw [hc] at hp; exact ⟨_, by simp [HCtx.finish, hc]; rfl, by simp [HCtx.finish, ← hp]⟩
  | finalized => left; rw [hc] at hp; exact ⟨_, by simp [HCtx.finish, hc]; rfl, by simp [HCtx.finish, ← hp]⟩
  | keyed =>
    obtain ⟨h1, h2, h3, h4⟩ := h.2 (by rw [hc]; decide)
    have hm := mac_agree h1 h2 h3 h4
    rw [hc] at hp
    simp only [HCtx.finish, hc, ← hp, ← h1]
    split
    · exact .inl ⟨_, rfl, rfl⟩
    split
    · exact .inl ⟨_, rfl, rfl⟩
    rcases hm with ⟨e, e1, e2⟩ | ⟨o, c', d', e1, e2, e3⟩
    · rw [e1, e2]; exact .inl ⟨e, rfl, rfl⟩
    · rw [e1, e2]; exact .inr ⟨_, _, _, rfl, rfl, e3⟩

theorem reinit_agree {c d : HCtx} (h : c.Agree d) :
    (∃ e, c.reinit = .error e ∧ d.reinit = .error e) ∨
    (∃ c' d', c.reinit = .ok c' ∧ d.reinit = .ok d' ∧ c'.Agree d') := by
  have hp := h.1
  by_cases hc : c.phase = .empty
  · left; exact ⟨_, (reinit_error_iff c _).2 ⟨hc, rfl⟩, (reinit_error_iff d _).2 ⟨by rw [← hp, hc], rfl⟩⟩
  · obtain ⟨h1, h2, h3, h4⟩ := h.2 hc
    exact .inr ⟨_, _, (reinit_ok_iff c _).2 ⟨hc, rfl⟩, (reinit_ok_iff d _).2 ⟨by rw [← hp]; exact hc, rfl⟩, rfl,
      fun _ => ⟨h1, h3, h3, h4⟩⟩

end Sys2Proof.Machine
end

