-- ==== Sys2Proof/Laws/Decode.lean ====
section
/-! SUPPORT. Reading back what the encoder writes, piece by piece: scalars, byte strings, command words
(spec/30_encoding.md R70 to R78). -/

namespace Sys2Proof

/-- A big-endian scalar is read back, with the bytes after it. -/
theorem takeScalar_beBytes (n v : Nat) (rest : Bytes) (h : v < 256 ^ n) :
    takeScalar n (beBytes n v ++ rest) = some (v, rest) := by
  simp [takeScalar, fromBE_beBytes_of_lt h]

/-- What a scalar read leaves is what was there. -/
theorem takeScalar_eq_some {n v : Nat} {bs rest : Bytes} (h : takeScalar n bs = some (v, rest)) :
    bs = beBytes n v ++ rest ∧ v < 256 ^ n := by
  unfold takeScalar at h
  split at h
  · cases h
  · rename_i hl
    have hlen : (bs.take n).length = n := by simp; omega
    cases h
    refine ⟨?_, ?_⟩
    · have hb := beBytes_fromBE (bs.take n)
      rw [hlen] at hb
      rw [hb, List.take_append_drop]
    · have hb := fromBE_lt (bs.take n)
      rwa [hlen] at hb

theorem pow_256_8 : (256 : Nat) ^ 8 = 2 ^ 64 := by decide
theorem pow_256_4 : (256 : Nat) ^ 4 = 2 ^ 32 := by decide

/-- A byte string is read back, with the bytes after it. -/
theorem takeBytes_stringBytes (m rest : Bytes) (h : fitsFrame m = true) :
    takeBytes (stringBytes m ++ rest) = some (m, rest) := by
  have hl : m.length < 256 ^ 8 := by rw [pow_256_8]; simpa [fitsFrame] using h
  simp [takeBytes, stringBytes, takeScalar_beBytes _ _ _ hl]

/-- What a byte-string read leaves is what was there. -/
theorem takeBytes_eq_some {bs m rest : Bytes} (h : takeBytes bs = some (m, rest)) :
    bs = stringBytes m ++ rest ∧ fitsFrame m = true := by
  unfold takeBytes at h
  cases hs : takeScalar 8 bs with
  | none => rw [hs] at h; cases h
  | some r =>
    obtain ⟨len, r1⟩ := r
    rw [hs] at h
    obtain ⟨hbs, hlt⟩ := takeScalar_eq_some hs
    simp only [] at h
    split at h
    · cases h
    · rename_i hl
      cases h
      have hlen : (r1.take len).length = len := by simp; omega
      refine ⟨?_, by rw [fitsFrame, hlen, ← pow_256_8]; simpa using hlt⟩
      rw [stringBytes, hlen, List.append_assoc, List.take_append_drop]
      exact hbs

/-- A command word is read back. -/
theorem takeScalar_wordBytes (w : BitVec 32) (rest : Bytes) :
    takeScalar 4 (wordBytes w ++ rest) = some (w.toNat, rest) :=
  takeScalar_beBytes _ _ _ (by rw [pow_256_4]; exact w.isLt)

@[simp] theorem opcField_commandWord (op : Op) (alg : BitVec 4) : opcField (commandWord op alg) = op.opc := by
  revert alg; cases op <;> decide

@[simp] theorem algField_commandWord (op : Op) (alg : BitVec 4) : algField (commandWord op alg) = alg := by
  revert alg; cases op <;> decide

@[simp] theorem rsvField_commandWord (op : Op) (alg : BitVec 4) : rsvField (commandWord op alg) = 0 := by
  revert alg; cases op <;> decide

@[simp] theorem ofCode?_code (a : Alg) : Alg.ofCode? a.code = some a := by cases a <;> decide

/-- The only code that names an algorithm is its own. -/
theorem ofCode?_eq_some {c : BitVec 4} {a : Alg} : Alg.ofCode? c = some a ↔ c = a.code := by
  revert c; cases a <;> decide

/-- The only opcode that names a mnemonic is its own. -/
theorem ofOpc?_eq_some {b : BitVec 8} {op : Op} : Op.ofOpc? b = some op ↔ b = op.opc := by
  have h : ∀ b : BitVec 8, ∀ i : Fin 8, (Op.ofOpc? b = some Op.all[i.val]) ↔ b = (Op.all[i.val]).opc := by decide +kernel
  cases op
  exacts [h b 0, h b 1, h b 2, h b 3, h b 4, h b 5, h b 6, h b 7]

/-- A word is its three fields. -/
theorem word_eq_fields (w : BitVec 32) : w = rsvField w ++ algField w ++ opcField w := by
  apply BitVec.eq_of_getLsbD_eq
  intro i hi
  simp only [rsvField, algField, opcField, BitVec.getLsbD_append, BitVec.getLsbD_extractLsb']
  by_cases h8 : i < 8
  · simp [h8]
  · by_cases h12 : i - 8 < 4
    · have : 8 + (i - 8) = i := by omega
      simp [h8, h12, this]
    · have h1 : 12 + (i - 8 - 4) = i := by omega
      have h2 : i - 8 - 4 < 20 := by omega
      simp [h8, h12, h1, h2]

/-- The decoder of words reads the encoder's word for each legal command. -/
theorem decodeWord_commandWord_alg (a : Alg) :
    decodeWord (commandWord .dinit a.code) .digest = .ok (.dinit a) ∧
    decodeWord (commandWord .hkey a.code) .hmac = .ok (.hkey a) ∧
    decodeWord (commandWord .pbkdf2 a.code) .pbkdf2 = .ok (.pbkdf2 a) := by
  cases a <;> decide

theorem decodeWord_commandWord_noAlg :
    decodeWord (commandWord .dupd 0) .digest = .ok .dupd ∧
    decodeWord (commandWord .dfin 0) .digest = .ok .dfin ∧
    decodeWord (commandWord .hupd 0) .hmac = .ok .hupd ∧
    decodeWord (commandWord .hfin 0) .hmac = .ok .hfin ∧
    decodeWord (commandWord .hreinit 0) .hmac = .ok .hreinit := by
  decide

theorem opcField_toNat (w : BitVec 32) : (opcField w).toNat = w.toNat % 256 := by simp [opcField, BitVec.extractLsb'_toNat]

theorem algField_toNat (w : BitVec 32) : (algField w).toNat = w.toNat / 256 % 16 := by
  simp [algField, BitVec.extractLsb'_toNat, Nat.shiftRight_eq_div_pow]

theorem kindField_toNat (w : BitVec 32) : (kindField w).toNat = w.toNat % 256 / 16 := by
  simp [kindField, BitVec.extractLsb'_toNat, Nat.shiftRight_eq_div_pow]; omega

theorem rsvField_toNat (w : BitVec 32) : (rsvField w).toNat = w.toNat / 4096 := by
  have := w.isLt
  simp [rsvField, BitVec.extractLsb'_toNat, Nat.shiftRight_eq_div_pow]; omega

/-- The reserved opcodes (R74). -/
theorem ofOpc?_eq_none (b : BitVec 8) :
    Op.ofOpc? b = none ↔ b.toNat ∉ [0x01, 0x02, 0x03, 0x11, 0x12, 0x13, 0x14, 0x21] := by
  revert b; decide +kernel

/-- The codes that name no algorithm (R72). -/
theorem ofCode?_eq_none (b : BitVec 4) : Alg.ofCode? b = none ↔ b.toNat ∉ [1, 2, 3, 4, 5, 6] := by
  revert b; decide +kernel

/-- A frame begins with its word. -/
theorem decodeFrame_wordBytes (k : UnitKind) (w : BitVec 32) (bs : Bytes) :
    decodeFrame k (wordBytes w ++ bs) = decodeAfterWord k w bs := by
  simp [decodeFrame, takeScalar_wordBytes]

/-- The operands of PBKDF2 are read back, with the bytes after them. -/
theorem takePbkdf2_operands (p s rest : Bytes) (c : BitVec 32) (dk : BitVec 64)
    (hp : fitsFrame p = true) (hs : fitsFrame s = true) :
    takePbkdf2 (stringBytes p ++ (stringBytes s ++ (beBytes 4 c.toNat ++ (beBytes 8 dk.toNat ++ rest))))
      = some ((p, s, c.toNat, dk.toNat), rest) := by
  have hc : c.toNat < 256 ^ 4 := by rw [pow_256_4]; exact c.isLt
  have hd : dk.toNat < 256 ^ 8 := by rw [pow_256_8]; exact dk.isLt
  simp [takePbkdf2, takeBytes_stringBytes _ _ hp, takeBytes_stringBytes _ _ hs, takeScalar_beBytes _ _ _ hc,
    takeScalar_beBytes _ _ _ hd]

/-- What a read of PBKDF2's operands leaves is what was there. -/
theorem takePbkdf2_eq_some {bs p s rest : Bytes} {c dk : Nat} (h : takePbkdf2 bs = some ((p, s, c, dk), rest)) :
    bs = stringBytes p ++ (stringBytes s ++ (beBytes 4 c ++ (beBytes 8 dk ++ rest))) ∧
    fitsFrame p = true ∧ fitsFrame s = true ∧ c < 2 ^ 32 ∧ dk < 2 ^ 64 := by
  simp only [takePbkdf2, Option.bind_eq_bind, Option.bind_eq_some_iff, Prod.exists] at h
  obtain ⟨p', r1, h1, s', r2, h2, c', r3, h3, dk', r4, h4, h5⟩ := h
  cases h5
  obtain ⟨rfl, fp⟩ := takeBytes_eq_some h1
  obtain ⟨rfl, fs⟩ := takeBytes_eq_some h2
  obtain ⟨rfl, hc⟩ := takeScalar_eq_some h3
  obtain ⟨rfl, hd⟩ := takeScalar_eq_some h4
  exact ⟨rfl, fp, fs, by rwa [pow_256_4] at hc, by rwa [pow_256_8] at hd⟩

/-- What a frame leaves in the stream depends on `OPC` alone (R80). -/
theorem decodeFrame_rest? (k : UnitKind) (w : BitVec 32) (bs : Bytes) :
    (decodeFrame k (beBytes 4 w.toNat ++ bs)).rest? = match Op.ofOpc? (opcField w) with
      | none => some bs | some op => skipOperands op bs := by
  rw [show beBytes 4 w.toNat = wordBytes w from rfl, decodeFrame_wordBytes]
  unfold decodeAfterWord
  cases hd : decodeWord w k with
  | error e =>
    simp only
    cases ho : Op.ofOpc? (opcField w) with
    | none => rfl
    | some op => simp only; cases skipOperands op bs <;> rfl
  | ok h =>
    simp only
    unfold decodeWord at hd
    cases ho : Op.ofOpc? (opcField w) with
    | none => rw [ho] at hd; cases hd
    | some op =>
      rw [ho] at hd; simp only at hd
      split at hd
      · cases hd
      split at hd
      · cases hd
      cases op <;> simp only [headWithAlg, headWithoutAlg] at hd <;> (split at hd <;> cases hd) <;> simp only [readCommand, skipOperands]
      all_goals first | rfl | skip
      · cases takeBytes bs <;> rfl
      · cases takeBytes bs <;> rfl
      · cases takeBytes bs <;> rfl
      · cases takeScalar 4 bs <;> rfl
      · cases takePbkdf2 bs <;> rfl

theorem takeScalar_raw (n : Nat) (x rest : Bytes) (h : x.length = n) : takeScalar n (x ++ rest) = some (fromBE x, rest) := by
  subst h; simp [takeScalar]

/-- A whole frame whose word is illegal. -/
theorem decodeFrame_illegal (k : UnitKind) (w : BitVec 32) (bs rest : Bytes) (why) (h : decodeWord w k = .error why)
    (hr : (decodeFrame k (beBytes 4 w.toNat ++ bs)).rest? = some rest) : decodeFrame k (beBytes 4 w.toNat ++ bs) = .illegal why rest := by
  revert hr
  rw [show beBytes 4 w.toNat = wordBytes w from rfl, decodeFrame_wordBytes]
  simp only [decodeAfterWord, h]
  cases Op.ofOpc? (opcField w) with
  | none => intro h; cases h; rfl
  | some op => cases hh : skipOperands op bs <;> simp only [hh] <;> intro h <;> cases h; rfl

end Sys2Proof
end

