-- ==== Sys2Proof/Laws/PerInstr.lean ====
section
/-! SUPPORT. Laws of every instruction as syntax, one lemma for each constructor (LAWS.json). -/

namespace Sys2Proof.Laws.EncodeLength

/-- The bytes that follow a command word, for each opcode (spec/30_encoding.md R80). -/
def operandBytes : Instr → Nat
  | .dinit _ => 0
  | .dupd m => 8 + m.length
  | .dfin => 0
  | .hkey _ k => 8 + k.length
  | .hupd m => 8 + m.length
  | .hfin _ => 4
  | .hreinit => 0
  | .pbkdf2 _ p s _ _ => 28 + p.length + s.length

/-- A frame is its 4-byte word and the operands of its opcode. -/
def Statement (i : Instr) : Prop := (encode i).length = 4 + operandBytes i

theorem dinit (a : Alg) : Statement (.dinit a) := by simp [Statement, encode, wordBytes, operandBytes]
theorem dupd (m : Bytes) : Statement (.dupd m) := by simp [Statement, encode, wordBytes, stringBytes, operandBytes]
theorem dfin : Statement .dfin := by simp [Statement, encode, wordBytes, operandBytes]
theorem hkey (a : Alg) (k : Bytes) : Statement (.hkey a k) := by
  simp [Statement, encode, wordBytes, stringBytes, operandBytes]
theorem hupd (m : Bytes) : Statement (.hupd m) := by simp [Statement, encode, wordBytes, stringBytes, operandBytes]
theorem hfin (n : BitVec 32) : Statement (.hfin n) := by simp [Statement, encode, wordBytes, operandBytes]
theorem hreinit : Statement .hreinit := by simp [Statement, encode, wordBytes, operandBytes]
theorem pbkdf2 (a : Alg) (p s : Bytes) (c : BitVec 32) (dk : BitVec 64) : Statement (.pbkdf2 a p s c dk) := by
  simp [Statement, encode, wordBytes, stringBytes, operandBytes]; omega

end Sys2Proof.Laws.EncodeLength
end

