-- ==== Sys2Proof/Laws/Schedule.lean ====
section
/-! SUPPORT. The compression cores in the words of the rules: rotations, and a schedule as a function of `t`
(spec/41_sha1.md R123, spec/42_sha256.md R134, spec/43_sha512.md R154). -/

namespace Sys2Proof

theorem rotl_eq_rotateLeft (n : Nat) (x : BitVec 32) (h : n < 32) : rotl n x = x.rotateLeft n := by
  simp [rotl, BitVec.rotateLeft, BitVec.rotateLeftAux, Nat.mod_eq_of_lt h]
theorem rotr_eq_rotateRight32 (n : Nat) (x : BitVec 32) (h : n < 32) : rotr n x = x.rotateRight n := by
  simp [rotr, BitVec.rotateRight, BitVec.rotateRightAux, Nat.mod_eq_of_lt h]
theorem rotr_eq_rotateRight64 (n : Nat) (x : BitVec 64) (h : n < 64) : rotr n x = x.rotateRight n := by
  simp [rotr, BitVec.rotateRight, BitVec.rotateRightAux, Nat.mod_eq_of_lt h]

/-- Extending a schedule word by word gives the function `W` the rule describes. -/
theorem schedule_extend {w : Nat} (next : List (BitVec w) → BitVec w) (ext : Nat → List (BitVec w) → List (BitVec w))
   (e0 : ∀ ws, ext 0 ws = ws) (e1 : ∀ n ws, ext (n+1) ws = ext n (ws ++ [next ws]))
   (W : Nat → BitVec w) (N : Nat) (hn : ∀ ws : List (BitVec w), 16 ≤ ws.length → ws.length < N → ws = (List.range ws.length).map W → next ws = W ws.length) :
   ∀ n m, 16 ≤ m → m + n ≤ N → ext n ((List.range m).map W) = (List.range (m + n)).map W := by
  intro n
  induction n with
  | zero => intro m _ _; rw [e0]; rfl
  | succ n ih =>
    intro m hm hN
    rw [e1, hn _ (by simpa using hm) (by simp; omega) (by simp)]
    have : (List.range m).map W ++ [W ((List.range m).map W).length] = (List.range (m+1)).map W := by
      rw [List.range_succ]; simp
    rw [this, ih (m+1) (by omega) (by omega)]
    congr 2; omega

theorem getD_map_range {α : Type} (W : Nat → α) (n t : Nat) (d : α) (h : t < n) : ((List.range n).map W).getD t d = W t := by
  simp [List.getD, h]

/-- The first sixteen words of a schedule. -/
theorem schedule_first (w : Nat) (blk : Bytes) (W : Nat → BitVec w) (h : ∀ t, t < 16 → W t = BitVec.ofNat w (fromBE ((blk.drop (w/8 * t)).take (w/8)))) :
   (List.range 16).map (beWord w blk) = (List.range 16).map W := by
  apply List.map_congr_left
  intro t ht
  rw [h t (by simpa using ht), beWord, Nat.mul_comm]

end Sys2Proof
end

