-- ==== Sys2Proof/Machine/Assembler.lean ====
section
/-! DEFINITION. The assembler syntax and the two pseudo-instructions (spec/30_encoding.md R84 to R86): a line of text to the
commands it stands for. The machine never sees text; the host's frames are the encodings of these commands (R78). -/

namespace Sys2Proof.Machine

/-! ## Characters -/

/-- The characters without blanks at either end. -/
def trimBlanks (cs : List Char) : List Char :=
  ((cs.dropWhile (· == ' ')).reverse.dropWhile (· == ' ')).reverse

/-- The line without the comment a `;` outside quotes begins (R84). -/
def dropComment : Bool → List Char → List Char
  | _, [] => []
  | quoted, c :: cs =>
    if c == ';' && !quoted then []
    else c :: dropComment (if c == '"' then !quoted else quoted) cs

/-- The operands of a line: split at commas outside quotes and parentheses (R84). `word` holds the operand read so far, last
character first. -/
def splitOperands : Bool → Nat → List Char → List Char → List (List Char)
  | _, _, word, [] => [trimBlanks word.reverse]
  | quoted, depth, word, c :: cs =>
    if c == ',' && !quoted && depth == 0 then trimBlanks word.reverse :: splitOperands false 0 [] cs
    else if c == '"' then splitOperands (!quoted) depth (c :: word) cs
    else if c == '(' && !quoted then splitOperands quoted (depth + 1) (c :: word) cs
    else if c == ')' && !quoted then splitOperands quoted (depth - 1) (c :: word) cs
    else splitOperands quoted depth (c :: word) cs

/-- The value of a digit of a base up to 16; none for another character. -/
def digitValue? (base : Nat) (c : Char) : Option Nat :=
  let v :=
    if '0' ≤ c && c ≤ '9' then c.toNat - '0'.toNat
    else if 'a' ≤ c && c ≤ 'f' then c.toNat - 'a'.toNat + 10
    else if 'A' ≤ c && c ≤ 'F' then c.toNat - 'A'.toNat + 10
    else base
  if v < base then some v else none

/-- The number a string of digits writes, after the value `v`. -/
def digitsValue? (base v : Nat) : List Char → Option Nat
  | [] => some v
  | c :: cs =>
    match digitValue? base c with
    | some d => digitsValue? base (v * base + d) cs
    | none => none

/-! ## Operand forms -/

/-- A decimal or `0x` hexadecimal number below `bound` (R84). -/
def parseNumber (bound : Nat) (cs : List Char) : Option Nat :=
  let v :=
    match cs with
    | '0' :: 'x' :: ds => if ds.isEmpty then none else digitsValue? 16 0 ds
    | ds => if ds.isEmpty then none else digitsValue? 10 0 ds
  match v with
  | some n => if n < bound then some n else none
  | none => none

/-- `<alg>` (R84). -/
def parseAlg (cs : List Char) : Option Alg :=
  if cs = ['s', 'h', 'a', '1'] then some .sha1
  else if cs = ['s', 'h', 'a', '2', '2', '4'] then some .sha224
  else if cs = ['s', 'h', 'a', '2', '5', '6'] then some .sha256
  else if cs = ['s', 'h', 'a', '3', '8', '4'] then some .sha384
  else if cs = ['s', 'h', 'a', '5', '1', '2'] then some .sha512
  else if cs = ['r', 'i', 'p', 'e', 'm', 'd', '1', '6', '0'] then some .ripemd160
  else none

/-- The bytes of an ASCII string up to its closing quote, which ends the operand (R84). -/
def parseAscii : List Char → Option Bytes
  | [] => none
  | '"' :: cs => if cs.isEmpty then some [] else none
  | c :: cs => if c.toNat < 128 then (parseAscii cs).map (BitVec.ofNat 8 c.toNat :: ·) else none

/-- The bytes of a hex string up to its closing quote, two digits a byte (R84). -/
def parseHex : List Char → Option Bytes
  | ['"'] => some []
  | a :: b :: cs =>
    match digitValue? 16 a, digitValue? 16 b with
    | some x, some y => (parseHex cs).map (BitVec.ofNat 8 (16 * x + y) :: ·)
    | _, _ => none
  | _ => none

/-- `rep(<byte>, <count>)` after its opening parenthesis (R84). -/
def parseRep (cs : List Char) : Option Bytes :=
  match cs.reverse with
  | ')' :: rs =>
    match splitOperands false 0 [] rs.reverse with
    | [b, n] =>
      match parseNumber 256 b, parseNumber (2 ^ 64) n with
      | some v, some k => some (List.replicate k (BitVec.ofNat 8 v))
      | _, _ => none
    | _ => none
  | _ => none

/-- `<bytes>`, in one of its three forms (R84). -/
def parseBytes : List Char → Option Bytes
  | '"' :: cs => parseAscii cs
  | 'x' :: '"' :: cs => parseHex cs
  | 'r' :: 'e' :: 'p' :: '(' :: cs => parseRep cs
  | _ => none

/-! ## Lines -/

/-- The mnemonics of R84, and of the pseudo-instructions of R85 and R86. -/
inductive AsmOp where
  | core (op : Op)
  | digest
  | hmac
deriving DecidableEq, Repr

/-- A mnemonic, in lower case (R84). -/
def parseMnemonic (cs : List Char) : Option AsmOp :=
  if cs = ['d', 'i', 'n', 'i', 't'] then some (.core .dinit)
  else if cs = ['d', 'u', 'p', 'd'] then some (.core .dupd)
  else if cs = ['d', 'f', 'i', 'n'] then some (.core .dfin)
  else if cs = ['h', 'k', 'e', 'y'] then some (.core .hkey)
  else if cs = ['h', 'u', 'p', 'd'] then some (.core .hupd)
  else if cs = ['h', 'f', 'i', 'n'] then some (.core .hfin)
  else if cs = ['h', 'r', 'e', 'i', 'n', 'i', 't'] then some (.core .hreinit)
  else if cs = ['p', 'b', 'k', 'd', 'f', '2'] then some (.core .pbkdf2)
  else if cs = ['d', 'i', 'g', 'e', 's', 't'] then some .digest
  else if cs = ['h', 'm', 'a', 'c'] then some .hmac
  else none

/-- The commands of a mnemonic with its operands (R84 to R86). -/
def assembleOp (op : AsmOp) (operands : List (List Char)) : Option (List Instr) :=
  match op, operands with
  | .core .dinit, [a] => do return [.dinit (← parseAlg a)]
  | .core .dupd, [m] => do return [.dupd (← parseBytes m)]
  | .core .dfin, [] => some [.dfin]
  | .core .hkey, [a, k] => do return [.hkey (← parseAlg a) (← parseBytes k)]
  | .core .hupd, [m] => do return [.hupd (← parseBytes m)]
  | .core .hfin, [n] => do return [.hfin (BitVec.ofNat 32 (← parseNumber (2 ^ 32) n))]
  | .core .hreinit, [] => some [.hreinit]
  | .core .pbkdf2, [a, p, s, c, dk] => do
    return [.pbkdf2 (← parseAlg a) (← parseBytes p) (← parseBytes s) (BitVec.ofNat 32 (← parseNumber (2 ^ 32) c))
      (BitVec.ofNat 64 (← parseNumber (2 ^ 64) dk))]
  | .digest, [a, m] => do return digestProgram (← parseAlg a) (← parseBytes m)
  | .hmac, [a, k, m, n] => do
    return hmacProgram (← parseAlg a) (← parseBytes k) (← parseBytes m) (BitVec.ofNat 32 (← parseNumber (2 ^ 32) n))
  | _, _ => none

/-- The commands a line stands for; none where the line is not of the syntax (R84). A line of blanks and comment stands for none
of them. -/
def assembleLine (line : List Char) : Option (List Instr) :=
  let cs := trimBlanks (dropComment false line)
  let operands := trimBlanks (cs.dropWhile (· != ' '))
  if cs.isEmpty then some []
  else
    match parseMnemonic (cs.takeWhile (· != ' ')) with
    | none => none
    | some op => assembleOp op (if operands.isEmpty then [] else splitOperands false 0 [] operands)

end Sys2Proof.Machine
end

