-- ==== Sys2Proof/Tests/Slice0.lean ====
section
/-! SUPPORT. The model's own tests, each on fixed values: what WellFormed refuses, what the decoder reads, the spec's worked
values, one step of each command, and for every obligation with hypotheses a state that meets them. -/

namespace Sys2Proof.Tests

open Sys2Proof Sys2Proof.Machine

/-! ## Helpers -/

/-- A machine with one unit of each kind, the unit `k` being served with the stream `cmd`. -/
def machine (k : Nat) (d : DCtx) (h : HCtx) (cmd : Bytes) : State where
  units := [⟨.digest d, if k = 0 then cmd else [], [], .ok, 0⟩, ⟨.hmac h, if k = 1 then cmd else [], [], .ok, 0⟩,
    ⟨.pbkdf2, if k = 2 then cmd else [], [], .ok, 0⟩]
  cur := k
  turns := []
  resetLine := false
  scratchFromAllocator := true

/-- A digest unit in the context `d`. -/
def onD (d : DCtx) (cmd : Bytes) : State := machine 0 d HCtx.initial cmd

/-- An HMAC engine in the context `h`. -/
def onH (h : HCtx) (cmd : Bytes) : State := machine 1 DCtx.initial h cmd

/-- A PBKDF2 unit. -/
def onP (cmd : Bytes) : State := machine 2 DCtx.initial HCtx.initial cmd

/-- The next draw of every unit answers FAIL. -/
def failing (s : State) : State := { s with units := s.units.map fun u => { u with allocNext := .fail } }

/-- The step answers a next state that meets `p`. -/
def runs (o : Outcome) (p : State → Bool) : Bool :=
  match o with
  | .next t => p t
  | .fault _ => false
  | .refused _ => false

theorem runs_elim {o : Outcome} {p : State → Bool} (h : runs o p = true) : ∃ t, o = .next t ∧ p t = true := by
  cases o with
  | next t => exact ⟨t, rfl, h⟩
  | fault f => cases h
  | refused r => cases h

/-- The unit served has answered `r` last. -/
def answered (r : Response) (t : State) : Bool := t.lastResponse == some r

/-- "abc". -/
def abc : Bytes := [0x61, 0x62, 0x63]

/-- "key". -/
def key : Bytes := [0x6b, 0x65, 0x79]

/-- "The quick brown fox jumps over the lazy dog". -/
def fox : Bytes :=
  [0x54, 0x68, 0x65, 0x20, 0x71, 0x75, 0x69, 0x63, 0x6b, 0x20, 0x62, 0x72, 0x6f, 0x77, 0x6e, 0x20, 0x66, 0x6f, 0x78, 0x20]
    ++ [0x6a, 0x75, 0x6d, 0x70, 0x73, 0x20, 0x6f, 0x76, 0x65, 0x72, 0x20, 0x74, 0x68, 0x65, 0x20, 0x6c, 0x61, 0x7a, 0x79, 0x20]
    ++ [0x64, 0x6f, 0x67]

/-- "password". -/
def password : Bytes := [0x70, 0x61, 0x73, 0x73, 0x77, 0x6f, 0x72, 0x64]

/-- "salt". -/
def salt : Bytes := [0x73, 0x61, 0x6c, 0x74]

/-- An active digest context. -/
def dActive : DCtx := DCtx.initial.start .sha256

/-- A finalized digest context. -/
def dFinal : DCtx := { dActive with h := Vector.replicate 8 0, phase := .finalized }

/-- An active digest context one byte below the bound: 2^64 - 8 bits, 63 bytes held. -/
def dFull : DCtx := { dActive with bufLen := 63, totBits := BitVec.ofNat 128 (2 ^ 64 - 8) }

/-- A keyed HMAC context. -/
def hKeyed : HCtx := HCtx.initial.keyed .sha256 key

/-- A finalized HMAC context, with the fields the phase checks read. -/
def hFinal : HCtx := { hKeyed with inner := hKeyed.inner.close.2, phase := .finalized }

theorem hKeyed_inv : hKeyed.Inv := fun _ => keyed_inv _ _ _

theorem dActive_inv : dActive.Inv := start_dctx_inv _ _

theorem dFull_inv : dFull.Inv := by
  refine inv_of_active rfl ?_
  exact {
    bufLen_lt := by decide
    totBits_lt := by decide
    totBits_bytes := by decide
    bufLen_eq := by decide
    high_zero := by decide
    unused_zero := by decide }

/-- What each state serves. -/
theorem engines_served (d : DCtx) (h : HCtx) (cmd : Bytes) :
    (onD d cmd).engine? = some (.digest d) ∧ (onH h cmd).engine? = some (.hmac h) ∧ (onP cmd).engine? = some .pbkdf2 :=
  ⟨rfl, rfl, rfl⟩

/-- The machine of the tests meets the invariant. -/
theorem machine_inv (k : Nat) (hk : k < 3) (d : DCtx) (h : HCtx) (cmd : Bytes) (hd : d.Inv) (hh : h.Inv) : (machine k d h cmd).Inv where
  cur_lt := hk
  all_kinds := fun
    | .digest => ⟨_, List.mem_cons_self, rfl⟩
    | .hmac => ⟨_, List.mem_cons_of_mem _ List.mem_cons_self, rfl⟩
    | .pbkdf2 => ⟨_, List.mem_cons_of_mem _ (List.mem_cons_of_mem _ List.mem_cons_self), rfl⟩
  engines := by
    intro u hu
    simp only [machine, List.mem_cons, List.not_mem_nil, or_false] at hu
    rcases hu with rfl | rfl | rfl
    · exact hd
    · exact hh
    · trivial

/-! ## WellFormed: each check, with a term it refuses (30_encoding.md R76) -/

theorem test_wellFormed_refuses_dupd : ¬ (Instr.dupd (List.replicate (2 ^ 64) 0)).WellFormed := by
  simp only [Instr.WellFormed, Instr.wellFormed, fitsFrame, List.length_replicate]; decide
theorem test_wellFormed_refuses_hkey : ¬ (Instr.hkey .sha1 (List.replicate (2 ^ 64) 0)).WellFormed := by
  simp only [Instr.WellFormed, Instr.wellFormed, fitsFrame, List.length_replicate]; decide
theorem test_wellFormed_refuses_hupd : ¬ (Instr.hupd (List.replicate (2 ^ 64) 0)).WellFormed := by
  simp only [Instr.WellFormed, Instr.wellFormed, fitsFrame, List.length_replicate]; decide
theorem test_wellFormed_refuses_password : ¬ (Instr.pbkdf2 .sha1 (List.replicate (2 ^ 64) 0) [] 1 1).WellFormed := by
  simp only [Instr.WellFormed, Instr.wellFormed, fitsFrame, List.length_replicate]; decide
theorem test_wellFormed_refuses_salt : ¬ (Instr.pbkdf2 .sha1 [] (List.replicate (2 ^ 64) 0) 1 1).WellFormed := by
  simp only [Instr.WellFormed, Instr.wellFormed, fitsFrame, List.length_replicate]; decide
theorem test_wellFormed_accepts :
    (Instr.dupd (List.replicate (2 ^ 64 - 1) 0)).WellFormed ∧ (Instr.dinit .sha1).WellFormed ∧ Instr.dfin.WellFormed ∧
    (Instr.hfin 0xffffffff).WellFormed ∧ Instr.hreinit.WellFormed := by
  simp only [Instr.WellFormed, Instr.wellFormed, fitsFrame, List.length_replicate]; decide

/-! ## Decoding: words written out from R70, R74 and R78 -/

theorem test_decode_dinit : decodeFrame .digest [0x00, 0x00, 0x05, 0x01, 0xaa] = .command (.dinit .sha512) [0xaa] := by decide
theorem test_decode_dupd : decodeFrame .digest [0x00, 0x00, 0x00, 0x02, 0x00, 0x00, 0x00, 0x00, 0x00, 0x00, 0x00, 0x02, 0x61, 0x62, 0x63]
    = .command (.dupd [0x61, 0x62]) [0x63] := by decide
theorem test_decode_dfin : decodeFrame .digest [0x00, 0x00, 0x00, 0x03] = .command .dfin [] := by decide
theorem test_decode_hkey : decodeFrame .hmac [0x00, 0x00, 0x04, 0x11, 0x00, 0x00, 0x00, 0x00, 0x00, 0x00, 0x00, 0x01, 0x7f]
    = .command (.hkey .sha384 [0x7f]) [] := by decide
theorem test_decode_hupd : decodeFrame .hmac [0x00, 0x00, 0x00, 0x12, 0x00, 0x00, 0x00, 0x00, 0x00, 0x00, 0x00, 0x01, 0x80]
    = .command (.hupd [0x80]) [] := by decide
theorem test_decode_hfin : decodeFrame .hmac [0x00, 0x00, 0x00, 0x13, 0x12, 0x34, 0x56, 0x78] = .command (.hfin 0x12345678) [] := by decide
theorem test_decode_hreinit : decodeFrame .hmac [0x00, 0x00, 0x00, 0x14] = .command .hreinit [] := by decide
theorem test_decode_pbkdf2 : decodeFrame .pbkdf2 ([0x00, 0x00, 0x06, 0x21, 0x00, 0x00, 0x00, 0x00, 0x00, 0x00, 0x00, 0x01, 0x70]
    ++ [0x00, 0x00, 0x00, 0x00, 0x00, 0x00, 0x00, 0x02, 0x73, 0x74, 0x01, 0x02, 0x03, 0x04, 0x11, 0x12, 0x13, 0x14, 0x15, 0x16, 0x17, 0x18])
    = .command (.pbkdf2 .ripemd160 [0x70] [0x73, 0x74] 0x01020304 0x1112131415161718) [] := by decide
theorem test_decode_truncated : decodeFrame .digest [0x00, 0x00, 0x00] = .truncated ∧
    decodeFrame .hmac [0x00, 0x00, 0x00, 0x13, 0x00] = .truncated := by decide
theorem test_decode_illegal_skips_operands :
    decodeFrame .digest [0x80, 0x00, 0x00, 0x02, 0x00, 0x00, 0x00, 0x00, 0x00, 0x00, 0x00, 0x01, 0x61, 0x62]
      = .illegal .reservedBits [0x62] := by decide
/-- The host's one-word question (log 17): DFIN's word, and DINIT's with ALG 0, which R72 makes illegal. -/
theorem test_decodeTableWord : decodeTableWord 32 0x03 = some .dfin ∧ decodeTableWord 32 0x0601 = some (.dinit .ripemd160) ∧
    decodeTableWord 32 0x12 = some (.hupd []) ∧ decodeTableWord 32 0x01 = none := by decide
/-- After reset the word placed by the host is what the next step runs (log 16). -/
theorem test_withFetchWord : ∃ t u, step (State.reset.withFetchWord 32 0x0301) = .next t ∧ t.units[0]? = some u ∧
    u.rsp = [⟨.ok, none⟩] ∧ (∃ c, u.engine = .digest c ∧ c.phase = .active ∧ c.alg = .sha256) :=
  ⟨_, _, rfl, rfl, rfl, _, rfl, rfl, rfl⟩

/-! ## The assembler (R84 to R87) -/

theorem test_assemble_pbkdf2 :
    (assembleLine "pbkdf2 sha256, \"password\", \"salt\", 1, 32 ; R87".toList).map (·.map encode) =
      some [[0x00, 0x00, 0x03, 0x21, 0x00, 0x00, 0x00, 0x00, 0x00, 0x00, 0x00, 0x08]
        ++ [0x70, 0x61, 0x73, 0x73, 0x77, 0x6f, 0x72, 0x64, 0x00, 0x00, 0x00, 0x00, 0x00, 0x00, 0x00, 0x04, 0x73, 0x61, 0x6c, 0x74]
        ++ [0x00, 0x00, 0x00, 0x01, 0x00, 0x00, 0x00, 0x00, 0x00, 0x00, 0x00, 0x20]] := by decide +kernel
theorem test_assemble_operands :
    assembleLine "hupd rep(0xaa, 3)".toList = some [.hupd [0xaa, 0xaa, 0xaa]] ∧
    assembleLine "dupd x\"00Ff\"".toList = some [.dupd [0x00, 0xff]] ∧
    assembleLine "dupd \"a;,\"".toList = some [.dupd [0x61, 0x3b, 0x2c]] ∧
    assembleLine "hfin 4294967296".toList = none := by decide +kernel
theorem test_assemble_pseudo :
    assembleLine "digest sha1, \"abc\"".toList = some [.dinit .sha1, .dupd abc, .dfin] ∧
    assembleLine "hmac sha256, \"key\", \"\", 32".toList = some [.hkey .sha256 key, .hupd [], .hfin 32] := by decide +kernel

/-! ## Worked values of the spec -/

/-- R123's example: words of the schedule of the padded block of "abc". -/
theorem test_sha1_schedule : ([16, 17, 18, 19].map fun t => (sha1Schedule (abc ++ pad .sha1 3 24)).getD t 0) =
    [0xc2c4c700, 0x00000000, 0x00000030, 0x85898e01] := by decide +kernel
/-- R134's example. -/
theorem test_sha256_schedule : ([16, 17, 18, 19].map fun t => (sha256Schedule (abc ++ pad .sha256 3 24)).getD t 0) =
    [0x61626380, 0x000f0000, 0x7da86405, 0x600003c6] := by decide +kernel
/-- R177's example: the state after the padded block of "abc". -/
theorem test_ripemd160_block : compressRmd160 (Five.load (ivWords .ripemd160)) (abc ++ pad .ripemd160 3 24) =
    ⟨0xf708b28e, 0x7a985de0, 0x8e4a049b, 0x87b0c698, 0xfc0b5af1⟩ := by decide +kernel
/-- R126's example, as the program of R85. -/
theorem test_digest_sha1 : runs (runCommands (digestProgram .sha1 abc) (onD dFinal []))
    (answered ⟨.ok, some (beBytes 20 0xa9993e364706816aba3e25717850c26c9cd0d89d)⟩) = true := by decide +kernel
/-- R138's examples. -/
theorem test_digest_sha224 : runs (runCommands (digestProgram .sha224 abc) (onD dFinal []))
    (answered ⟨.ok, some (beBytes 28 0x23097d223405d8228642a477bda255b32aadbce4bda0b3f7e36c9da7)⟩) = true := by decide +kernel
theorem test_digest_sha256 : runs (runCommands (digestProgram .sha256 abc) (onD dFinal []))
    (answered ⟨.ok, some (beBytes 32 0xba7816bf8f01cfea414140de5dae2223b00361a396177a9cb410ff61f20015ad)⟩) = true := by decide +kernel
/-- R158's examples. -/
theorem test_digest_sha384 : runs (runCommands (digestProgram .sha384 abc) (onD dFinal []))
    (answered ⟨.ok, some (beBytes 48 0xcb00753f45a35e8bb5a03d699ac65007272c32ab0eded1631a8b605a43ff5bed8086072ba1e7cc2358baeca134c825a7)⟩)
    = true := by decide +kernel
theorem test_digest_sha512 : runs (runCommands (digestProgram .sha512 abc) (onD dFinal []))
    (answered ⟨.ok, some (beBytes 64 0xddaf35a193617abacc417349ae20413112e6fa4e89a97ea20a9eeee64b55d39a2192992a274fc1a836ba3c23a3feebbd454d4423643ce80e2a9ac94fa54ca49f)⟩)
    = true := by decide +kernel
/-- R179's examples. -/
theorem test_digest_ripemd160 : runs (runCommands (digestProgram .ripemd160 abc) (onD dFinal []))
    (answered ⟨.ok, some (beBytes 20 0x8eb208f7e05d987a9b044a8e98c6b087f15a0bfc)⟩) = true := by decide +kernel
/-- R204's example, as the program of R86, and its truncation to 16 bytes. -/
theorem test_hmac : runs (runCommands (hmacProgram .sha256 key fox 32) (onH HCtx.initial []))
      (answered ⟨.ok, some (beBytes 32 0xf7bc83f430538424b13298e6aa6fb143ef4d59a14946175997479dbc2d1a3cd8)⟩) = true ∧
    runs (runCommands (hmacProgram .sha256 key fox 16) (onH HCtx.initial []))
      (answered ⟨.ok, some (beBytes 16 0xf7bc83f430538424b13298e6aa6fb143)⟩) = true := by decide +kernel
/-- R227's values for two iterations and for an output of more than one block. -/
theorem test_pbkdf2 : runs (exec (.pbkdf2 .sha256 password salt 2 32) (onP []))
      (answered ⟨.ok, some (beBytes 32 0xae4d0c95af6b46d32d0adff928f06dd02a303f8ef3c251dfd6e2d85a95474c43)⟩) = true ∧
    runs (exec (.pbkdf2 .sha256 password salt 1 33) (onP []))
      (answered ⟨.ok, some (beBytes 33 0x120fb6cffcf8b32c43e7225256c4f837a86548c92ccc35480805987cb70be17b4d)⟩) = true := by decide +kernel

/-! ## One command, one field -/

/-- R100's example. -/
theorem test_dinit : runs (exec (.dinit .sha256) (onD dFinal [])) (fun t => t.engine? == some (.digest dActive)) = true := by decide +kernel
/-- R101's example. -/
theorem test_dupd : runs (exec (.dupd abc) (onD dActive [])) (fun t =>
    match t.engine? with
    | some (.digest c) => c.bufLen == 3 && firstBytes c.buf 3 == abc && c.totBits == 24 && c.h == ivWords .sha256
    | _ => false) = true := by decide +kernel
/-- R103, R106: DFIN wipes and finalizes. -/
theorem test_dfin : runs (exec .dfin (onD dActive [])) (fun t => t.engine? == some (.digest dFinal)) = true := by decide +kernel
/-- R242's example: a second DFIN is MISUSE(2). -/
theorem test_dfin_twice : runs (exec .dfin (onD dFinal [])) (answered ⟨.misuse .contextFinalized, none⟩) = true ∧
    (Response.mk (.misuse .contextFinalized) none).frame = [0x00, 0x00, 0x02, 0x02] := by decide +kernel
/-- R200's example. -/
theorem test_hkey : runs (exec (.hkey .sha256 key) (onH HCtx.initial [])) (fun t =>
    match t.engine? with
    | some (.hmac c) => firstBytes c.ipad 4 == [0x5d, 0x53, 0x4f, 0x36] && firstBytes c.opad 4 == [0x37, 0x39, 0x25, 0x5c] &&
        c.ibase.h == #v[0xce6cc13a, 0x481ee179, 0x741ff12a, 0x377e06dd, 0xa6103e89, 0x64a89364, 0x6c03368b, 0x82dceb35] &&
        c.obase.h == #v[0x3dec8b3e, 0x7eabbbec, 0x7fe6dd4d, 0x1727b9c9, 0x16cd5cbe, 0xce6cd05b, 0x590d78dc, 0xa9c44562]
    | _ => false) = true := by decide +kernel
/-- R203's example. -/
theorem test_hupd : runs (exec (.hupd fox) (onH hKeyed [])) (fun t =>
    match t.engine? with
    | some (.hmac c) => c.inner.totBits == 856 && c.outer == hKeyed.outer
    | _ => false) = true := by decide +kernel
/-- R204: the two checks of the MAC length, at its ends. -/
theorem test_hfin_lengths : runs (exec (.hfin 0) (onH hKeyed [])) (answered ⟨.precondition .noMac, none⟩) = true ∧
    runs (exec (.hfin 33) (onH hKeyed [])) (answered ⟨.precondition .macTooLong, none⟩) = true := by decide +kernel
/-- R206: HREINIT on a finalized context restores the baselines. -/
theorem test_hreinit : runs (exec .hreinit (onH hFinal [])) (fun t => t.engine? == some (.hmac hKeyed)) = true := by decide +kernel
/-- R221's example: PRECONDITION(1), not (2). -/
theorem test_pbkdf2_order : runs (exec (.pbkdf2 .sha256 [0x70] [0x73] 0 0) (onP [])) (answered ⟨.precondition .noIterations, none⟩) = true := by
  decide +kernel
/-- R222: a failed draw. -/
theorem test_pbkdf2_alloc : runs (exec (.pbkdf2 .sha256 [0x70] [0x73] 1 1) (failing (onP [])))
    (answered ⟨.allocFail, none⟩) = true := by decide +kernel
/-- R246's example: RSV before ALG. -/
theorem test_illegal_order : runs (step (onD dActive [0x00, 0x10, 0x00, 0x01]))
    (fun t => t.units.head?.map (·.rsp) == some [⟨.illegalCommand .reservedBits, none⟩]) = true := by decide +kernel
/-- R270: reset. -/
theorem test_reset : runs (step { onD dActive [0x00] with resetLine := true })
    (fun t => (t.units.map fun u => (u.engine, u.cmd, u.rsp)) ==
      [(.digest DCtx.initial, [], []), (.hmac HCtx.initial, [], []), (.pbkdf2, [], [])] && !t.resetLine) = true := by decide +kernel
/-- R61, R273: a frame to an idle unit is submitted; a second one, part of a frame, more than a frame, and a frame to no unit are not. -/
theorem test_submit :
    ((onD dActive []).submit 0 [0, 0, 0, 3]).map (·.units.head?.map (·.cmd)) = some (some [0, 0, 0, 3]) ∧
    (onD dActive [0, 0, 0, 3]).submit 0 [0, 0, 0, 3] = none ∧ (onD dActive []).submit 0 [0, 0, 0] = none ∧
    (onD dActive []).submit 0 [0, 0, 0, 3, 0, 0, 0, 3] = none ∧ (onD dActive []).submit 3 [0, 0, 0, 3] = none := by decide +kernel

end Sys2Proof.Tests
end

