-- ==== Sys2Proof/Tests/Witnesses.lean ====
section
/-! SUPPORT. For every obligation with hypotheses, a concrete state and operands that meet them all, one theorem or one conjunct
for each clause, at the ends of its ranges. -/

namespace Sys2Proof.Tests

open Sys2Proof Sys2Proof.Machine

/-! ## Encoding -/

theorem witness_DecodeEncodeRoundTrip :
    (Instr.pbkdf2 .ripemd160 [] (List.replicate (2 ^ 64 - 1) 0) 0xffffffff 0xffffffffffffffff).WellFormed ∧
    (Instr.hkey .sha1 (List.replicate (2 ^ 64 - 1) 0)).WellFormed := by
  simp only [Instr.WellFormed, Instr.wellFormed, fitsFrame, List.length_replicate]; decide

theorem witness_DecodedFrameIsEncoded : decodeFrame .hmac [0x00, 0x00, 0x00, 0x13, 0xff, 0xff, 0xff, 0xff, 0x01]
    = .command (.hfin 0xffffffff) [0x01] := by decide

/-- Each clause in turn: a reserved opcode, another kind, RSV, ALG at both ends of its two ranges, each legal word. -/
theorem witness_DecodeWordByFields :
    [(0x00000000, UnitKind.digest), (0x000000ff, .hmac), (0x00000021, .digest), (0x00001003, .digest), (0x80000014, .hmac),
      (0x00000001, .digest), (0x00000711, .hmac), (0x00000f21, .pbkdf2), (0x00000102, .digest), (0x00000f14, .hmac),
      (0x00000101, .digest), (0x00000611, .hmac), (0x00000321, .pbkdf2), (0x00000002, .digest), (0x00000003, .digest),
      (0x00000012, .hmac), (0x00000013, .hmac), (0x00000014, .hmac)].map (fun x => decodeWord x.1 x.2)
    = [.error .opcode, .error .opcode, .error .opcode, .error .reservedBits, .error .reservedBits,
      .error .badAlg, .error .badAlg, .error .badAlg, .error .algNotZero, .error .algNotZero,
      .ok (.dinit .sha1), .ok (.hkey .ripemd160), .ok (.pbkdf2 .sha256), .ok .dupd, .ok .dfin, .ok .hupd, .ok .hfin, .ok .hreinit] := by
  decide

theorem witness_FrameLengthByOpcode :
    (0x000000ff#32).toNat % 256 ∉ [0x01, 0x02, 0x03, 0x11, 0x12, 0x13, 0x14, 0x21] ∧
    (0xffffff14#32).toNat % 256 ∈ [0x01, 0x03, 0x14] ∧
    ((0x00000f12#32).toNat % 256 ∈ [0x02, 0x11, 0x12] ∧ (List.replicate (2 ^ 64 - 1) (0 : Byte)).length < 2 ^ 64) ∧
    ((0x00001013#32).toNat % 256 = 0x13 ∧ ([0xff, 0xff, 0xff, 0xff] : Bytes).length = 4) ∧
    ((0x00000021#32).toNat % 256 = 0x21 ∧ ([] : Bytes).length < 2 ^ 64 ∧ salt.length < 2 ^ 64 ∧ (zeros 4).length = 4 ∧
      (zeros 8).length = 8) := by
  simp only [List.length_replicate]; decide

theorem witness_WrongUnitKindIllegal :
    (Instr.dfin.WellFormed ∧ Instr.dfin.unit ≠ UnitKind.hmac) ∧
    ((onH hKeyed []).unit? = some ⟨.hmac hKeyed, [], [], .ok, 0⟩ ∧ Instr.dfin.unit ≠ (HwUnit.mk (.hmac hKeyed) [] [] .ok 0).kind) ∧
    ((onP []).unit? = some ⟨.pbkdf2, [], [], .ok, 0⟩ ∧ Instr.hreinit.unit ≠ (HwUnit.mk .pbkdf2 [] [] .ok 0).kind) :=
  ⟨⟨by decide, by decide⟩, ⟨rfl, by decide⟩, rfl, by decide⟩

theorem witness_IllegalWordAnswered : ∃ s u, s = onD dActive (beBytes 4 (0x00000102#32).toNat ++ (beBytes 8 1 ++ [0x61, 0x62])) ∧
    s.resetLine = false ∧ s.unit? = some u ∧ u.cmd = beBytes 4 (0x00000102#32).toNat ++ (beBytes 8 1 ++ [0x61, 0x62]) ∧
    decodeWord 0x00000102 u.kind = .error .algNotZero ∧ (decodeFrame u.kind u.cmd).rest? = some [0x62] :=
  ⟨_, _, rfl, rfl, rfl, rfl, by decide, by decide⟩

/-! ## Statuses and responses -/

theorem witness_ResponseFrameOfCommand :
    (∃ t, exec .dfin (onD dActive []) = .next t) ∧ (∃ t, exec (.dupd []) (onD dFinal []) = .next t) ∧ Status.allocFail ≠ .ok :=
  ⟨⟨_, rfl⟩, ⟨_, rfl⟩, by decide⟩

/-- A command that completes, one that is raised, one whose draw fails, and an illegal word. -/
theorem witness_RaisedStatusHasNoSideEffects :
    ((onD dFinal []).unit? = some ⟨.digest dFinal, [], [], .ok, 0⟩ ∧ ∃ t, exec (.dupd []) (onD dFinal []) = .next t) ∧
    ((onP []).unit? = some ⟨.pbkdf2, [], [], .ok, 0⟩ ∧ ∃ t, exec (.pbkdf2 .sha1 [] [] 1 1) (failing (onP [])) = .next t) ∧
    ((onD dActive [0, 0, 0, 4]).resetLine = false ∧
      (onD dActive [0, 0, 0, 4]).unit? = some ⟨.digest dActive, [0, 0, 0, 4], [], .ok, 0⟩ ∧
      decodeFrame (HwUnit.mk (.digest dActive) [0, 0, 0, 4] [] .ok 0).kind [0, 0, 0, 4] = .illegal .opcode []) :=
  ⟨⟨rfl, _, rfl⟩, ⟨rfl, (runs_elim (p := fun _ => true) (by decide +kernel)).imp fun _ h => h.1⟩, rfl, rfl, by decide⟩

/-- On each unit, and on a PBKDF2 unit whose scratch is not drawn. -/
theorem witness_CommandFrame :
    (∃ t, exec (.dinit .sha1) (onD dActive []) = .next t) ∧ (∃ t, exec .hreinit (onH hKeyed []) = .next t) ∧
    (∃ t, exec (.pbkdf2 .sha1 [] [] 0 1) { onP [] with scratchFromAllocator := false } = .next t) :=
  ⟨⟨_, rfl⟩, ⟨_, rfl⟩, _, rfl⟩

theorem witness_MisuseByPhase :
    ((onD DCtx.initial []).engine? = some (.digest DCtx.initial) ∧ DCtx.initial.phase = .empty) ∧
    ((onD dFinal []).engine? = some (.digest dFinal) ∧ dFinal.phase = .finalized) ∧
    ((onH HCtx.initial []).engine? = some (.hmac HCtx.initial) ∧ HCtx.initial.phase = .empty) ∧
    ((onH hFinal []).engine? = some (.hmac hFinal) ∧ hFinal.phase = .finalized) ∧
    (∃ t r, exec .dfin (onD dFinal []) = .next t ∧ t.lastResponse = some r ∧ r.status = .misuse .contextFinalized) :=
  ⟨⟨rfl, rfl⟩, ⟨rfl, rfl⟩, ⟨rfl, rfl⟩, ⟨rfl, rfl⟩, _, _, rfl, rfl, rfl⟩

/-- Each check at the end of its range: a MAC of 0 and of 33 bytes, no iteration, no output, one byte too long an output. -/
theorem witness_PreconditionChecks :
    ((onH hKeyed []).engine? = some (.hmac hKeyed) ∧ hKeyed.phase = .keyed ∧ hKeyed.alg.digestBytes < (33#32).toNat) ∧
    ((onP []).engine? = some .pbkdf2 ∧ (1#32) ≠ 0 ∧ (2 ^ 32 - 1) * Alg.sha512.digestBytes < (0x3fffffffc1#64).toNat) ∧
    (∃ t r, exec (.hfin 0) (onH hKeyed []) = .next t ∧ t.lastResponse = some r ∧ r.status = .precondition .noMac) ∧
    (∃ t r, exec (.pbkdf2 .sha512 [] [] 1 0x3fffffffc1) (onP []) = .next t ∧ t.lastResponse = some r ∧
      r.status = .precondition .outputTooLong) := by
  have h1 := runs_elim (show runs (exec (.hfin 0) (onH hKeyed [])) (answered ⟨.precondition .noMac, none⟩) = true by decide +kernel)
  have h2 := runs_elim (show runs (exec (.pbkdf2 .sha512 [] [] 1 0x3fffffffc1) (onP []))
    (answered ⟨.precondition .outputTooLong, none⟩) = true by decide +kernel)
  obtain ⟨t, ht, hr⟩ := h1
  obtain ⟨u, hu, hs⟩ := h2
  exact ⟨⟨rfl, rfl, by decide⟩, ⟨rfl, by decide, by decide⟩, ⟨t, _, ht, by simpa [answered] using hr, rfl⟩,
    u, _, hu, by simpa [answered] using hs, rfl⟩

/-- The longest output, a password of one block, and a draw of either kind. -/
theorem witness_AllocFailOnFailedDraw :
    ((onP []).engine? = some .pbkdf2 ∧ (1#32) ≠ 0 ∧ (0x3fffffffc0#64) ≠ 0 ∧
      (0x3fffffffc0#64).toNat ≤ (2 ^ 32 - 1) * Alg.sha512.digestBytes ∧ (zeros 128).length ≤ Alg.sha512.blockBytes ∧
      8 * (Alg.sha512.blockBytes + (List.replicate (2 ^ 61 - 133) (0 : Byte)).length + 4) < 2 ^ 64) ∧
    ((onP []).scratchFromAllocator = true ∧ (onP []).allocNext? = some .ok) ∧
    ((failing (onP [])).scratchFromAllocator = true ∧ (failing (onP [])).allocNext? = some .fail) ∧
    { onP [] with scratchFromAllocator := false }.scratchFromAllocator = false ∧
    (∃ t r, exec (.pbkdf2 .sha1 [] [] 1 1) (failing (onP [])) = .next t ∧ t.lastResponse = some r ∧
      r.status = .allocFail) := by
  have h := runs_elim (show runs (exec (.pbkdf2 .sha1 [] [] 1 1) (failing (onP []))) (answered ⟨.allocFail, none⟩) = true by
    decide +kernel)
  obtain ⟨t, ht, hr⟩ := h
  exact ⟨⟨rfl, by decide, by decide, by decide, by decide +kernel, by rw [List.length_replicate]; decide⟩, ⟨rfl, rfl⟩, ⟨rfl, rfl⟩, rfl,
    t, _, ht, by simpa [answered] using hr, rfl⟩

theorem witness_StatusesOfEachUnit :
    (Instr.dfin.unit = .digest ∧ (onD dFinal []).engine? = some (.digest dFinal) ∧
      ∃ t r, exec .dfin (onD dFinal []) = .next t ∧ t.lastResponse = some r) ∧
    (Instr.hreinit.unit = .hmac ∧ (onH hFinal []).engine? = some (.hmac hFinal) ∧
      ∃ t r, exec .hreinit (onH hFinal []) = .next t ∧ t.lastResponse = some r) :=
  ⟨⟨rfl, rfl, _, _, rfl, rfl⟩, rfl, rfl, _, _, rfl, rfl⟩

/-- Each context one byte below the bound, on which no byte more fits; a key and a salt at the bound. -/
theorem witness_RefusedExactlyPastBound :
    ((onD dFull []).engine? = some (.digest dFull) ∧ dFull.phase = .active ∧ 2 ^ 64 ≤ dFull.totBits.toNat + 8 * ([0] : Bytes).length ∧
      ¬ 2 ^ 64 ≤ dFull.totBits.toNat + 8 * ([] : Bytes).length) ∧
    ((onH hKeyed []).engine? = some (.hmac hKeyed) ∧ hKeyed.Inv ∧ hKeyed.phase = .keyed ∧
      2 ^ 64 ≤ hKeyed.inner.totBits.toNat + 8 * (List.replicate (2 ^ 61 - 64) (0 : Byte)).length ∧
      ¬ 2 ^ 64 ≤ hKeyed.inner.totBits.toNat + 8 * (List.replicate (2 ^ 61 - 65) (0 : Byte)).length) ∧
    (Alg.sha256.blockBytes < (List.replicate (2 ^ 61) (0 : Byte)).length ∧ 2 ^ 64 ≤ 8 * (List.replicate (2 ^ 61) (0 : Byte)).length) ∧
    ((onP []).engine? = some .pbkdf2 ∧ (1#32) ≠ 0 ∧ (1#64) ≠ 0 ∧ (1#64).toNat ≤ (2 ^ 32 - 1) * Alg.sha256.digestBytes ∧
      2 ^ 64 ≤ 8 * (Alg.sha256.blockBytes + (List.replicate (2 ^ 61 - 68) (0 : Byte)).length + 4)) ∧
    (onH hKeyed []).Inv := by
  have ht : hKeyed.inner.totBits.toNat = 8 * Alg.sha256.blockBytes := keyed_inner.1
  rw [ht]
  simp only [List.length_replicate]
  exact ⟨⟨rfl, rfl, by decide, by decide⟩, ⟨rfl, hKeyed_inv, rfl, by decide, by decide⟩, ⟨by decide, by decide⟩,
    ⟨rfl, by decide, by decide, by decide, by decide⟩, machine_inv _ (by decide) _ _ _ trivial hKeyed_inv⟩

theorem witness_StatusPriority :
    ((onD dActive [0, 0, 0, 1]).resetLine = false ∧ (onD dActive [0, 0, 0, 1]).unit? = some ⟨.digest dActive, [0, 0, 0, 1], [], .ok, 0⟩ ∧
      decodeFrame (HwUnit.mk (.digest dActive) [0, 0, 0, 1] [] .ok 0).kind [0, 0, 0, 1] = .illegal .badAlg []) ∧
    ((onD dFinal []).engine? = some (.digest dFinal) ∧ dFinal.phase = .finalized) ∧
    ((onH HCtx.initial []).engine? = some (.hmac HCtx.initial) ∧ HCtx.initial.phase = .empty) ∧
    ((onP []).engine? = some .pbkdf2 ∧ (1#32) ≠ 0 ∧ (2 ^ 32 - 1) * Alg.sha1.digestBytes < (0xffffffffffffffff#64).toNat) ∧
    ((20#64) ≠ 0 ∧ (20#64).toNat ≤ (2 ^ 32 - 1) * Alg.sha1.digestBytes ∧
      (Alg.sha1.blockBytes < (List.replicate (2 ^ 61) (0 : Byte)).length ∧ 2 ^ 64 ≤ 8 * (List.replicate (2 ^ 61) (0 : Byte)).length)) := by
  simp only [List.length_replicate]
  exact ⟨⟨rfl, rfl, by decide⟩, ⟨rfl, rfl⟩, ⟨rfl, rfl⟩, ⟨rfl, by decide, by decide⟩, by decide, by decide, by decide, by decide⟩

/-! ## The step -/

/-- A command that answers, and one that is refused. -/
theorem witness_StepRunsDecodedCommand :
    (∃ u s', (onD dActive [0, 0, 0, 3]).resetLine = false ∧ (onD dActive [0, 0, 0, 3]).unit? = some u ∧
      decodeFrame u.kind u.cmd = .command .dfin [] ∧
      s' = { onD dActive [0, 0, 0, 3] with units := (onD dActive [0, 0, 0, 3]).units.set 0 { u with cmd := [] } } ∧
      ∃ t, exec .dfin s' = .next t) ∧
    (∃ u, (onD dFull ([0, 0, 0, 2] ++ (beBytes 8 1 ++ [0]))).unit? = some u ∧ decodeFrame u.kind u.cmd = .command (.dupd [0]) [] ∧
      exec (.dupd [0]) (onD dFull []) = .refused .messageTooLong) :=
  ⟨⟨_, _, rfl, rfl, by decide, rfl, _, rfl⟩, _, rfl, by decide, by rfl⟩

theorem witness_IdleUnitUnchanged :
    (onD dActive []).resetLine = false ∧ (onD dActive []).units[0]? = some ⟨.digest dActive, [], [], .ok, 0⟩ ∧
    (onD dActive []).units[1]? = some ⟨.hmac HCtx.initial, [], [], .ok, 0⟩ ∧ 0 = (onD dActive []).cur ∧
    ∃ t, step (onD dActive []) = .next t := ⟨rfl, rfl, rfl, rfl, _, rfl⟩

theorem witness_ResetEvent : ∃ s : State, s = { onD dActive [0, 0] with resetLine := true } ∧ s.resetLine = true ∧
    s.units[0]? = some ⟨.digest dActive, [0, 0], [], .ok, 0⟩ := ⟨_, rfl, rfl, rfl⟩

theorem witness_StepKeepsInv : (onD dActive [0, 0, 0, 3]).Inv ∧ ∃ t, step (onD dActive [0, 0, 0, 3]) = .next t :=
  ⟨machine_inv _ (by decide) _ _ _ dActive_inv (fun h => absurd rfl h), _, rfl⟩

/-- All three outcomes the statement names, a state that keeps the host's duties, and a frame that is submitted and served. -/
theorem witness_StepAnswersOrRefuses :
    (onD dFull ([0, 0, 0, 2] ++ (beBytes 8 1 ++ [0]))).Inv ∧
    step (onD dFull ([0, 0, 0, 2] ++ (beBytes 8 1 ++ [0]))) = .refused .messageTooLong ∧
    step (onD dFull [0, 0]) = .refused .truncatedFrame ∧ (∃ t, step (onD dFull []) = .next t) ∧
    (onD dFull ([0, 0, 0, 2] ++ (beBytes 8 1 ++ [0]))).Serial ∧
    ((onD dActive []).Serial ∧ ∃ t u, (onD dActive []).submit 0 [0, 0, 0, 3] = some t ∧ step t = .next u) := by
  refine ⟨machine_inv _ (by decide) _ _ _ dFull_inv (fun h => absurd rfl h), rfl, rfl, ⟨_, rfl⟩, ?_, ?_, _, _, rfl, rfl⟩ <;>
    · intro u hu
      simp only [onD, machine, List.mem_cons, List.not_mem_nil, or_false] at hu
      rcases hu with rfl | rfl | rfl <;> decide

/-- Two active contexts that differ in the bytes of `BUF` no rule reads. -/
theorem witness_UnspecifiedFieldsUnread : ∃ d : DCtx, d = { dActive with buf := Vector.replicate 128 0xff } ∧ d ≠ dActive ∧
    (onD dActive []).engine? = some (.digest dActive) ∧ (onD d []).engine? = some (.digest d) ∧
    (Engine.digest dActive).Agree (.digest d) ∧ (onD dActive []).scratchFromAllocator = (onD d []).scratchFromAllocator ∧
    (onD dActive []).allocNext? = (onD d []).allocNext? ∧ ∃ t, exec .dfin (onD dActive []) = .next t :=
  ⟨_, rfl, by decide +kernel, rfl, rfl, activeAgree_agree ⟨rfl, rfl, rfl, rfl, by decide, fun _ _ _ => rfl⟩, rfl, rfl, _, rfl⟩

/-! ## Compression cores -/

/-- A schedule that meets R123 for the padded block of "abc". -/
def sha1Words : List (BitVec 32) :=
    [0x61626380, 0x00000000, 0x00000000, 0x00000000, 0x00000000, 0x00000000, 0x00000000, 0x00000000, 0x00000000, 0x00000000]
    ++ [0x00000000, 0x00000000, 0x00000000, 0x00000000, 0x00000000, 0x00000018, 0xc2c4c700, 0x00000000, 0x00000030, 0x85898e01]
    ++ [0x00000000, 0x00000060, 0x0b131c03, 0x00000030, 0x85898ec1, 0x16263806, 0x00000000, 0x00000180, 0x2c4c700c, 0x000000f0]
    ++ [0x93afb507, 0x5898e048, 0x8e9a9202, 0x00000600, 0xb131c0f0, 0x16263bc6, 0x4ebed41e, 0x626380a1, 0x16263806, 0x000018c0]
    ++ [0xd2e138c4, 0x00000f00, 0x3afb5079, 0x898e04e5, 0xe2ba3c2b, 0x000060c0, 0x053a37cd, 0x74458547, 0xda9415ed, 0x26380a16]
    ++ [0x626383a1, 0x4ebf54de, 0x3835b44b, 0x0000f600, 0x1e84c7a3, 0x98e04d98, 0x651d16a0, 0x62658ca1, 0x458544d6, 0x44584cb7]
    ++ [0x7ba06619, 0x6380aea2, 0x0ae55269, 0x627b49a1, 0x7cd45c9d, 0x000f0000, 0xfb50753a, 0xec6765e8, 0xba3c2be2, 0x0060c000]
    ++ [0x3a37cd05, 0x458546f4, 0xb8599dd6, 0x380a1a26, 0x01e02203, 0xe7cc3456, 0xe6e60b69, 0x00f60a00, 0x5795ef4f, 0x822e0879]

/-- A schedule that meets R134 for it. -/
def sha256Words : List (BitVec 32) :=
    [0x61626380, 0x00000000, 0x00000000, 0x00000000, 0x00000000, 0x00000000, 0x00000000, 0x00000000]
    ++ [0x00000000, 0x00000000, 0x00000000, 0x00000000, 0x00000000, 0x00000000, 0x00000000, 0x00000018]
    ++ [0x61626380, 0x000f0000, 0x7da86405, 0x600003c6, 0x3e9d7b78, 0x0183fc00, 0x12dcbfdb, 0xe2e2c38e]
    ++ [0xc8215c1a, 0xb73679a2, 0xe5bc3909, 0x32663c5b, 0x9d209d67, 0xec8726cb, 0x702138a4, 0xd3b7973b]
    ++ [0x93f5997f, 0x3b68ba73, 0xaff4ffc1, 0xf10a5c62, 0x0a8b3996, 0x72af830a, 0x9409e33e, 0x24641522]
    ++ [0x9f47bf94, 0xf0a64f5a, 0x3e246a79, 0x27333ba3, 0x0c4763f2, 0x840abf27, 0x7a290d5d, 0x065c43da]
    ++ [0xfb3e89cb, 0xcc7617db, 0xb9e66c34, 0xa9993667, 0x84badedd, 0xc21462bc, 0x1487472c, 0xb20f7a99]
    ++ [0xef57b9cd, 0xebe6b238, 0x9fe3095e, 0x78bc8d4b, 0xa43fcf15, 0x668b2ff8, 0xeeaba2cc, 0x12b1edeb]

/-- A schedule that meets R154 for the padded block of "abc". -/
def sha512Words : List (BitVec 64) :=
    [0x6162638000000000, 0x0000000000000000, 0x0000000000000000, 0x0000000000000000, 0x0000000000000000]
    ++ [0x0000000000000000, 0x0000000000000000, 0x0000000000000000, 0x0000000000000000, 0x0000000000000000]
    ++ [0x0000000000000000, 0x0000000000000000, 0x0000000000000000, 0x0000000000000000, 0x0000000000000000]
    ++ [0x0000000000000018, 0x6162638000000000, 0x00030000000000c0, 0x0a9699a24c700003, 0x00000c0060000603]
    ++ [0x549ef62639858996, 0x00c0003300003c00, 0x1497007a8a0e9dbc, 0x62e56500cc0780f0, 0x7760dd475a538797]
    ++ [0xf1554b711c1c0003, 0xca2993a4345d9ff2, 0x5e0e66b5c783dd32, 0xe25a625d00494b62, 0x9f44486fb1e4fbd2]
    ++ [0xb31b8c2b06085f2f, 0x0e987660934142f6, 0xa4af2cfd09fbb924, 0xad289e2e0bd53186, 0x3c74563aa2f9673e]
    ++ [0x6ccdcd14cc14b53f, 0xc3f925b337f22bde, 0x5bcc77a75ad95b54, 0x3ec2257adca09a52, 0x28246960001fc5eb]
    ++ [0x04e33a75ce2be88a, 0x7d5314b3c359e0e7, 0xaef7a285ff251266, 0x0b8472581deea04f, 0xb174e26eddc7b033]
    ++ [0x5d63bae58ddd88de, 0x4c044007b744ccbb, 0xe6a9aa4d74dc7d43, 0xebeaf1237248019c, 0x361e80b2d00f3193]
    ++ [0x2e9839125df3b175, 0x3319629293ad5363, 0x9cbc5d89ac1b89d5, 0x275e23ffeeca50b7, 0x3b80d680bf69ef58]
    ++ [0x0d0696933945a125, 0x7533eabcb786ff00, 0xb89826cee6fbf0e5, 0x249b4fbcad623e9f, 0x4aea9df2b02d6f1e]
    ++ [0x2cc57475a55e8d8f, 0xb2574ae938d8be89, 0xc1b35a57b16d6aea, 0xcc4918b5949206bb, 0x5099c3add79f90ec]
    ++ [0x5ea81d78e7660bf1, 0xebee6267405ac2a9, 0xb01f21926108a4ab, 0x786433dd2fe65556, 0xc54a6eaa24a0552c]
    ++ [0xb3c8f1530bdbaa9e, 0xbb8abfe56f469338, 0xf63d4265cc1c5a78, 0xbe8355ea73129afb, 0x49e2db8ebdcfbeb5]
    ++ [0x82269d4a883a3d99, 0xfdf53df3011f362b, 0x464af5671d71c12e, 0xe449b68198ec611c, 0x92aeeed1a7bcf7d2]

/-- The padded block of "abc" for a block of 64 bytes, and for one of 128. -/
def abcBlock (a : Alg) : Bytes := abc ++ pad a 3 24

theorem witness_Sha1CompressionLoop : ∃ (W K : Nat → BitVec 32) (f : Nat → BitVec 32 → BitVec 32 → BitVec 32 → BitVec 32),
    (∀ t, t < 16 → W t = BitVec.ofNat 32 (fromBE (((abcBlock .sha1).drop (4 * t)).take 4))) ∧
    (∀ t, 16 ≤ t → t < 80 → W t = (W (t - 3) ^^^ W (t - 8) ^^^ W (t - 14) ^^^ W (t - 16)).rotateLeft 1) ∧
    (∀ t, t < 80 → K t = (if t ≤ 19 then 0x5a827999 else if t ≤ 39 then 0x6ed9eba1 else if t ≤ 59 then 0x8f1bbcdc else 0xca62c1d6)) ∧
    (∀ t b c d, t ≤ 19 → f t b c d = (b &&& c) ||| (~~~b &&& d)) ∧
    (∀ t b c d, 20 ≤ t → t ≤ 39 → f t b c d = b ^^^ c ^^^ d) ∧
    (∀ t b c d, 40 ≤ t → t ≤ 59 → f t b c d = (b &&& c) ||| (b &&& d) ||| (c &&& d)) ∧
    (∀ t b c d, 60 ≤ t → t ≤ 79 → f t b c d = b ^^^ c ^^^ d) := by
  have h : ∀ t, t < 80 → 16 ≤ t → sha1Words.getD t 0 =
      (sha1Words.getD (t - 3) 0 ^^^ sha1Words.getD (t - 8) 0 ^^^ sha1Words.getD (t - 14) 0 ^^^ sha1Words.getD (t - 16) 0).rotateLeft 1 := by
    decide +kernel
  refine ⟨fun t => sha1Words.getD t 0, _, fun t b c d =>
    if t ≤ 19 then (b &&& c) ||| (~~~b &&& d) else if t ≤ 39 then b ^^^ c ^^^ d
    else if t ≤ 59 then (b &&& c) ||| (b &&& d) ||| (c &&& d) else b ^^^ c ^^^ d, by decide +kernel, fun t a b => h t b a, fun _ _ => rfl,
    fun t b c d h1 => ?_, fun t b c d h1 h2 => ?_, fun t b c d h1 h2 => ?_, fun t b c d h1 h2 => ?_⟩
  · exact if_pos h1
  · exact (if_neg (by omega)).trans (if_pos h2)
  · exact (if_neg (by omega)).trans ((if_neg (by omega)).trans (if_pos h2))
  · exact (if_neg (by omega)).trans ((if_neg (by omega)).trans (if_neg (by omega)))

theorem witness_Sha256CompressionLoop : ∃ (W : Nat → BitVec 32) (s0 s1 : BitVec 32 → BitVec 32),
    (∀ x, s0 x = x.rotateRight 7 ^^^ x.rotateRight 18 ^^^ (x >>> 3)) ∧
    (∀ x, s1 x = x.rotateRight 17 ^^^ x.rotateRight 19 ^^^ (x >>> 10)) ∧
    (∀ t, t < 16 → W t = BitVec.ofNat 32 (fromBE (((abcBlock .sha256).drop (4 * t)).take 4))) ∧
    (∀ t, 16 ≤ t → t < 64 → W t = s1 (W (t - 2)) + W (t - 7) + s0 (W (t - 15)) + W (t - 16)) := by
  have h : ∀ t, t < 64 → 16 ≤ t → sha256Words.getD t 0 =
      (fun x : BitVec 32 => x.rotateRight 17 ^^^ x.rotateRight 19 ^^^ (x >>> 10)) (sha256Words.getD (t - 2) 0) + sha256Words.getD (t - 7) 0 +
      (fun x : BitVec 32 => x.rotateRight 7 ^^^ x.rotateRight 18 ^^^ (x >>> 3)) (sha256Words.getD (t - 15) 0) +
      sha256Words.getD (t - 16) 0 := by decide +kernel
  exact ⟨fun t => sha256Words.getD t 0, _, _, fun _ => rfl, fun _ => rfl, by decide +kernel, fun t a b => h t b a⟩

theorem witness_Sha512CompressionLoop : ∃ (W : Nat → BitVec 64) (s0 s1 : BitVec 64 → BitVec 64),
    (∀ x, s0 x = x.rotateRight 1 ^^^ x.rotateRight 8 ^^^ (x >>> 7)) ∧
    (∀ x, s1 x = x.rotateRight 19 ^^^ x.rotateRight 61 ^^^ (x >>> 6)) ∧
    (∀ t, t < 16 → W t = BitVec.ofNat 64 (fromBE (((abcBlock .sha512).drop (8 * t)).take 8))) ∧
    (∀ t, 16 ≤ t → t < 80 → W t = s1 (W (t - 2)) + W (t - 7) + s0 (W (t - 15)) + W (t - 16)) := by
  have h : ∀ t, t < 80 → 16 ≤ t → sha512Words.getD t 0 =
      (fun x : BitVec 64 => x.rotateRight 19 ^^^ x.rotateRight 61 ^^^ (x >>> 6)) (sha512Words.getD (t - 2) 0) + sha512Words.getD (t - 7) 0 +
      (fun x : BitVec 64 => x.rotateRight 1 ^^^ x.rotateRight 8 ^^^ (x >>> 7)) (sha512Words.getD (t - 15) 0) +
      sha512Words.getD (t - 16) 0 := by decide +kernel
  exact ⟨fun t => sha512Words.getD t 0, _, _, fun _ => rfl, fun _ => rfl, by decide +kernel, fun t a b => h t b a⟩

/-- The functions `Ch`, `Maj`, `Σ0` and `Σ1` of the two statements are given by equations for every operand, so they exist. -/
theorem witness_Sha2Functions (w a b c : Nat) : ∃ (Ch Maj : BitVec w → BitVec w → BitVec w → BitVec w) (S : BitVec w → BitVec w),
    (∀ x y z, Ch x y z = (x &&& y) ^^^ (~~~x &&& z)) ∧ (∀ x y z, Maj x y z = (x &&& y) ^^^ (x &&& z) ^^^ (y &&& z)) ∧
    (∀ x, S x = x.rotateRight a ^^^ x.rotateRight b ^^^ x.rotateRight c) :=
  ⟨_, _, _, fun _ _ _ => rfl, fun _ _ _ => rfl, fun _ => rfl⟩

theorem witness_Ripemd160CompressionLoop : ∃ (X : Nat → BitVec 32) (F : Nat → BitVec 32 → BitVec 32 → BitVec 32 → BitVec 32)
    (K K' : Nat → BitVec 32),
    (∀ k, k < 16 → X k = BitVec.ofNat 32 (fromLE (((abcBlock .ripemd160).drop (4 * k)).take 4))) ∧
    (∀ x y z, F 0 x y z = x ^^^ y ^^^ z ∧ F 1 x y z = (x &&& y) ||| (~~~x &&& z) ∧ F 2 x y z = (x ||| ~~~y) ^^^ z ∧
      F 3 x y z = (x &&& z) ||| (y &&& ~~~z) ∧ F 4 x y z = x ^^^ (y ||| ~~~z)) ∧
    (K 0 = 0x00000000 ∧ K 1 = 0x5a827999 ∧ K 2 = 0x6ed9eba1 ∧ K 3 = 0x8f1bbcdc ∧ K 4 = 0xa953fd4e) ∧
    (K' 0 = 0x50a28be6 ∧ K' 1 = 0x5c4dd124 ∧ K' 2 = 0x6d703ef3 ∧ K' 3 = 0x7a6d76e9 ∧ K' 4 = 0x00000000) :=
  ⟨_, fun n x y z => if n = 0 then x ^^^ y ^^^ z else if n = 1 then (x &&& y) ||| (~~~x &&& z) else if n = 2 then (x ||| ~~~y) ^^^ z
      else if n = 3 then (x &&& z) ||| (y &&& ~~~z) else x ^^^ (y ||| ~~~z),
    fun n => [0x00000000, 0x5a827999, 0x6ed9eba1, 0x8f1bbcdc, 0xa953fd4e].getD n 0,
    fun n => [0x50a28be6, 0x5c4dd124, 0x6d703ef3, 0x7a6d76e9, 0x00000000].getD n 0,
    fun _ _ => rfl, fun _ _ _ => ⟨rfl, rfl, rfl, rfl, rfl⟩, ⟨rfl, rfl, rfl, rfl, rfl⟩, rfl, rfl, rfl, rfl, rfl⟩

/-! ## Digest unit -/

/-- DINIT in each phase, and DINIT's word with ALG 0 and with ALG 7. -/
theorem witness_DinitResult :
    ((onD DCtx.initial []).engine? = some (.digest DCtx.initial) ∧ (onD dActive []).engine? = some (.digest dActive) ∧
      (onD dFinal []).engine? = some (.digest dFinal)) ∧
    (∃ u, (onD dActive (beBytes 4 (0x00000701#32).toNat ++ [])).resetLine = false ∧
      (onD dActive (beBytes 4 (0x00000701#32).toNat ++ [])).unit? = some u ∧ u.kind = .digest ∧ (0x00000701#32).toNat % 256 = 0x01 ∧
      (0x00000701#32).toNat / 4096 = 0 ∧ (0x00000701#32).toNat / 256 % 16 ∉ [1, 2, 3, 4, 5, 6] ∧
      u.cmd = beBytes 4 (0x00000701#32).toNat ++ []) ∧
    (0x00000001#32).toNat / 256 % 16 ∉ [1, 2, 3, 4, 5, 6] :=
  ⟨⟨rfl, rfl, rfl⟩, ⟨_, rfl, rfl, rfl, rfl, rfl, by decide, rfl⟩, by decide⟩

/-- An empty message on a context one byte below the bound, and a block that fills `BUF`. -/
theorem witness_DupdResult :
    ((onD dFull []).engine? = some (.digest dFull) ∧ dFull.phase = .active ∧ dFull.Inv ∧
      dFull.totBits.toNat + 8 * ([] : Bytes).length < 2 ^ 64) ∧
    (dActive.phase = .active ∧ dActive.Inv ∧ dActive.totBits.toNat + 8 * (zeros 64).length < 2 ^ 64) :=
  ⟨⟨rfl, rfl, dFull_inv, by decide⟩, rfl, dActive_inv, by decide⟩

theorem witness_DupdAbsorbsBytewise :
    ((onD DCtx.initial []).engine? = some (.digest DCtx.initial) ∧ DCtx.initial.phase = .empty) ∧ dFinal.phase = .finalized ∧
    (dFull.phase = .active ∧ 2 ^ 64 ≤ dFull.totBits.toNat + 8 * ([0] : Bytes).length ∧
      dFull.totBits.toNat + 8 * ([] : Bytes).length < 2 ^ 64) ∧
    dFull.bufLen.toNat + 1 = dFull.alg.blockBytes ∧ dActive.bufLen.toNat + 1 ≠ dActive.alg.blockBytes ∧
    (∃ c', (dActive.start .sha256).update [0x61, 0x62, 0x63] = .ok c') :=
  ⟨⟨rfl, rfl⟩, rfl, ⟨rfl, by decide, by decide⟩, by decide, by decide, _, rfl⟩

theorem witness_ChunkingInvariance :
    ((onD dActive []).engine? = some (.digest dActive) ∧ dActive.phase = .active ∧
      dActive.totBits.toNat + 8 * ([abc, [], zeros 64] : List Bytes).flatten.length < 2 ^ 64) ∧
    ((onH hKeyed []).engine? = some (.hmac hKeyed) ∧ hKeyed.phase = .keyed ∧ hKeyed.Inv ∧
      hKeyed.inner.totBits.toNat + 8 * (abc.length + (List.replicate (2 ^ 61 - 68) (0 : Byte)).length) < 2 ^ 64) := by
  have ht : hKeyed.inner.totBits.toNat = 8 * Alg.sha256.blockBytes := keyed_inner.1
  rw [ht, List.length_replicate]
  exact ⟨⟨rfl, rfl, by decide⟩, rfl, rfl, hKeyed_inv, by decide⟩

theorem witness_DfinResult :
    ((onD DCtx.initial []).engine? = some (.digest DCtx.initial) ∧ DCtx.initial.phase = .empty) ∧
    ((onD dFinal []).engine? = some (.digest dFinal) ∧ dFinal.phase = .finalized) ∧
    ((onD dFull []).engine? = some (.digest dFull) ∧ dFull.phase = .active) := ⟨⟨rfl, rfl⟩, ⟨rfl, rfl⟩, rfl, rfl⟩

/-- The last `BUFLEN` whose padding takes one block, the first that takes two, and the last of all. -/
theorem witness_PaddingFillsBlock :
    55 < Alg.sha1.blockBytes ∧ 55 ≤ Alg.sha1.blockBytes - Alg.sha1.lengthBytes - 1 ∧
    ¬ 56 ≤ Alg.sha1.blockBytes - Alg.sha1.lengthBytes - 1 ∧
    111 ≤ Alg.sha512.blockBytes - Alg.sha512.lengthBytes - 1 ∧ ¬ 112 ≤ Alg.sha512.blockBytes - Alg.sha512.lengthBytes - 1 ∧
    127 < Alg.sha512.blockBytes := by decide

theorem witness_DigestClosedForm : (onD dFinal []).engine? = some (.digest dFinal) ∧
    8 * (List.replicate (2 ^ 61 - 1) (0 : Byte)).length < 2 ^ 64 := by
  rw [List.length_replicate]; exact ⟨rfl, by decide⟩

/-! ## HMAC engine -/

/-- A key of one block, one a byte longer, one at the bound, and HKEY's word with ALG 15. -/
theorem witness_HkeyResult :
    (onH hFinal []).engine? = some (.hmac hFinal) ∧
    (Alg.sha256.blockBytes < (List.replicate (2 ^ 61) (0 : Byte)).length ∧ 2 ^ 64 ≤ 8 * (List.replicate (2 ^ 61) (0 : Byte)).length) ∧
    ¬ (Alg.sha256.blockBytes < (zeros 64).length ∧ 2 ^ 64 ≤ 8 * (zeros 64).length) ∧
    ¬ (Alg.sha256.blockBytes < (zeros 65).length ∧ 2 ^ 64 ≤ 8 * (zeros 65).length) ∧
    (∃ u, (onH hKeyed (beBytes 4 (0x00000f11#32).toNat ++ (beBytes 8 key.length ++ key ++ [0x09]))).resetLine = false ∧
      (onH hKeyed (beBytes 4 (0x00000f11#32).toNat ++ (beBytes 8 key.length ++ key ++ [0x09]))).unit? = some u ∧ u.kind = .hmac ∧
      (0x00000f11#32).toNat % 256 = 0x11 ∧ (0x00000f11#32).toNat / 4096 = 0 ∧
      (0x00000f11#32).toNat / 256 % 16 ∉ [1, 2, 3, 4, 5, 6] ∧ key.length < 2 ^ 64 ∧
      u.cmd = beBytes 4 (0x00000f11#32).toNat ++ (beBytes 8 key.length ++ key ++ [0x09])) := by
  simp only [List.length_replicate]
  exact ⟨rfl, ⟨by decide, by decide⟩, by decide, by decide, _, rfl, rfl, rfl, rfl, rfl, by decide, by decide, rfl⟩

theorem witness_KeyNormalization :
    (zeros 64).length ≤ Alg.sha1.blockBytes ∧ (zeros 64).length = Alg.sha1.blockBytes ∧
    (Alg.sha1.blockBytes < (zeros 65).length ∧ 8 * (zeros 65).length < 2 ^ 64) := by decide

theorem witness_HupdResult :
    ((onH HCtx.initial []).engine? = some (.hmac HCtx.initial) ∧ HCtx.initial.phase = .empty) ∧ hFinal.phase = .finalized ∧
    ((onH hKeyed []).engine? = some (.hmac hKeyed) ∧ hKeyed.phase = .keyed ∧ hKeyed.Inv ∧
      2 ^ 64 ≤ hKeyed.inner.totBits.toNat + 8 * (List.replicate (2 ^ 61 - 64) (0 : Byte)).length ∧
      hKeyed.inner.totBits.toNat + 8 * (List.replicate (2 ^ 61 - 65) (0 : Byte)).length < 2 ^ 64 ∧
      hKeyed.inner.totBits.toNat + 8 * (abc.length + fox.length) < 2 ^ 64) ∧ fox.length = 43 := by
  have ht : hKeyed.inner.totBits.toNat = 8 * Alg.sha256.blockBytes := keyed_inner.1
  rw [ht, List.length_replicate, List.length_replicate]
  exact ⟨⟨rfl, rfl⟩, rfl, ⟨rfl, rfl, hKeyed_inv, by decide, by decide, by decide⟩, by decide⟩

/-- MACs of no byte, of one, of a whole digest, and of one byte more. -/
theorem witness_HfinResult :
    ((onH HCtx.initial []).engine? = some (.hmac HCtx.initial) ∧ HCtx.initial.phase = .empty) ∧ hFinal.phase = .finalized ∧
    ((onH hKeyed []).engine? = some (.hmac hKeyed) ∧ hKeyed.phase = .keyed ∧ hKeyed.Inv ∧ (1#32) ≠ 0 ∧
      (1#32).toNat ≤ hKeyed.alg.digestBytes ∧ (32#32).toNat ≤ hKeyed.alg.digestBytes ∧ hKeyed.alg.digestBytes < (33#32).toNat) :=
  ⟨⟨rfl, rfl⟩, rfl, rfl, rfl, hKeyed_inv, by decide, by decide, by decide, by decide⟩

theorem witness_HreinitResult :
    ((onH HCtx.initial []).engine? = some (.hmac HCtx.initial) ∧ HCtx.initial.phase = .empty) ∧
    ((onH hFinal []).engine? = some (.hmac hFinal) ∧ hFinal.phase ≠ .empty) ∧ hKeyed.phase ≠ .empty ∧ 8 * (64 + fox.length) < 2 ^ 64 :=
  ⟨⟨rfl, rfl⟩, ⟨rfl, (fun h => nomatch h)⟩, (fun h => nomatch h), by decide⟩

theorem witness_HmacClosedForm :
    (onH hFinal []).engine? = some (.hmac hFinal) ∧ key.length ≤ Alg.sha1.blockBytes ∧
    8 * (List.replicate (2 ^ 61 - 1) (0 : Byte)).length < 2 ^ 64 ∧
    8 * (Alg.sha1.blockBytes + (List.replicate (2 ^ 61 - 65) (0 : Byte)).length) < 2 ^ 64 ∧ (1#32) ≠ 0 ∧
    (1#32).toNat ≤ Alg.sha1.digestBytes ∧ (20#32).toNat ≤ Alg.sha1.digestBytes := by
  rw [List.length_replicate, List.length_replicate]
  exact ⟨rfl, by decide, by decide, by decide, by decide, by decide, by decide⟩

theorem witness_ReinitEquivalence :
    (onH HCtx.initial []).engine? = some (.hmac HCtx.initial) ∧ key.length ≤ Alg.ripemd160.blockBytes ∧
    8 * (Alg.ripemd160.blockBytes + fox.length) < 2 ^ 64 ∧ 8 * (Alg.ripemd160.blockBytes + abc.length) < 2 ^ 64 ∧
    (20#32) ≠ 0 ∧ (20#32).toNat ≤ Alg.ripemd160.digestBytes ∧ (1#32) ≠ 0 ∧ (1#32).toNat ≤ Alg.ripemd160.digestBytes :=
  ⟨rfl, by decide, by decide, by decide, by decide, by decide, by decide, by decide⟩

theorem witness_HmacVectors : ∃ m : Bytes, m = fox ∧ m.length = 43 := ⟨_, rfl, by decide⟩

/-! ## PBKDF2 unit -/

/-- With a draw of OK, and where scratch is not drawn. -/
theorem witness_Pbkdf2Result :
    ((onP []).engine? = some .pbkdf2 ∧ (1#32) ≠ 0 ∧ (0x3fffffffc0#64) ≠ 0 ∧
      (0x3fffffffc0#64).toNat ≤ (2 ^ 32 - 1) * Alg.sha512.digestBytes ∧ password.length ≤ Alg.sha512.blockBytes ∧
      8 * (Alg.sha512.blockBytes + salt.length + 4) < 2 ^ 64 ∧ (onP []).allocNext? = some .ok) ∧
    { onP [] with scratchFromAllocator := false }.scratchFromAllocator ≠ true :=
  ⟨⟨rfl, by decide, by decide, by decide, by decide, by decide, rfl⟩, by decide⟩

/-- One byte, and three blocks of a digest. -/
theorem witness_Pbkdf2Prefix : ∃ t1 t2 out1 out2, exec (.pbkdf2 .sha1 password salt 1 1) (onP []) = .next t1 ∧
    t1.lastResponse = some ⟨.ok, some out1⟩ ∧ exec (.pbkdf2 .sha1 password salt 1 41) (onP []) = .next t2 ∧
    t2.lastResponse = some ⟨.ok, some out2⟩ ∧ (1#64).toNat ≤ (41#64).toNat := by
  have key : ∀ dk : BitVec 64, pbkdf2Checks .sha1 password salt (1#32).toNat dk.toNat = .ok () →
      ∃ t out, exec (.pbkdf2 .sha1 password salt 1 dk) (onP []) = .next t ∧ t.lastResponse = some ⟨.ok, some out⟩ := by
    intro dk hc
    obtain ⟨t, ht, ⟨hd, -⟩ | ⟨-, out, -, ha⟩⟩ := exec_pbkdf2_of_ok (s := onP []) rfl hc
    · exact absurd hd (by decide)
    · exact ⟨t, out, ht, answers_lastResponse ha⟩
  obtain ⟨t1, o1, e1, r1⟩ := key 1 rfl
  obtain ⟨t2, o2, e2, r2⟩ := key 41 rfl
  exact ⟨t1, t2, o1, o2, e1, r1, e2, r2, by decide⟩

theorem witness_Pbkdf2IsHmacProgram :
    (onP []).engine? = some .pbkdf2 ∧ (onH HCtx.initial []).engine? = some (.hmac HCtx.initial) ∧ (20#32).toNat = Alg.sha1.digestBytes ∧
    (20#64) ≠ 0 ∧ (20#64).toNat ≤ Alg.sha1.digestBytes ∧ password.length ≤ Alg.sha1.blockBytes ∧
    8 * (Alg.sha1.blockBytes + salt.length + 4) < 2 ^ 64 ∧ (onP []).allocNext? = some .ok :=
  ⟨rfl, rfl, by decide, by decide, by decide, by decide, by decide, rfl⟩

theorem witness_Pbkdf2Vectors : ∃ p s : Bytes, p = password ∧ s = salt ∧ p.length = 8 ∧ s.length = 4 := ⟨_, _, rfl, rfl, rfl, rfl⟩

/-! ## The whole machine -/

/-- Two machines that differ in another unit. -/
theorem witness_UnitIsolation : ∃ s s' : State, s = onD dActive [0, 0, 0, 3] ∧ s' = machine 0 dActive hKeyed [0, 0, 0, 3] ∧
    s.resetLine = false ∧ s'.resetLine = false ∧ s.cur = s'.cur ∧ s.units[s.cur]? = s'.units[s.cur]? ∧
    s.scratchFromAllocator = s'.scratchFromAllocator ∧ ∃ t, step s = .next t :=
  ⟨_, _, rfl, rfl, rfl, rfl, rfl, rfl, rfl, _, rfl⟩

/-- The stream of a PBKDF2 command with empty operands, one iteration and one byte of output. -/
def pbkdf2Frame : Bytes := encode (.pbkdf2 .sha1 [] [] 1 1)

/-- Two PBKDF2 units with a command each, the draw of the first failing, where scratch is drawn; their turns in either order. -/
def twoPbkdf2 : State := { onP [] with units := [⟨.pbkdf2, pbkdf2Frame, [], .fail, 0⟩, ⟨.pbkdf2, pbkdf2Frame, [], .ok, 0⟩] }

theorem witness_TurnsCommute : (0 : Nat) ≠ 1 ∧ twoPbkdf2.resetLine = false ∧ twoPbkdf2.scratchFromAllocator = true ∧
    (∃ a, stepUnit 0 twoPbkdf2 = .next a) ∧ (∃ b, stepUnit 1 twoPbkdf2 = .next b) ∧
    [0, 1, 0].Perm [1, 0, 0] ∧ (∃ a, runTurns [0, 1, 0] twoPbkdf2 = .next a) := by
  have h0 := runs_elim (p := fun _ => true) (show runs (stepUnit 0 twoPbkdf2) _ = true by decide +kernel)
  have h1 := runs_elim (p := fun _ => true) (show runs (stepUnit 1 twoPbkdf2) _ = true by decide +kernel)
  have h2 := runs_elim (p := fun _ => true) (show runs (runTurns [0, 1, 0] twoPbkdf2) _ = true by decide +kernel)
  exact ⟨by decide, rfl, rfl, h0.imp fun _ h => h.1, h1.imp fun _ h => h.1, by decide, h2.imp fun _ h => h.1⟩

/-- Each row of the table. -/
theorem witness_PhaseTransitions :
    ((onD dFull []).engine? = some (.digest dFull) ∧ dFull.phase = .active ∧ dFull.totBits.toNat + 8 * ([] : Bytes).length < 2 ^ 64) ∧
    dFinal.phase ≠ .active ∧
    ((onH hKeyed []).engine? = some (.hmac hKeyed) ∧ hKeyed.Inv ∧ key.length ≤ Alg.sha256.blockBytes ∧ hKeyed.phase = .keyed ∧
      hKeyed.inner.totBits.toNat + 8 * (List.replicate (2 ^ 61 - 65) (0 : Byte)).length < 2 ^ 64 ∧ 1 ≤ (1#32).toNat ∧
      (32#32).toNat ≤ hKeyed.alg.digestBytes ∧ (0#32).toNat = 0 ∧ hKeyed.alg.digestBytes < (33#32).toNat ∧ hKeyed.phase ≠ .empty) ∧
    (HCtx.initial.Inv ∧ HCtx.initial.phase = .empty ∧ HCtx.initial.phase ≠ .keyed) := by
  have ht : hKeyed.inner.totBits.toNat = 8 * Alg.sha256.blockBytes := keyed_inner.1
  rw [ht, List.length_replicate]
  exact ⟨⟨rfl, rfl, by decide⟩, by decide, ⟨rfl, hKeyed_inv, by decide, rfl, by decide, by decide, by decide, by decide, by decide,
    fun h => nomatch h⟩, fun h => absurd rfl h, rfl, by decide⟩

theorem witness_IdempotentCommands :
    (∃ t t', exec (.dinit .sha1) (onD dFinal []) = .next t ∧ exec (.dinit .sha1) t = .next t') ∧
    (∃ t t', exec (.hkey .sha1 key) (onH HCtx.initial []) = .next t ∧ exec (.hkey .sha1 key) t = .next t') ∧
    (∃ t t', exec .hreinit (onH hFinal []) = .next t ∧ exec .hreinit t = .next t') := by
  refine ⟨⟨_, _, rfl, rfl⟩, ?_, _, _, rfl, rfl⟩
  obtain ⟨t, ht, ha⟩ := hkey_step (s := onH HCtx.initial []) (c := HCtx.initial) (a := .sha1) (k := key) rfl (.inl (by decide))
  obtain ⟨t', ht', -⟩ := hkey_step (a := .sha1) (k := key) (answers_engine? ha) (.inl (by decide))
  exact ⟨t, t', ht, ht'⟩

theorem witness_EveryUnitIsServed :
    ((onP []).resetLine = false ∧ ∃ t, step (onP []) = .next t) ∧ (onP []).cur < (onP []).units.length ∧ 2 < (onP []).units.length :=
  ⟨⟨rfl, _, rfl⟩, by decide, by decide⟩

end Sys2Proof.Tests
end

section
/-! PROOFS. The statements about encoding and decoding (spec/30_encoding.md): the frame of each command, the tests on a command
word in their order, the length of a frame, illegal words, and the bytes of a response. -/

namespace Sys2Proof

/-! ## The frame of each command (R78) -/

/-- A command word as the formula of R78 writes it. -/
theorem commandWord_toNat (op : Op) (alg : BitVec 4) :
    (commandWord op alg).toNat = op.opc.toNat ||| alg.toNat <<< 8 := by
  refine (BitVec.toNat_append (0#20 ++ alg) op.opc).trans ?_
  rw [BitVec.toNat_append]
  simp [Nat.or_comm]

/-- Settles O2: each frame is the word by `commandWord_toNat`, then the operands as R76 sends them. -/
theorem frameOfEachCommand : Obligations.FrameOfEachCommand := by
  unfold Obligations.FrameOfEachCommand
  simp only [encode, wordBytes, stringBytes, commandWord_toNat, List.append_assoc]
  refine ⟨fun _ => rfl, fun _ => rfl, rfl, fun _ _ => rfl, fun _ => rfl, fun _ => rfl, rfl, fun _ _ _ _ _ => rfl, ?_⟩
  decide

/-! ## The fields of a word as numbers (R70) -/

section
variable {w : BitVec 32} {k : UnitKind} {op : Op} {mk : Alg → Head} {hd : Head}

theorem ofOpc?_opcField_eq_none :
    Op.ofOpc? (opcField w) = none ↔ w.toNat % 256 ∉ [0x01, 0x02, 0x03, 0x11, 0x12, 0x13, 0x14, 0x21] := by
  rw [ofOpc?_eq_none, opcField_toNat]

theorem ofOpc?_opcField_eq_some : Op.ofOpc? (opcField w) = some op ↔ w.toNat % 256 = op.opc.toNat := by
  rw [ofOpc?_eq_some, ← BitVec.toNat_inj, opcField_toNat]

/-- An `OPC` of the map is the opcode of a mnemonic. -/
theorem exists_op_of_mem (h : w.toNat % 256 ∈ [0x01, 0x02, 0x03, 0x11, 0x12, 0x13, 0x14, 0x21]) :
    ∃ op : Op, w.toNat % 256 = op.opc.toNat := by
  obtain ⟨op, ho⟩ := Option.ne_none_iff_exists'.1 (fun hn => ofOpc?_opcField_eq_none.1 hn h)
  exact ⟨op, ofOpc?_opcField_eq_some.1 ho⟩

theorem kindField_eq_code : kindField w = k.code ↔ w.toNat % 256 / 16 = k.code.toNat := by
  rw [← BitVec.toNat_inj, kindField_toNat]

theorem rsvField_eq_zero : rsvField w = 0 ↔ w.toNat / 4096 = 0 := by
  rw [← BitVec.toNat_inj, rsvField_toNat]; rfl

theorem algField_eq {c : BitVec 4} : algField w = c ↔ w.toNat / 256 % 16 = c.toNat := by
  rw [← BitVec.toNat_inj, algField_toNat]

/-! ## The tests on `ALG` (R72) -/

theorem headWithAlg_of_code {a : Alg} (h : w.toNat / 256 % 16 = a.code.toNat) : headWithAlg w mk = .ok (mk a) := by
  rw [headWithAlg, algField_eq.2 h, ofCode?_code]

theorem headWithAlg_error_iff {why : IllegalCause} :
    headWithAlg w mk = .error why ↔ why = .badAlg ∧ w.toNat / 256 % 16 ∉ [1, 2, 3, 4, 5, 6] := by
  rw [← algField_toNat, ← ofCode?_eq_none, headWithAlg]
  cases Alg.ofCode? (algField w) <;> simp [eq_comm]

theorem headWithoutAlg_of_zero (h : w.toNat / 256 % 16 = 0) : headWithoutAlg w hd = .ok hd :=
  if_pos (algField_eq.2 h)

theorem headWithoutAlg_error_iff {why : IllegalCause} :
    headWithoutAlg w hd = .error why ↔ why = .algNotZero ∧ w.toNat / 256 % 16 ≠ 0 := by
  have hz : algField w = 0 ↔ w.toNat / 256 % 16 = 0 := algField_eq
  simp only [headWithoutAlg, hz]
  split
  · simp [*]
  · simp [*, @eq_comm _ why]

/-- The last test of R81 for a mnemonic: the word read once its opcode, its unit kind and `RSV` have passed. -/
def Op.readHead (op : Op) (w : BitVec 32) : Except IllegalCause Head :=
  match op with
  | .dinit => headWithAlg w .dinit
  | .dupd => headWithoutAlg w .dupd
  | .dfin => headWithoutAlg w .dfin
  | .hkey => headWithAlg w .hkey
  | .hupd => headWithoutAlg w .hupd
  | .hfin => headWithoutAlg w .hfin
  | .hreinit => headWithoutAlg w .hreinit
  | .pbkdf2 => headWithAlg w .pbkdf2

/-- On a mnemonic that chooses an algorithm the last test raises DETAIL 3, on another DETAIL 4. -/
theorem readHead_error_iff {why : IllegalCause} :
    op.readHead w = .error why ↔
      (op.opc.toNat ∈ [0x01, 0x11, 0x21] ∧ why = .badAlg ∧ w.toNat / 256 % 16 ∉ [1, 2, 3, 4, 5, 6]) ∨
      (op.opc.toNat ∉ [0x01, 0x11, 0x21] ∧ why = .algNotZero ∧ w.toNat / 256 % 16 ≠ 0) := by
  cases op <;> simp only [Op.readHead, headWithAlg_error_iff, headWithoutAlg_error_iff] <;> simp [Op.opc]

/-! ## The tests of R81 in their order -/

theorem decodeWord_reserved (h : w.toNat % 256 ∉ [0x01, 0x02, 0x03, 0x11, 0x12, 0x13, 0x14, 0x21]) :
    decodeWord w k = .error .opcode := by
  rw [decodeWord, ofOpc?_opcField_eq_none.2 h]

/-- The tests on the word of a mnemonic: the unit kind, then `RSV`, then `ALG`. -/
theorem decodeWord_of_opc (h : w.toNat % 256 = op.opc.toNat) :
    decodeWord w k = if w.toNat % 256 / 16 ≠ k.code.toNat then .error .opcode
      else if w.toNat / 4096 ≠ 0 then .error .reservedBits else op.readHead w := by
  simp only [decodeWord, ofOpc?_opcField_eq_some.2 h, ne_eq, kindField_eq_code, rsvField_eq_zero]
  cases op <;> rfl

end

/-- Settles O5: the tests of `decodeWord_of_opc`, each with the tests before it passed. -/
theorem decodeWordByFields : Obligations.DecodeWordByFields := by
  refine ⟨⟨rfl, rfl, rfl⟩, ?_⟩
  rintro w k _ _ _ _ rfl rfl rfl rfl
  refine ⟨decodeWord_reserved, fun hmem => ?_⟩
  obtain ⟨op, hop⟩ := exists_op_of_mem hmem
  refine ⟨fun hkind => (decodeWord_of_opc hop).trans (if_pos hkind), fun hkind => ⟨fun hrsv => ?_, fun hrsv => ?_⟩⟩
  · rw [decodeWord_of_opc hop, if_neg (not_not.2 hkind), if_pos hrsv]
  · have last : ∀ {o : Op}, w.toNat % 256 = o.opc.toNat → decodeWord w k = o.readHead w := fun ho => by
      rw [decodeWord_of_opc ho, if_neg (not_not.2 hkind), if_neg (not_not.2 hrsv)]
    refine ⟨fun hchoose halg => ?_, fun hchoose halg => ?_, fun a halg => ?_, fun halg => ?_⟩
    · exact (last hop).trans (readHead_error_iff.2 (.inl ⟨hop ▸ hchoose, rfl, halg⟩))
    · exact (last hop).trans (readHead_error_iff.2 (.inr ⟨hop ▸ hchoose, rfl, halg⟩))
    · have ok : ∀ {mk : Alg → Head}, headWithAlg w mk = .ok (mk a) := headWithAlg_of_code halg
      exact ⟨fun h => (last (o := .dinit) h).trans ok, fun h => (last (o := .hkey) h).trans ok,
        fun h => (last (o := .pbkdf2) h).trans ok⟩
    · have ok : ∀ {hd : Head}, headWithoutAlg w hd = .ok hd := headWithoutAlg_of_zero halg
      exact ⟨fun h => (last (o := .dupd) h).trans ok, fun h => (last (o := .dfin) h).trans ok,
        fun h => (last (o := .hupd) h).trans ok, fun h => (last (o := .hfin) h).trans ok,
        fun h => (last (o := .hreinit) h).trans ok⟩

/-! ## The length of a frame (R80) -/

/-- What the frame of a mnemonic leaves in the stream, on every channel and for every other field. -/
theorem decodeFrame_rest?_of_opc {w : BitVec 32} {op : Op} (k : UnitKind) (bs : Bytes) (h : w.toNat % 256 = op.opc.toNat) :
    (decodeFrame k (beBytes 4 w.toNat ++ bs)).rest? = skipOperands op bs := by
  rw [decodeFrame_rest?, ofOpc?_opcField_eq_some.2 h]

theorem decodeFrame_rest?_reserved {w : BitVec 32} (k : UnitKind) (bs : Bytes)
    (h : w.toNat % 256 ∉ [0x01, 0x02, 0x03, 0x11, 0x12, 0x13, 0x14, 0x21]) :
    (decodeFrame k (beBytes 4 w.toNat ++ bs)).rest? = some bs := by
  rw [decodeFrame_rest?, ofOpc?_opcField_eq_none.2 h]

theorem takeBytes_of_length_lt {m : Bytes} (rest : Bytes) (h : m.length < 2 ^ 64) :
    takeBytes (beBytes 8 m.length ++ m ++ rest) = some (m, rest) :=
  takeBytes_stringBytes m rest (decide_eq_true h)

theorem takePbkdf2_of_lengths {p s c dk : Bytes} (rest : Bytes) (hp : p.length < 2 ^ 64) (hs : s.length < 2 ^ 64)
    (hc : c.length = 4) (hdk : dk.length = 8) :
    takePbkdf2 (beBytes 8 p.length ++ p ++ (beBytes 8 s.length ++ s ++ (c ++ (dk ++ rest))))
      = some ((p, s, fromBE c, fromBE dk), rest) := by
  simp only [takePbkdf2, takeBytes_of_length_lt _ hp, takeBytes_of_length_lt _ hs, takeScalar_raw 4 c _ hc,
    takeScalar_raw 8 dk _ hdk, Option.bind_eq_bind, Option.bind_some, Option.pure_def]

/-- Settles O6: a frame skips the operands of its opcode, whose forms are read back. -/
theorem frameLengthByOpcode : Obligations.FrameLengthByOpcode := by
  intro k w bs rest
  have skip : ∀ {op : Op} {xs : Bytes}, w.toNat % 256 = op.opc.toNat →
      (decodeFrame k (beBytes 4 w.toNat ++ xs)).rest? = skipOperands op xs := decodeFrame_rest?_of_opc k _
  refine ⟨decodeFrame_rest?_reserved k bs, fun h => ?_, fun h m hm => ?_, fun h n hn => ?_, fun h p s c dk hp hs hc hdk => ?_⟩
  · simp only [List.mem_cons, List.not_mem_nil, or_false] at h
    rcases h with h | h | h
    · exact skip (op := .dinit) h
    · exact skip (op := .dfin) h
    · exact skip (op := .hreinit) h
  · have operand : (takeBytes (beBytes 8 m.length ++ m ++ rest)).map (·.2) = some rest := by
      rw [takeBytes_of_length_lt rest hm]; rfl
    simp only [List.mem_cons, List.not_mem_nil, or_false] at h
    rcases h with h | h | h
    · exact (skip (op := .dupd) h).trans operand
    · exact (skip (op := .hkey) h).trans operand
    · exact (skip (op := .hupd) h).trans operand
  · rw [skip (op := .hfin) h, skipOperands, takeScalar_raw 4 n rest hn]; rfl
  · have operands := takePbkdf2_of_lengths rest hp hs hc hdk
    simp only [← List.append_assoc] at operands
    rw [skip (op := .pbkdf2) h, skipOperands, operands]; rfl

/-! ## Illegal words (R82) -/

/-- The five cases of R82, for the word of a mnemonic on its own channel and with `RSV` zero, are the two of its `ALG`. -/
theorem exists_readHead_error_iff {op : Op} {w : BitVec 32} :
    (∃ why, op.readHead w = .error why) ↔
      (op.opc.toNat ∈ [0x01, 0x11, 0x21] ∧ w.toNat / 256 % 16 ∈ [0, 7, 8, 9, 10, 11, 12, 13, 14, 15]) ∨
      (op.opc.toNat ∈ [0x02, 0x03, 0x12, 0x13, 0x14] ∧ w.toNat / 256 % 16 ≠ 0) := by
  have others : op.opc.toNat ∉ [0x01, 0x11, 0x21] ↔ op.opc.toNat ∈ [0x02, 0x03, 0x12, 0x13, 0x14] := by
    cases op <;> decide
  have codes : w.toNat / 256 % 16 ∉ [1, 2, 3, 4, 5, 6] ↔ w.toNat / 256 % 16 ∈ [0, 7, 8, 9, 10, 11, 12, 13, 14, 15] := by
    have := Nat.mod_lt (w.toNat / 256) (show 0 < 16 by decide)
    simp only [List.mem_cons, List.not_mem_nil, or_false]
    omega
  simp only [readHead_error_iff, others, codes, exists_or, exists_and_left, exists_eq_left]

/-- A word is illegal where one of the tests fails, whichever comes first. -/
theorem exists_decodeWord_error_iff {w : BitVec 32} {k : UnitKind} :
    (∃ why, decodeWord w k = .error why) ↔
      w.toNat % 256 ∉ [0x01, 0x02, 0x03, 0x11, 0x12, 0x13, 0x14, 0x21] ∨
      w.toNat / 4096 ≠ 0 ∨
      (w.toNat % 256 ∈ [0x01, 0x11, 0x21] ∧ w.toNat / 256 % 16 ∈ [0, 7, 8, 9, 10, 11, 12, 13, 14, 15]) ∨
      (w.toNat % 256 ∈ [0x02, 0x03, 0x12, 0x13, 0x14] ∧ w.toNat / 256 % 16 ≠ 0) ∨
      w.toNat % 256 / 16 ≠ k.code.toNat := by
  by_cases hmem : w.toNat % 256 ∈ [0x01, 0x02, 0x03, 0x11, 0x12, 0x13, 0x14, 0x21]
  · obtain ⟨op, hop⟩ := exists_op_of_mem hmem
    rw [decodeWord_of_opc hop]
    by_cases hkind : w.toNat % 256 / 16 = k.code.toNat
    · by_cases hrsv : w.toNat / 4096 = 0
      · rw [if_neg (not_not.2 hkind), if_neg (not_not.2 hrsv), exists_readHead_error_iff, ← hop]
        simp only [hmem, hkind, hrsv, ne_eq, not_true_eq_false, false_or, or_false]
      · simp [hkind, hrsv]
    · simp [hkind]
  · exact iff_of_true ⟨_, decodeWord_reserved hmem⟩ (.inl hmem)

/-! ## The commands that answer with bytes (R79) -/

/-- The commands that return an output (R79). -/
def Instr.returnsOutput : Instr → Bool
  | .dfin | .hfin _ | .pbkdf2 _ _ _ _ _ => true
  | .dinit _ | .dupd _ | .hkey _ _ | .hupd _ | .hreinit => false

theorem Instr.returnsOutput_iff (i : Instr) : i.returnsOutput = true ↔
    i = .dfin ∨ (∃ n, i = .hfin n) ∨ ∃ a p salt c dk, i = .pbkdf2 a p salt c dk := by
  cases i <;> simp [Instr.returnsOutput]

end Sys2Proof

namespace Sys2Proof.Machine

/-- Settles O8: the words by `exists_decodeWord_error_iff`, the answer by `step_illegal`. -/
theorem illegalWordAnswered : Obligations.IllegalWordAnswered := by
  refine ⟨fun w k => exists_decodeWord_error_iff.symm, fun s u w why bs rest hr hu hcmd hw hrest => ?_⟩
  have hd : decodeFrame u.kind u.cmd = .illegal why rest := by
    rw [hcmd] at hrest ⊢
    exact decodeFrame_illegal u.kind w bs rest why hw hrest
  exact ⟨_, step_illegal hr hu hd, passTurn_resetLine _, passTurn_scratch _, passTurn_units _⟩

/-! ## The bytes of a response (R79) -/

theorem frame_of_output (out : Bytes) :
    (Response.mk .ok (some out)).frame = beBytes 4 Status.ok.word.toNat ++ beBytes 8 out.length ++ out := by
  simp [Response.frame, wordBytes, stringBytes]

theorem frame_of_no_output (st : Status) : (Response.mk st none).frame = beBytes 4 st.word.toNat := by
  cases st <;> exact List.append_nil _

theorem frame_of_not_ok {st : Status} (h : st ≠ .ok) (out : Option Bytes) :
    (Response.mk st out).frame = beBytes 4 st.word.toNat := by
  cases st
  case ok => exact absurd rfl h
  all_goals exact List.append_nil _

/-- A result that is the image of another under `f` has an output as `f` says. -/
theorem output_of_map {α : Type} {x : Except Stop α} {f : α → Engine × Option Bytes} {e : Engine} {out : Option Bytes} {b : Bool}
    (h : x.map f = .ok (e, out)) (hf : ∀ y, (f y).2.isSome = b) : out.isSome = b := by
  cases x with
  | error z => cases h
  | ok y =>
    have hy : f y = (e, out) := Except.ok.inj h
    rw [← hf y, hy]

/-- A body that completes gives an output on DFIN, HFIN and PBKDF2 only. -/
theorem body_output {i : Instr} {e e' : Engine} {out : Option Bytes} (h : body i e = .ok (e', out)) :
    out.isSome = i.returnsOutput := by
  have hk : i.unit = e.kind := by
    by_contra hne
    rw [body_wrongKind hne] at h
    cases h
  cases i <;> cases e <;> cases hk
  case dinit => cases h; rfl
  case pbkdf2 =>
    simp only [body] at h
    split at h
    · cases h
    · exact output_of_map h fun _ => rfl
  all_goals exact output_of_map h fun _ => rfl

/-- Settles O11: a command answers OK with the output of its body, or with another status and none (`exec_next`). -/
theorem responseFrameOfCommand : Obligations.ResponseFrameOfCommand := by
  refine ⟨fun i s t h => ?_, fun st hst out => frame_of_not_ok hst out⟩
  obtain ⟨u, s', e, ⟨st, out⟩, -, hans, -, hr⟩ := exec_next h
  refine ⟨_, answers_lastResponse hans, ?_⟩
  rw [← Instr.returnsOutput_iff]
  rcases hr with ⟨rfl, hb⟩ | ⟨hst, rfl, -⟩
  · have hout : out.isSome = i.returnsOutput := body_output hb
    refine ⟨by simp [hout], ?_, ?_⟩
    · rintro o rfl; exact frame_of_output o
    · rintro rfl; exact frame_of_no_output _
  · exact ⟨iff_of_false Bool.false_ne_true fun hok => hst hok.1, by nofun, fun _ => frame_of_no_output st⟩

end Sys2Proof.Machine
end

section
/-! PROOFS. The statements about the digest unit (spec/40_digest.md): the statuses its commands and those of the HMAC engine can
return, the compression dispatch, the serialization table, and the results of DINIT, DUPD and DFIN. -/

namespace Sys2Proof

/-- Settles O34: the dispatch is the definition of `compress`, one arm for each algorithm. -/
theorem compressionDispatch : Obligations.CompressionDispatch :=
  fun _ _ => ⟨rfl, rfl, rfl, rfl, rfl, rfl⟩

/-! ## Serialization (R105) -/

/-- The words of the chaining state, by their index. -/
theorem toList_eq_map_finRange (h : HWords) : h.toList = (List.finRange 8).map fun k => h[k] :=
  List.ext_getElem (by simp) (by simp)

theorem serialize_eq_flatMap_index (a : Alg) (h : HWords) :
    serialize a h =
      ((List.finRange 8).take a.digestWords).flatMap fun k => a.encodeInt (a.wordBits / 8) h[k].toNat := by
  rw [serialize, toList_eq_map_finRange, ← List.map_take, List.flatMap_map]

/-- Settles O41: `serialize_eq_flatMap_index` with the parameters of each algorithm. -/
theorem serializeTable : Obligations.SerializeTable := by
  intro h
  have words := fun a => serialize_eq_flatMap_index a h
  exact ⟨words .sha1, words .sha224, words .sha256, words .sha384, words .sha512, words .ripemd160,
    fun a => Machine.serialize_length a h⟩

end Sys2Proof

namespace Sys2Proof.Machine

/-! ## The statuses of a command on its own unit (R109, R209) -/

/-- The statuses of a command that takes no draw, on a unit of its kind: no ILLEGAL_COMMAND and no ALLOC_FAIL among them. -/
theorem exec_status_cases {i : Instr} {s t : State} {e : Engine} {r : Response} (hi : i.unit ≠ .pbkdf2) (hk : i.unit = e.kind)
    (he : s.engine? = some e) (h : exec i s = .next t) (hr : t.lastResponse = some r) :
    r.status = .ok ∨
    ((∃ why, r.status = .misuse why) ∧
      ((∃ m, i = .dupd m) ∨ i = .dfin ∨ (∃ m, i = .hupd m) ∨ (∃ n, i = .hfin n) ∨ i = .hreinit)) ∨
    ((∃ why, r.status = .precondition why) ∧ ∃ n, i = .hfin n) := by
  obtain ⟨u, hu, hcases⟩ := exec_lastResponse h hr
  obtain rfl : u.engine = e := by simpa [State.engine?, hu] using he
  rcases hcases with ⟨hok, -⟩ | ⟨st, rfl, hb⟩ | ⟨-, hp, -, -⟩
  · exact .inl hok
  · rcases body_error hb with
      ⟨-, hne⟩ | ⟨why, hst, -, hc⟩ | ⟨why, hst, -, ⟨hn, -⟩ | ⟨⟨_, _, _, _, _, rfl⟩, -⟩⟩ | ⟨hst, -⟩
    · exact absurd hk hne
    · cases hst; exact .inr (.inl ⟨⟨why, rfl⟩, hc⟩)
    · cases hst; exact .inr (.inr ⟨⟨why, rfl⟩, hn⟩)
    · exact absurd rfl hi
    · cases hst
  · exact absurd hp hi

/-- Settles O17: `exec_status_cases`, without the commands of the other unit. -/
theorem statusesOfEachUnit : Obligations.StatusesOfEachUnit := by
  constructor
  · intro i s t c r hi he h hr
    rcases exec_status_cases (by simp [hi]) hi he h hr with hok | ⟨hmis, hc⟩ | ⟨-, n, rfl⟩
    · exact .inl hok
    · rcases hc with hc | hc | ⟨m, rfl⟩ | ⟨n, rfl⟩ | rfl
      · exact .inr ⟨hmis, .inl hc⟩
      · exact .inr ⟨hmis, .inr hc⟩
      all_goals cases hi
    · cases hi
  · intro i s t c r hi he h hr
    rcases exec_status_cases (by simp [hi]) hi he h hr with hok | ⟨hmis, hc⟩ | hpre
    · exact .inl hok
    · rcases hc with ⟨m, rfl⟩ | rfl | hc
      · cases hi
      · cases hi
      · exact .inr (.inl ⟨hmis, hc⟩)
    · exact .inr (.inr hpre)

/-! ## DINIT (R100) -/

/-- `IV_A`, word by word: zero above the words `A` holds (R27). -/
theorem ivWords_getElem (a : Alg) (k : Nat) (hk : k < 8) :
    (ivWords a)[k] = if k < a.stateWords then (ivWords a)[k] else 0 := by
  split
  · rfl
  · exact ivWords_unused a k hk (by omega)

/-- A word of DINIT that names no algorithm is illegal with DETAIL 3, and its frame is the word alone (R80, R82). -/
theorem decodeFrame_dinit_badAlg {w : BitVec 32} (bs : Bytes) (hopc : w.toNat % 256 = 0x01) (hrsv : w.toNat / 4096 = 0)
    (halg : w.toNat / 256 % 16 ∉ [1, 2, 3, 4, 5, 6]) :
    decodeFrame .digest (beBytes 4 w.toNat ++ bs) = .illegal .badAlg bs := by
  have hop : w.toNat % 256 = Op.dinit.opc.toNat := hopc
  have hword : decodeWord w .digest = .error .badAlg := by
    rw [decodeWord_of_opc hop, if_neg (by simp [hopc, UnitKind.code]), if_neg (not_not.2 hrsv)]
    exact readHead_error_iff.2 (.inl ⟨by decide, rfl, halg⟩)
  exact decodeFrame_illegal _ w bs bs _ hword (decodeFrame_rest?_of_opc _ bs hop)

/-- Settles O35: `dinit_step` in every phase, and `step_illegal` on a word that names no algorithm. -/
theorem dinitResult : Obligations.DinitResult := by
  refine ⟨fun s c a hc => ?_, frameOfEachCommand.1, fun s u w bs hr hu hk hopc hrsv halg hcmd => ?_, rfl⟩
  · obtain ⟨t, ht, ha⟩ := dinit_step hc a
    exact ⟨t, ivWords a, ht, ha, ivWords_getElem a⟩
  · have hd : decodeFrame u.kind u.cmd = .illegal .badAlg bs := by
      rw [hk, hcmd, decodeFrame_dinit_badAlg bs hopc hrsv halg]
    have hlt : s.cur < s.units.length := (List.getElem?_eq_some_iff.1 hu).1
    exact ⟨_, _, step_illegal hr hu hd,
      (congrArg (·[s.cur]?) (passTurn_units _)).trans (List.getElem?_set_self hlt), rfl, rfl⟩

/-! ## DUPD (R101) -/

section
variable {s : State} {c : DCtx} {m : Bytes} {st : Status} {why : Refusal}

theorem dupd_raises (hc : s.engine? = some (.digest c)) (hx : c.update m = .error (.raise st)) : s.Raises (.dupd m) st :=
  raises_of_body hc (by simp [Instr.unit]) (by rw [body, hx]; rfl)

theorem dupd_refused (hc : s.engine? = some (.digest c)) (hx : c.update m = .error (.refuse why)) :
    exec (.dupd m) s = .refused why :=
  refused_of_body hc (by simp [Instr.unit]) (by rw [body, hx]; rfl)

end

/-- A byte that fills the block: the block is compressed at once. -/
theorem absorbByte_eq_of_full {c : DCtx} (b : Byte) (h : c.bufLen.toNat + 1 = c.alg.blockBytes) :
    c.absorbByte b = { c with
      buf := c.buf.setIfInBounds c.bufLen.toNat b
      h := compress c.alg c.h (firstBytes (c.buf.setIfInBounds c.bufLen.toNat b) c.alg.blockBytes)
      bufLen := 0 } :=
  if_pos h

theorem absorbByte_eq_of_not_full {c : DCtx} (b : Byte) (h : c.bufLen.toNat + 1 ≠ c.alg.blockBytes) :
    c.absorbByte b = { c with buf := c.buf.setIfInBounds c.bufLen.toNat b, bufLen := c.bufLen + 1 } :=
  if_neg h

/-- A message shorter than a block, on a context just started: its bytes are held and none is compressed. -/
theorem feed_start_of_short (c : DCtx) {a : Alg} {m : Bytes} (hm : m.length < a.blockBytes) :
    ((c.start a).feed m).bufLen.toNat = m.length ∧ firstBytes ((c.start a).feed m).buf m.length = m ∧
      ((c.start a).feed m).h = ivWords a := by
  have hlen : (c.start a).bufLen.toNat < (c.start a).alg.blockBytes := blockBytes_pos a
  have held : firstBytes (c.start a).buf (c.start a).bufLen.toNat ++ m = m := by simp [firstBytes]
  obtain ⟨hh, hn, hbuf⟩ := absorb_closed (c.start a) m hlen
  have hn' : ((c.start a).absorb m).bufLen.toNat = m.length := by
    rw [hn]; simpa using Nat.mod_eq_of_lt hm
  refine ⟨hn', ?_, ?_⟩
  · rw [hn', held] at hbuf
    simpa [Nat.div_eq_of_lt hm] using hbuf
  · rw [feed_h, hh, held]
    exact compressBlocks_short a _ m hm

/-- Settles O37: the checks by `update_error_iff`, the bytes by the two cases of `absorbByte`. -/
theorem dupdAbsorbsBytewise : Obligations.DupdAbsorbsBytewise := by
  refine ⟨fun s c m hc => ⟨fun hp => ?_, fun hp => ?_, fun hp hb => ?_, fun hp hb => ?_⟩, absorb_nil, ?_,
    frameOfEachCommand.2.1, ?_⟩
  · exact dupd_raises hc ((update_error_iff ..).2 (.inl ⟨hp, rfl⟩))
  · exact dupd_raises hc ((update_error_iff ..).2 (.inr (.inl ⟨hp, rfl⟩)))
  · exact dupd_refused hc ((update_error_iff ..).2 (.inr (.inr ⟨hp, hb, rfl⟩)))
  · obtain ⟨t, ht, ha⟩ := dupd_step hc hp hb
    exact ⟨t, _, ht, ha, rfl⟩
  · rintro c b m _ rfl
    exact ⟨fun hfull => by rw [absorb_cons, absorbByte_eq_of_full b hfull]; rfl,
      fun hnot => by rw [absorb_cons, absorbByte_eq_of_not_full b hnot]⟩
  · intro c c' hu
    obtain ⟨-, -, rfl⟩ := (update_ok_iff ..).1 hu
    obtain ⟨hlen, hbuf, hh⟩ := feed_start_of_short c (a := .sha256) (m := [0x61, 0x62, 0x63]) (by decide)
    exact ⟨BitVec.eq_of_toNat_eq hlen, hbuf, rfl, hh⟩

/-! ## DFIN (R103, R106) -/

theorem dfin_raises {s : State} {c : DCtx} {st : Status} (hc : s.engine? = some (.digest c))
    (hx : c.finish = .error (.raise st)) : s.Raises .dfin st :=
  raises_of_body hc (by simp [Instr.unit]) (by rw [body, hx]; rfl)

/-- The context DFIN leaves: wiped, with its algorithm (R106). -/
theorem close_context (c : DCtx) :
    c.close.2 = { phase := .finalized, alg := c.alg, h := Vector.replicate 8 0, buf := Vector.replicate 128 0,
                  bufLen := 0, totBits := 0 } := by
  rw [← close_alg c]; rfl

/-- The digest of the empty message on a context in any state. -/
theorem close_start (c : DCtx) (a : Alg) : (c.start a).close.1 = digestClosed a [] := by
  simpa using close_start_feed c a [] (by decide)

theorem digestClosed_sha256_nil :
    digestClosed .sha256 [] = beBytes 32 0xe3b0c44298fc1c149afbf4c8996fb92427ae41e4649b934ca495991b7852b855 := by
  decide +kernel

/-- `DINIT A; DFIN`, whatever the context held. -/
theorem dinit_dfin_output {s : State} {c : DCtx} (hc : s.engine? = some (.digest c)) (a : Alg) :
    ∃ t, runCommands [.dinit a, .dfin] s = .next t ∧ t.lastOutput = some (digestClosed a []) := by
  obtain ⟨t₁, hinit, ha₁⟩ := dinit_step hc a
  obtain ⟨t₂, hfin, ha₂⟩ := dfin_step (answers_engine? ha₁) (start_phase c a)
  refine ⟨t₂, by rw [runCommands_cons hinit, runCommands_cons hfin]; rfl, ?_⟩
  rw [State.lastOutput, answers_lastResponse ha₂, ← close_start c a]; rfl

/-- Settles O39: the checks by `finish_error_iff`, the result by `dfin_step` and `close_context`. -/
theorem dfinResult : Obligations.DfinResult := by
  refine ⟨fun s c hc => ⟨fun hp => ?_, fun hp => ?_, fun hp => ?_⟩, frameOfEachCommand.2.2.1, fun s c hc => ?_⟩
  · exact dfin_raises hc ((finish_error_iff ..).2 (.inl ⟨hp, rfl⟩))
  · exact dfin_raises hc ((finish_error_iff ..).2 (.inr ⟨hp, rfl⟩))
  · obtain ⟨t, ht, ha⟩ := dfin_step hc hp
    rw [close_context] at ha
    exact ⟨t, _, ht, ha, rfl, close_length c⟩
  · rw [← digestClosed_sha256_nil]
    exact dinit_dfin_output hc .sha256

end Sys2Proof.Machine
end

section
/-! PROOFS. SHA-1's compression (spec/41_sha1.md): the schedule as the function `W` of R123, the rounds as a loop over `t`, and the
constants and functions of R121 and R122. -/

namespace Sys2Proof

/-! ## The message schedule (R123) -/

/-- The next word after `W[0..t-1]`. -/
theorem sha1NextWord_map_range (W : Nat → Word32) {t : Nat} (ht : 16 ≤ t) :
    sha1NextWord ((List.range t).map W) =
      (W (t - 3) ^^^ W (t - 8) ^^^ W (t - 14) ^^^ W (t - 16)).rotateLeft 1 := by
  have word : ∀ k, 0 < k → ((List.range t).map W).getD (t - k) 0 = W (t - k) :=
    fun k _ => getD_map_range W t (t - k) 0 (by omega)
  rw [sha1NextWord, List.length_map, List.length_range, word 3 (by decide), word 8 (by decide), word 14 (by decide),
    word 16 (by decide), rotl_eq_rotateLeft 1 _ (by decide)]

/-- A function that meets the two equations of R123 lists the schedule. -/
theorem sha1Schedule_eq_map {blk : Bytes} {W : Nat → Word32}
    (hfirst : ∀ t, t < 16 → W t = BitVec.ofNat 32 (fromBE ((blk.drop (4 * t)).take 4)))
    (hnext : ∀ t, 16 ≤ t → t < 80 → W t = (W (t - 3) ^^^ W (t - 8) ^^^ W (t - 14) ^^^ W (t - 16)).rotateLeft 1) :
    sha1Schedule blk = (List.range 80).map W := by
  rw [sha1Schedule, schedule_first 32 blk W hfirst]
  refine schedule_extend sha1NextWord sha1Extend (fun _ => rfl) (fun _ _ => rfl) W 80 (fun ws h16 h80 hws => ?_)
    64 16 (by decide) (by decide)
  rw [hnext ws.length h16 h80, ← sha1NextWord_map_range W h16, ← hws]

/-! ## The rounds (R121, R122, R124) -/

/-- The rounds from `t` on, with the words `W[t..t+n-1]`, as a loop. -/
theorem sha1Rounds_eq_foldl (W : Nat → Word32) (n t : Nat) (v : Five) :
    sha1Rounds t ((List.range' t n).map W) v = (List.range' t n).foldl (fun x k => sha1Round k (W k) x) v := by
  induction n generalizing t v with
  | zero => rfl
  | succ n ih => exact ih (t + 1) (sha1Round t (W t) v)

/-- The constant with the bounds of R121, which names the last round of each group. -/
theorem sha1K_eq (t : Nat) :
    sha1K t = if t ≤ 19 then 0x5a827999 else if t ≤ 39 then 0x6ed9eba1 else if t ≤ 59 then 0x8f1bbcdc else 0xca62c1d6 := by
  simp only [sha1K, Nat.lt_succ_iff]

/-- A function that meets the four rows of R122 is `sha1F` on the 80 rounds. -/
theorem eq_sha1F {f : Nat → Word32 → Word32 → Word32 → Word32}
    (h₁ : ∀ t b c d, t ≤ 19 → f t b c d = (b &&& c) ||| (~~~b &&& d))
    (h₂ : ∀ t b c d, 20 ≤ t → t ≤ 39 → f t b c d = b ^^^ c ^^^ d)
    (h₃ : ∀ t b c d, 40 ≤ t → t ≤ 59 → f t b c d = (b &&& c) ||| (b &&& d) ||| (c &&& d))
    (h₄ : ∀ t b c d, 60 ≤ t → t ≤ 79 → f t b c d = b ^^^ c ^^^ d)
    {t : Nat} (ht : t < 80) (b c d : Word32) : f t b c d = sha1F t b c d := by
  unfold sha1F
  split_ifs
  · exact h₁ t b c d (by omega)
  · exact h₂ t b c d (by omega) (by omega)
  · exact h₃ t b c d (by omega) (by omega)
  · exact h₄ t b c d (by omega) (by omega)

/-- A round in the rotations of R11. -/
theorem sha1Round_eq (t : Nat) (w : Word32) (v : Five) :
    sha1Round t w v =
      ⟨v.a.rotateLeft 5 + sha1F t v.b v.c v.d + v.e + sha1K t + w, v.a, v.b.rotateLeft 30, v.c, v.d⟩ := by
  rw [sha1Round, rotl_eq_rotateLeft 5 _ (by decide), rotl_eq_rotateLeft 30 _ (by decide)]

/-- The compression, for a schedule listed by `W`: the chaining state plus the working variables after the 80 rounds. -/
theorem compressSha1_eq_foldl {blk : Bytes} {W : Nat → Word32} (hW : sha1Schedule blk = (List.range 80).map W) (h : Five) :
    compressSha1 h blk =
      let v := (List.range 80).foldl (fun x t => sha1Round t (W t) x) h
      ⟨h.a + v.a, h.b + v.b, h.c + v.c, h.d + v.d, h.e + v.e⟩ := by
  rw [compressSha1, hW, List.range_eq_range', sha1Rounds_eq_foldl]

/-- Settles O30: the schedule is `W` by `sha1Schedule_eq_map`, and each of the 80 rounds is the rule's by `sha1Round_eq`. -/
theorem sha1CompressionLoop : Obligations.Sha1CompressionLoop := by
  rintro h blk W K f hfirst hnext hK h₁ h₂ h₃ h₄ v rfl
  rw [compressSha1_eq_foldl (sha1Schedule_eq_map hfirst hnext)]
  have round : ∀ (x : Five), ∀ t ∈ List.range 80, sha1Round t (W t) x =
      ⟨x.a.rotateLeft 5 + f t x.b x.c x.d + x.e + K t + W t, x.a, x.b.rotateLeft 30, x.c, x.d⟩ := by
    intro x t ht
    have ht : t < 80 := List.mem_range.1 ht
    rw [sha1Round_eq, eq_sha1F h₁ h₂ h₃ h₄ ht, sha1K_eq, hK t ht]
  rw [List.foldl_ext _ _ h round]

end Sys2Proof
end

section
/-! PROOFS. SHA-256's compression (spec/42_sha256.md): the constants of R132 (and of R152) as cube roots of primes, the functions of
R133 in the rotations of R11, the schedule as the function `W` of R134, and the rounds as a loop over `t`. -/

namespace Sys2Proof

/-! ## The round constants (R132, R152) -/

/-- The numbers below 410 with no divisor from 2 on: the 80 primes of the two tables. -/
theorem filter_noDivisor_range_410 :
    (List.range 410).filter (fun n => decide (1 < n) && (List.range n).all fun d => decide (d < 2) || n % d != 0) =
      [2, 3, 5, 7, 11, 13, 17, 19, 23, 29, 31, 37, 41, 43, 47, 53, 59, 61, 67, 71, 73, 79, 83, 89, 97, 101, 103, 107, 109, 113,
        127, 131, 137, 139, 149, 151, 157, 163, 167, 173, 179, 181, 191, 193, 197, 199, 211, 223, 227, 229, 233, 239, 241, 251,
        257, 263, 269, 271, 277, 281, 283, 293, 307, 311, 313, 317, 331, 337, 347, 349, 353, 359, 367, 373, 379, 383, 389, 397,
        401, 409] := by
  decide +kernel

/-- Settles O29: with the primes listed, each constant's bounds are a comparison of two cubes. -/
theorem cubeRootRoundConstants : Obligations.CubeRootRoundConstants := by
  unfold Obligations.CubeRootRoundConstants
  rw [filter_noDivisor_range_410]
  refine ⟨rfl, rfl, ?sha512, ?sha256, Nat.le_refl 80⟩
  case sha512 => decide +kernel
  case sha256 => decide +kernel

/-! ## The functions (R133) -/

theorem sha256BigSigma0_eq (x : Word32) :
    sha256BigSigma0 x = x.rotateRight 2 ^^^ x.rotateRight 13 ^^^ x.rotateRight 22 := by
  rw [sha256BigSigma0, rotr_eq_rotateRight32 2 _ (by decide), rotr_eq_rotateRight32 13 _ (by decide),
    rotr_eq_rotateRight32 22 _ (by decide)]

theorem sha256BigSigma1_eq (x : Word32) :
    sha256BigSigma1 x = x.rotateRight 6 ^^^ x.rotateRight 11 ^^^ x.rotateRight 25 := by
  rw [sha256BigSigma1, rotr_eq_rotateRight32 6 _ (by decide), rotr_eq_rotateRight32 11 _ (by decide),
    rotr_eq_rotateRight32 25 _ (by decide)]

theorem sha256SmallSigma0_eq (x : Word32) :
    sha256SmallSigma0 x = x.rotateRight 7 ^^^ x.rotateRight 18 ^^^ (x >>> 3) := by
  rw [sha256SmallSigma0, rotr_eq_rotateRight32 7 _ (by decide), rotr_eq_rotateRight32 18 _ (by decide)]

theorem sha256SmallSigma1_eq (x : Word32) :
    sha256SmallSigma1 x = x.rotateRight 17 ^^^ x.rotateRight 19 ^^^ (x >>> 10) := by
  rw [sha256SmallSigma1, rotr_eq_rotateRight32 17 _ (by decide), rotr_eq_rotateRight32 19 _ (by decide)]

/-! ## The message schedule (R134) -/

/-- The next word after `W[0..t-1]`. -/
theorem sha256NextWord_map_range (W : Nat → Word32) {t : Nat} (ht : 16 ≤ t) :
    sha256NextWord ((List.range t).map W) =
      sha256SmallSigma1 (W (t - 2)) + W (t - 7) + sha256SmallSigma0 (W (t - 15)) + W (t - 16) := by
  have word : ∀ k, 0 < k → ((List.range t).map W).getD (t - k) 0 = W (t - k) :=
    fun k _ => getD_map_range W t (t - k) 0 (by omega)
  rw [sha256NextWord, List.length_map, List.length_range, word 2 (by decide), word 7 (by decide), word 15 (by decide),
    word 16 (by decide)]

/-- A function that meets the two equations of R134 lists the schedule. -/
theorem sha256Schedule_eq_map {blk : Bytes} {W : Nat → Word32}
    (hfirst : ∀ t, t < 16 → W t = BitVec.ofNat 32 (fromBE ((blk.drop (4 * t)).take 4)))
    (hnext : ∀ t, 16 ≤ t → t < 64 →
      W t = sha256SmallSigma1 (W (t - 2)) + W (t - 7) + sha256SmallSigma0 (W (t - 15)) + W (t - 16)) :
    sha256Schedule blk = (List.range 64).map W := by
  rw [sha256Schedule, schedule_first 32 blk W hfirst]
  refine schedule_extend sha256NextWord sha256Extend (fun _ => rfl) (fun _ _ => rfl) W 64 (fun ws h16 h64 hws => ?_)
    48 16 (by decide) (by decide)
  rw [hnext ws.length h16 h64, ← sha256NextWord_map_range W h16, ← hws]

/-! ## The rounds (R135, R136) -/

/-- The rounds with constants and words listed over the same indices, as a loop. -/
theorem sha256Rounds_map (K W : Nat → Word32) (ts : List Nat) (v : Eight 32) :
    sha256Rounds (ts.map K) (ts.map W) v = ts.foldl (fun x t => sha256Round (K t) (W t) x) v := by
  induction ts generalizing v with
  | nil => rfl
  | cons t ts ih => exact ih (sha256Round (K t) (W t) v)

/-- The table of constants, by index. -/
theorem sha256K_eq_map : sha256K = (List.range 64).map fun t => sha256K.getD t 0 := rfl

/-- The compression, for a schedule listed by `W`: the chaining state plus the working variables after the 64 rounds. -/
theorem compressSha256_eq_foldl {blk : Bytes} {W : Nat → Word32} (hW : sha256Schedule blk = (List.range 64).map W)
    (h : Eight 32) :
    compressSha256 h blk =
      let v := (List.range 64).foldl (fun x t => sha256Round (sha256K.getD t 0) (W t) x) h
      ⟨h.a + v.a, h.b + v.b, h.c + v.c, h.d + v.d, h.e + v.e, h.f + v.f, h.g + v.g, h.h + v.h⟩ := by
  rw [compressSha256, hW, ← sha256Rounds_map, ← sha256K_eq_map]

/-- Settles O31: the equations of R133 name the model's functions, `sha256Schedule_eq_map` lists the schedule, and a round is
the rule's assignment by definition. -/
theorem sha256CompressionLoop : Obligations.Sha256CompressionLoop := by
  rintro h blk W Ch Maj S0 S1 s0 s1 hCh hMaj hS0 hS1 hs0 hs1 hfirst hnext v rfl
  obtain rfl : Ch = sha256Ch := funext fun x => funext fun y => funext (hCh x y)
  obtain rfl : Maj = sha256Maj := funext fun x => funext fun y => funext (hMaj x y)
  obtain rfl : S0 = sha256BigSigma0 := funext fun x => (hS0 x).trans (sha256BigSigma0_eq x).symm
  obtain rfl : S1 = sha256BigSigma1 := funext fun x => (hS1 x).trans (sha256BigSigma1_eq x).symm
  obtain rfl : s0 = sha256SmallSigma0 := funext fun x => (hs0 x).trans (sha256SmallSigma0_eq x).symm
  obtain rfl : s1 = sha256SmallSigma1 := funext fun x => (hs1 x).trans (sha256SmallSigma1_eq x).symm
  exact compressSha256_eq_foldl (sha256Schedule_eq_map hfirst hnext) h

end Sys2Proof
end

section
/-! PROOFS. SHA-512's compression (spec/43_sha512.md): the functions of R153 in the rotations of R11, the schedule as the function
`W` of R154, and the rounds as a loop over `t`. -/

namespace Sys2Proof

/-! ## The functions (R153) -/

theorem sha512BigSigma0_eq (x : Word64) :
    sha512BigSigma0 x = x.rotateRight 28 ^^^ x.rotateRight 34 ^^^ x.rotateRight 39 := by
  rw [sha512BigSigma0, rotr_eq_rotateRight64 28 _ (by decide), rotr_eq_rotateRight64 34 _ (by decide),
    rotr_eq_rotateRight64 39 _ (by decide)]

theorem sha512BigSigma1_eq (x : Word64) :
    sha512BigSigma1 x = x.rotateRight 14 ^^^ x.rotateRight 18 ^^^ x.rotateRight 41 := by
  rw [sha512BigSigma1, rotr_eq_rotateRight64 14 _ (by decide), rotr_eq_rotateRight64 18 _ (by decide),
    rotr_eq_rotateRight64 41 _ (by decide)]

theorem sha512SmallSigma0_eq (x : Word64) :
    sha512SmallSigma0 x = x.rotateRight 1 ^^^ x.rotateRight 8 ^^^ (x >>> 7) := by
  rw [sha512SmallSigma0, rotr_eq_rotateRight64 1 _ (by decide), rotr_eq_rotateRight64 8 _ (by decide)]

theorem sha512SmallSigma1_eq (x : Word64) :
    sha512SmallSigma1 x = x.rotateRight 19 ^^^ x.rotateRight 61 ^^^ (x >>> 6) := by
  rw [sha512SmallSigma1, rotr_eq_rotateRight64 19 _ (by decide), rotr_eq_rotateRight64 61 _ (by decide)]

/-! ## The message schedule (R154) -/

/-- The next word after `W[0..t-1]`. -/
theorem sha512NextWord_map_range (W : Nat → Word64) {t : Nat} (ht : 16 ≤ t) :
    sha512NextWord ((List.range t).map W) =
      sha512SmallSigma1 (W (t - 2)) + W (t - 7) + sha512SmallSigma0 (W (t - 15)) + W (t - 16) := by
  have word : ∀ k, 0 < k → ((List.range t).map W).getD (t - k) 0 = W (t - k) :=
    fun k _ => getD_map_range W t (t - k) 0 (by omega)
  rw [sha512NextWord, List.length_map, List.length_range, word 2 (by decide), word 7 (by decide), word 15 (by decide),
    word 16 (by decide)]

/-- A function that meets the two equations of R154 lists the schedule. -/
theorem sha512Schedule_eq_map {blk : Bytes} {W : Nat → Word64}
    (hfirst : ∀ t, t < 16 → W t = BitVec.ofNat 64 (fromBE ((blk.drop (8 * t)).take 8)))
    (hnext : ∀ t, 16 ≤ t → t < 80 →
      W t = sha512SmallSigma1 (W (t - 2)) + W (t - 7) + sha512SmallSigma0 (W (t - 15)) + W (t - 16)) :
    sha512Schedule blk = (List.range 80).map W := by
  have next : ∀ ws : List Word64, 16 ≤ ws.length → ws.length < 80 → ws = (List.range ws.length).map W →
      sha512NextWord ws = W ws.length := by
    intro ws h16 h80 hws
    rw [hnext ws.length h16 h80, ← sha512NextWord_map_range W h16, ← hws]
  rw [sha512Schedule, schedule_first 64 blk W hfirst]
  exact schedule_extend sha512NextWord sha512Extend (fun _ => rfl) (fun _ _ => rfl) W 80 next 64 16 (by decide) (by decide)

/-! ## The rounds (R155, R156) -/

/-- The rounds with constants and words listed over the same indices, as a loop. -/
theorem sha512Rounds_map (K W : Nat → Word64) (ts : List Nat) (v : Eight 64) :
    sha512Rounds (ts.map K) (ts.map W) v = ts.foldl (fun x t => sha512Round (K t) (W t) x) v := by
  induction ts generalizing v with
  | nil => rfl
  | cons t ts ih => exact ih (sha512Round (K t) (W t) v)

/-- The table of constants, by index. -/
theorem sha512K_eq_map : sha512K = (List.range 80).map fun t => sha512K.getD t 0 := rfl

/-- The compression, for a schedule listed by `W`: the chaining state plus the working variables after the 80 rounds. -/
theorem compressSha512_eq_foldl {blk : Bytes} {W : Nat → Word64} (hW : sha512Schedule blk = (List.range 80).map W)
    (h : Eight 64) :
    compressSha512 h blk =
      let v := (List.range 80).foldl (fun x t => sha512Round (sha512K.getD t 0) (W t) x) h
      ⟨h.a + v.a, h.b + v.b, h.c + v.c, h.d + v.d, h.e + v.e, h.f + v.f, h.g + v.g, h.h + v.h⟩ := by
  rw [compressSha512, hW, ← sha512Rounds_map, ← sha512K_eq_map]

/-- Settles O32: the equations of R153 name the model's functions, `sha512Schedule_eq_map` lists the schedule, and a round is
the rule's assignment by definition. -/
theorem sha512CompressionLoop : Obligations.Sha512CompressionLoop := by
  rintro h blk W Ch Maj S0 S1 s0 s1 hCh hMaj hS0 hS1 hs0 hs1 hfirst hnext v rfl
  obtain rfl : Ch = sha512Ch := funext fun x => funext fun y => funext (hCh x y)
  obtain rfl : Maj = sha512Maj := funext fun x => funext fun y => funext (hMaj x y)
  obtain rfl : S0 = sha512BigSigma0 := funext fun x => (hS0 x).trans (sha512BigSigma0_eq x).symm
  obtain rfl : S1 = sha512BigSigma1 := funext fun x => (hS1 x).trans (sha512BigSigma1_eq x).symm
  obtain rfl : s0 = sha512SmallSigma0 := funext fun x => (hs0 x).trans (sha512SmallSigma0_eq x).symm
  obtain rfl : s1 = sha512SmallSigma1 := funext fun x => (hs1 x).trans (sha512SmallSigma1_eq x).symm
  exact compressSha512_eq_foldl (sha512Schedule_eq_map hfirst hnext) h

end Sys2Proof
end

section
/-! PROOFS. The statements about the HMAC engine's updates and finishes (spec/45_hmac.md R203, R204, R206): what the bodies of HUPD
and HFIN are in each phase, the results of HUPD, HFIN and HREINIT, and the MAC of one message on a keyed context. -/

namespace Sys2Proof.Machine

section
variable {s : State} {c : HCtx} {m : Bytes} {n : BitVec 32} {st : Status} {why : Refusal}

/-! ## HUPD and HFIN in each phase (R203, R204) -/

theorem hupdate_of_empty (hp : c.phase = .empty) : c.update m = .error (.raise (.misuse .contextEmpty)) := by
  rw [HCtx.update, hp]

theorem hupdate_of_finalized (hp : c.phase = .finalized) : c.update m = .error (.raise (.misuse .contextFinalized)) := by
  rw [HCtx.update, hp]

theorem hupdate_of_keyed (hp : c.phase = .keyed) :
    c.update m = (c.inner.update m).map fun inner => { c with inner := inner } := by
  rw [HCtx.update, hp]

theorem hfinish_of_empty {k : Nat} (hp : c.phase = .empty) : c.finish k = .error (.raise (.misuse .contextEmpty)) := by
  rw [HCtx.finish, hp]

theorem hfinish_of_finalized {k : Nat} (hp : c.phase = .finalized) :
    c.finish k = .error (.raise (.misuse .contextFinalized)) := by
  rw [HCtx.finish, hp]

theorem hfinish_zero (hp : c.phase = .keyed) : c.finish 0 = .error (.raise (.precondition .noMac)) := by
  rw [HCtx.finish, hp]; rfl

theorem hfinish_tooLong {k : Nat} (hp : c.phase = .keyed) (hk : c.alg.digestBytes < k) :
    c.finish k = .error (.raise (.precondition .macTooLong)) := by
  rw [HCtx.finish, hp]
  exact (if_neg (Nat.ne_zero_of_lt hk)).trans (if_pos hk)

/-! ## Commands that stop -/

theorem hupd_raises (hc : s.engine? = some (.hmac c)) (hx : c.update m = .error (.raise st)) : s.Raises (.hupd m) st :=
  raises_of_body hc (by simp [Instr.unit]) (by rw [body, hx]; rfl)

theorem hupd_refused (hc : s.engine? = some (.hmac c)) (hx : c.update m = .error (.refuse why)) :
    exec (.hupd m) s = .refused why :=
  refused_of_body hc (by simp [Instr.unit]) (by rw [body, hx]; rfl)

theorem hfin_raises (hc : s.engine? = some (.hmac c)) (hx : c.finish n.toNat = .error (.raise st)) : s.Raises (.hfin n) st :=
  raises_of_body hc (by simp [Instr.unit]) (by rw [body, hx]; rfl)

theorem hreinit_raises (hc : s.engine? = some (.hmac c)) (hx : c.reinit = .error (.raise st)) : s.Raises .hreinit st :=
  raises_of_body hc (by simp [Instr.unit]) (by rw [body, hx]; rfl)

end

/-! ## HUPD (R203) -/

/-- Two HUPDs leave what one HUPD of their data in order leaves (R102, for the inner context). -/
theorem hupd_hupd_engine {s : State} {c : HCtx} {m1 m2 : Bytes} (hc : s.engine? = some (.hmac c)) (hp : c.phase = .keyed)
    (ha : c.inner.phase = .active) (hb : c.inner.totBits.toNat + 8 * (m1.length + m2.length) < 2 ^ 64) :
    ∃ t1 t2, runCommands [.hupd m1, .hupd m2] s = .next t1 ∧ runCommands [.hupd (m1 ++ m2)] s = .next t2 ∧
      t1.engine? = t2.engine? := by
  have hb1 : c.inner.totBits.toNat + 8 * m1.length < 2 ^ 64 := by omega
  have hb2 : (c.inner.feed m1).totBits.toNat + 8 * m2.length < 2 ^ 64 := by
    rw [feed_totBits_toNat c.inner m1 hb1]; omega
  obtain ⟨t, ht, hat⟩ := hupd_step hc hp ha hb1
  obtain ⟨t1, ht1, hat1⟩ := hupd_step (m := m2) (answers_engine? hat) hp ((feed_phase ..).trans ha) hb2
  obtain ⟨t2, ht2, hat2⟩ := hupd_step (m := m1 ++ m2) hc hp ha (by rwa [List.length_append])
  refine ⟨t1, t2, by rw [runCommands_cons ht, runCommands_cons ht1]; rfl, by rw [runCommands_cons ht2]; rfl, ?_⟩
  rw [answers_engine? hat1, answers_engine? hat2, feed_append]

/-- HKEY, then HUPD within the bound, on a context in any state. -/
theorem hkey_hupd_engine {s : State} {c : HCtx} {a : Alg} {k m : Bytes} (hc : s.engine? = some (.hmac c))
    (hk : k.length ≤ a.blockBytes ∨ 8 * k.length < 2 ^ 64) (hm : 8 * (a.blockBytes + m.length) < 2 ^ 64) :
    ∃ t, runCommands [.hkey a k, .hupd m] s = .next t ∧
      t.engine? = some (.hmac { c.keyed a k with inner := (c.keyed a k).inner.feed m }) := by
  obtain ⟨htot, hact⟩ := keyed_inner (c := c) (a := a) (k := k)
  obtain ⟨t₁, hkey, ha₁⟩ := hkey_step hc hk
  obtain ⟨t₂, hupd, ha₂⟩ := hupd_step (m := m) (answers_engine? ha₁) rfl hact (by rw [htot]; omega)
  exact ⟨t₂, by rw [runCommands_cons hkey, runCommands_cons hupd]; rfl, answers_engine? ha₂⟩

/-- Settles O46: the checks by the body of HUPD in each phase, the result by `hupd_step` on the inner context, which the
invariant says is ACTIVE. -/
theorem hupdResult : Obligations.HupdResult := by
  obtain ⟨-, -, -, -, frame, -⟩ := frameOfEachCommand
  refine ⟨fun s c m hc => ⟨fun hp => ?_, fun hp => ?_, fun hp hi => ?_⟩, frame, fun s c m hc hm => ?_⟩
  · exact hupd_raises hc (hupdate_of_empty hp)
  · exact hupd_raises hc (hupdate_of_finalized hp)
  · obtain ⟨hact, -⟩ := keyInv_inner_inv (hi (by rw [hp]; decide)) hp
    refine ⟨fun hb => ?_, fun hb => ?_, fun m1 m2 hb => hupd_hupd_engine hc hp hact hb⟩
    · have hinner : c.inner.update m = .error (.refuse .messageTooLong) :=
        (update_error_iff ..).2 (.inr (.inr ⟨hact, hb, rfl⟩))
      exact hupd_refused hc (by rw [hupdate_of_keyed hp, hinner]; rfl)
    · obtain ⟨t, ht, ha⟩ := hupd_step hc hp hact hb
      exact ⟨t, c.inner.feed m, ht, ha, update_ok c.inner m hact hb, feed_totBits_toNat c.inner m hb,
        fun hm => hm ▸ feed_nil c.inner⟩
  · obtain ⟨t, ht, he⟩ := hkey_hupd_engine (a := .sha256) (k := [0x6b, 0x65, 0x79]) (m := m) hc (.inl (by decide))
      (by rw [hm]; decide)
    refine ⟨t, _, ht, he, BitVec.eq_of_toNat_eq ?_⟩
    have htot := (keyed_inner (c := c) (a := .sha256) (k := [0x6b, 0x65, 0x79])).1
    rw [feed_totBits_toNat _ _ (by rw [htot, hm]; decide), htot, hm]
    rfl

/-! ## HFIN (R204) -/

/-- Settles O47: the checks by the body of HFIN in each phase, the MAC by `hfin_step`, whose two digests the invariant keeps from
stopping. -/
theorem hfinResult : Obligations.HfinResult := by
  obtain ⟨-, -, -, -, -, frame, -⟩ := frameOfEachCommand
  refine ⟨fun s c n hc => ⟨fun hp => ?_, fun hp => ?_, fun hp hn => ?_, fun hp hn => ?_, fun hp hi hn hd => ?_⟩, frame⟩
  · exact hfin_raises hc (hfinish_of_empty hp)
  · exact hfin_raises hc (hfinish_of_finalized hp)
  · subst hn; exact hfin_raises hc (hfinish_zero hp)
  · exact hfin_raises hc (hfinish_tooLong hp hn)
  · have hk : c.KeyInv := hi (by rw [hp]; decide)
    obtain ⟨hinner, hobase, hfits, -⟩ := (mac_ok_iff ..).1 (keyInv_mac hk hp)
    rw [← close_length] at hfits
    have hlen : c.inner.close.1.length = c.alg.digestBytes := by rw [close_length, hk.inner_alg]
    have hmac : (c.obase.feed c.inner.close.1).close.1.length = c.alg.digestBytes := by
      rw [close_length, feed_alg, hk.obase.alg_eq]
    obtain ⟨t, ht, ha⟩ := hfin_step hc hk hp hn hd
    exact ⟨t, _, _, _, _, _, ht, ha, finish_ok _ hinner, hlen, close_phase _, update_ok _ _ hobase hfits,
      finish_ok _ ((feed_phase ..).trans hobase), hmac⟩

/-! ## HREINIT (R206) -/

/-- `HUPD m; HFIN n` on a KEYED context: the two commands joined, the invariant carried through HUPD by `hupdate_inv`. -/
theorem hupd_hfin_result {s : State} {c : HCtx} {m : Bytes} {n : BitVec 32} (hc : s.engine? = some (.hmac c)) (hi : c.KeyInv)
    (hp : c.phase = .keyed) (hb : c.inner.totBits.toNat + 8 * m.length < 2 ^ 64) (hn : n ≠ 0)
    (hd : n.toNat ≤ c.alg.digestBytes) :
    ∃ t, runCommands [.hupd m, .hfin n] s = .next t ∧
      t.engine? = some (.hmac { c with inner := (c.inner.feed m).close.2, phase := .finalized }) ∧
      t.lastResponse = some ⟨.ok, some ((c.obase.feed (c.inner.feed m).close.1).close.1.take n.toNat)⟩ := by
  obtain ⟨hact, -⟩ := keyInv_inner_inv hi hp
  have hupdate : c.update m = .ok { c with inner := c.inner.feed m } :=
    (hupdate_ok_iff ..).2 ⟨hp, _, update_ok c.inner m hact hb, rfl⟩
  have hi' : HCtx.KeyInv { c with inner := c.inner.feed m } :=
    hupdate_inv (fun _ => hi) hupdate (by rw [hp]; decide)
  obtain ⟨t₁, hupd, ha₁⟩ := hupd_step hc hp hact hb
  obtain ⟨t₂, hfin, ha₂⟩ := hfin_step (answers_engine? ha₁) hi' hp hn hd
  exact ⟨t₂, by rw [runCommands_cons hupd, runCommands_cons hfin]; rfl, answers_engine? ha₂, answers_lastResponse ha₂⟩

/-- On a context just keyed, `HUPD m; HFIN n` answers the closed form of HMAC (R207). -/
theorem hupd_hfin_keyed {s : State} {c : HCtx} {a : Alg} {k m : Bytes} {n : BitVec 32}
    (hc : s.engine? = some (.hmac (c.keyed a k))) (hm : 8 * (a.blockBytes + m.length) < 2 ^ 64) (hn : n ≠ 0)
    (hd : n.toNat ≤ a.digestBytes) :
    ∃ t, runCommands [.hupd m, .hfin n] s = .next t ∧ t.lastResponse = some ⟨.ok, some (hmacClosed a k m n.toNat)⟩ := by
  have hb : (c.keyed a k).inner.totBits.toNat + 8 * m.length < 2 ^ 64 := by rw [keyed_inner.1]; omega
  obtain ⟨t, hrun, -, hresp⟩ := hupd_hfin_result hc (keyed_inv c a k) rfl hb hn hd
  rw [inner_close m hm, outer_close _ (by rw [digestClosed_length]; exact mac_fits a)] at hresp
  exact ⟨t, hrun, hresp⟩

/-- `HKEY A, k; HUPD m; HREINIT` leaves what `HKEY A, k` leaves. -/
theorem hkey_hupd_hreinit_engine {s : State} {c : HCtx} {a : Alg} {k m : Bytes} (hc : s.engine? = some (.hmac c))
    (hk : k.length ≤ a.blockBytes ∨ 8 * k.length < 2 ^ 64) (hm : 8 * (a.blockBytes + m.length) < 2 ^ 64) :
    ∃ t, runCommands [.hkey a k, .hupd m, .hreinit] s = .next t ∧ t.engine? = some (.hmac (c.keyed a k)) := by
  obtain ⟨t₁, hrun, he₁⟩ := hkey_hupd_engine hc hk hm
  obtain ⟨t₂, hre, ha₂⟩ := hreinit_step he₁ (fun h => nomatch h)
  exact ⟨t₂, (runCommands_append [_, _] [_] hrun).trans (runCommands_cons hre), answers_engine? ha₂⟩

/-- Settles O48: the check by `reinit_error_iff`, the result by `hreinit_step` twice, and the example by `hupd_hfin_keyed` from
the context that HKEY leaves and from the same one restored. -/
theorem hreinitResult : Obligations.HreinitResult := by
  obtain ⟨-, -, -, -, -, -, frame, -⟩ := frameOfEachCommand
  refine ⟨fun s c hc => ⟨fun hp => ?_, fun hp => ?_⟩, frame, fun s c m hc hm => ?_⟩
  · exact hreinit_raises hc ((reinit_error_iff ..).2 ⟨hp, rfl⟩)
  · obtain ⟨t, ht, ha⟩ := hreinit_step hc hp
    obtain ⟨t', ht', ha'⟩ := hreinit_step (answers_engine? ha) (fun h => nomatch h)
    exact ⟨t, t', ht, ha, ht', (answers_engine? ha').trans (answers_engine? ha).symm⟩
  · have hk : ([0x6b, 0x65, 0x79] : Bytes).length ≤ Alg.sha256.blockBytes := by decide
    obtain ⟨u, hu, heu⟩ := hkey_hupd_hreinit_engine (m := [0x78]) hc (.inl hk) (by decide)
    obtain ⟨v, hv, hav⟩ := hkey_step hc (.inl hk)
    obtain ⟨t, ht, hr⟩ := hupd_hfin_keyed (m := m) (n := 32) heu hm (by decide) (by decide)
    obtain ⟨t', ht', hr'⟩ := hupd_hfin_keyed (m := m) (n := 32) (answers_engine? hav) hm (by decide) (by decide)
    exact ⟨t, t', (runCommands_append [_, _, _] _ hu).trans ht, (runCommands_cons hv).trans ht', hr.trans hr'.symm⟩

end Sys2Proof.Machine
end

section
/-! PROOFS. The statements about the statuses (spec/60_exceptions.md): MISUSE by the phase of a context, the checks of PRECONDITION
in their order, the four cases the model refuses, and the order of the causes. -/

namespace Sys2Proof

/-! ## The order of the tests on a word (R241, R246) -/

section
variable {w : BitVec 32} {k : UnitKind} {op : Op}

theorem Op.mem_all (op : Op) : op ∈ Op.all := by cases op <;> decide

/-- The decoder finds no mnemonic where no opcode of the map is the word's. -/
theorem ofOpc?_eq_none_iff_forall : Op.ofOpc? (opcField w) = none ↔ ∀ o ∈ Op.all, o.opc ≠ opcField w := by
  simp [Op.ofOpc?]

theorem exists_opc_of_ofOpc? (h : Op.ofOpc? (opcField w) = some op) : ∃ o ∈ Op.all, o.opc = opcField w :=
  ⟨op, op.mem_all, (ofOpc?_eq_some.1 h).symm⟩

/-- The tests on the word of a mnemonic, in the fields of R70. -/
theorem decodeWord_of_ofOpc? (h : Op.ofOpc? (opcField w) = some op) :
    decodeWord w k = if kindField w ≠ k.code then .error .opcode
      else if rsvField w ≠ 0 then .error .reservedBits else op.readHead w := by
  simp only [decodeWord_of_opc (ofOpc?_opcField_eq_some.1 h), ne_eq, kindField_eq_code, rsvField_eq_zero]

theorem readHead_ne_opcode : op.readHead w ≠ .error .opcode := by
  rw [ne_eq, readHead_error_iff]; simp

theorem readHead_ne_reservedBits : op.readHead w ≠ .error .reservedBits := by
  rw [ne_eq, readHead_error_iff]; simp

/-- DETAIL 1 is the first test. -/
theorem decodeWord_eq_opcode_iff :
    decodeWord w k = .error .opcode ↔ (∀ o ∈ Op.all, o.opc ≠ opcField w) ∨ kindField w ≠ k.code := by
  rw [← ofOpc?_eq_none_iff_forall]
  cases ho : Op.ofOpc? (opcField w) with
  | none => simp [decodeWord, ho]
  | some op =>
    rw [decodeWord_of_ofOpc? ho]
    by_cases hkind : kindField w = k.code
    · rw [if_neg (not_not.2 hkind)]
      refine iff_of_false (fun h => ?_) (by simp [hkind])
      split_ifs at h
      · cases h
      · exact readHead_ne_opcode h
    · simp [hkind]

/-- DETAIL 2 is the second test: it is decided on a word that has passed the first, whatever `ALG` is. -/
theorem decodeWord_eq_reservedBits_iff :
    decodeWord w k = .error .reservedBits ↔
      rsvField w ≠ 0 ∧ kindField w = k.code ∧ ∃ o ∈ Op.all, o.opc = opcField w := by
  cases ho : Op.ofOpc? (opcField w) with
  | none =>
    have hno : ¬ ∃ o ∈ Op.all, o.opc = opcField w := fun ⟨o, ho', heq⟩ => ofOpc?_eq_none_iff_forall.1 ho o ho' heq
    simp [decodeWord, ho, hno]
  | some op =>
    rw [decodeWord_of_ofOpc? ho]
    by_cases hkind : kindField w = k.code
    · rw [if_neg (not_not.2 hkind)]
      split_ifs with hrsv
      · exact iff_of_true rfl ⟨hrsv, hkind, exists_opc_of_ofOpc? ho⟩
      · exact iff_of_false readHead_ne_reservedBits fun h => hrsv h.1
    · simp [hkind]

end

end Sys2Proof

namespace Sys2Proof.Machine

/-! ## Where a status and a refusal come from -/

section
variable {i : Instr} {s t : State} {r : Response} {e : Engine}

/-- A status other than OK and ALLOC_FAIL is the one the command's body raises. -/
theorem body_of_status (h : exec i s = .next t) (hr : t.lastResponse = some r) (hok : r.status ≠ .ok)
    (halloc : r.status ≠ .allocFail) : ∃ e, body i e = .error (.raise r.status) := by
  obtain ⟨u, -, ⟨h, -⟩ | ⟨st, rfl, hb⟩ | ⟨rfl, -⟩⟩ := exec_lastResponse h hr
  · exact absurd h hok
  · exact ⟨u.engine, hb⟩
  · exact absurd rfl halloc

theorem conclude_eq_refused_iff {x : Except Stop (Engine × Option Bytes)} {why : Refusal} :
    s.conclude x = .refused why ↔ x = .error (.refuse why) := by
  rcases x with (st | w) | r <;> simp [State.conclude, State.raise]

/-- A command of the digest unit or the HMAC engine is refused exactly when its body is. -/
theorem exec_eq_refused_iff (he : s.engine? = some e) (hi : i.unit ≠ .pbkdf2) {why : Refusal} :
    exec i s = .refused why ↔ body i e = .error (.refuse why) := by
  obtain ⟨u, hu, rfl⟩ := unit_of_engine? he
  rw [exec_eq_body hu hi, conclude_eq_refused_iff]

theorem map_eq_error_iff {α β : Type} {x : Except Stop α} {f : α → β} {z : Stop} : x.map f = .error z ↔ x = .error z := by
  cases x <;> simp [Except.map]

/-- A command whose body is not refused is answered. -/
theorem exec_next_of_body {u : HwUnit} (hu : s.unit? = some u) (hb : body i u.engine ≠ .error (.refuse .messageTooLong)) :
    ∃ t, exec i s = .next t := by
  rcases exec_cases i hu with ⟨_, _, _, t, -, h, -⟩ | ⟨_, t, -, h, -⟩ | ⟨t, -, -, -, h, -⟩ | ⟨hr, -⟩
  · exact ⟨t, h⟩
  · exact ⟨t, h⟩
  · exact ⟨t, h⟩
  · exact absurd hr hb

end

/-! ## MISUSE (R242) -/

/-- Settles O14: the body of each command in each phase, and `body_error` for the commands that raise MISUSE. -/
theorem misuseByPhase : Obligations.MisuseByPhase := by
  refine ⟨⟨rfl, rfl⟩, fun s c hc => ⟨fun hp => ⟨fun m => ?_, ?_⟩, fun hp => ⟨fun m => ?_, ?_⟩⟩,
    fun s c hc => ⟨fun hp => ⟨fun m => ?_, fun n => ?_, ?_⟩, fun hp => ⟨fun m => ?_, fun n => ?_, ?_⟩⟩, ?_⟩
  · exact dupd_raises hc ((update_error_iff ..).2 (.inl ⟨hp, rfl⟩))
  · exact dfin_raises hc ((finish_error_iff ..).2 (.inl ⟨hp, rfl⟩))
  · exact dupd_raises hc ((update_error_iff ..).2 (.inr (.inl ⟨hp, rfl⟩)))
  · exact dfin_raises hc ((finish_error_iff ..).2 (.inr ⟨hp, rfl⟩))
  · exact hupd_raises hc (hupdate_of_empty hp)
  · exact hfin_raises hc (hfinish_of_empty hp)
  · exact hreinit_raises hc ((reinit_error_iff ..).2 ⟨hp, rfl⟩)
  · exact hupd_raises hc (hupdate_of_finalized hp)
  · exact hfin_raises hc (hfinish_of_finalized hp)
  · obtain ⟨t, ht, ha⟩ := hreinit_step hc (by rw [hp]; decide)
    exact ⟨t, _, ht, ha⟩
  · intro i s t r why h hr hst
    obtain ⟨e, hb⟩ := body_of_status h hr (by rw [hst]; nofun) (by rw [hst]; nofun)
    rcases body_error hb with ⟨hx, -⟩ | ⟨_, -, -, hi⟩ | ⟨_, hx, -⟩ | ⟨hx, -⟩
    · rw [hst] at hx; cases hx
    · rcases hi with ⟨m, rfl⟩ | rfl | ⟨m, rfl⟩ | ⟨n, rfl⟩ | rfl <;> exact ⟨nofun, nofun, nofun⟩
    · rw [hst] at hx; cases hx
    · cases hx

/-! ## The checks of PBKDF2 (R221, R244) -/

section
variable {a : Alg} {p salt : Bytes} {c dk : Nat}

theorem checks_noIterations : pbkdf2Checks a p salt 0 dk = .error (.raise (.precondition .noIterations)) := if_pos rfl

theorem checks_noOutput (hc : c ≠ 0) : pbkdf2Checks a p salt c 0 = .error (.raise (.precondition .noOutput)) :=
  (if_neg hc).trans (if_pos rfl)

theorem checks_outputTooLong (hc : c ≠ 0) (hdk : pbkdf2MaxOutput a < dk) :
    pbkdf2Checks a p salt c dk = .error (.raise (.precondition .outputTooLong)) :=
  (if_neg hc).trans ((if_neg (Nat.ne_zero_of_lt hdk)).trans (if_pos hdk))

/-- Once the preconditions have passed, the refusal is decided by the password and the salt. -/
theorem checks_eq_refuse_iff (hc : c ≠ 0) (hdk : dk ≠ 0) (hmax : dk ≤ pbkdf2MaxOutput a) :
    pbkdf2Checks a p salt c dk = .error (.refuse .messageTooLong) ↔
      keyTooLong a p = true ∨ Config.maxMsgBits ≤ 8 * (a.blockBytes + salt.length + 4) := by
  rw [pbkdf2Checks, if_neg hc, if_neg hdk, if_neg (Nat.not_lt.2 hmax)]
  split_ifs <;> simp_all

end

section
variable {s : State} {a : Alg} {p salt : Bytes} {c : BitVec 32} {dk : BitVec 64}

theorem pbkdf2_raises (he : s.engine? = some .pbkdf2) {st : Status}
    (hx : pbkdf2Checks a p salt c.toNat dk.toNat = .error (.raise st)) : s.Raises (.pbkdf2 a p salt c dk) st := by
  obtain ⟨u, hu, -⟩ := unit_of_engine? he
  exact raises_of_exec hu (exec_pbkdf2_of_check he hx)

/-- PBKDF2 is refused exactly when its checks refuse it: past them there is only the draw and the derivation. -/
theorem pbkdf2_eq_refused_iff (he : s.engine? = some .pbkdf2) {why : Refusal} :
    exec (.pbkdf2 a p salt c dk) s = .refused why ↔ pbkdf2Checks a p salt c.toNat dk.toNat = .error (.refuse why) := by
  cases hx : pbkdf2Checks a p salt c.toNat dk.toNat with
  | error x => rw [exec_pbkdf2_of_check he hx, conclude_eq_refused_iff, Except.error.injEq, Except.error.injEq]
  | ok _ =>
    obtain ⟨t, ht, -⟩ := exec_pbkdf2_of_ok he hx
    rw [ht]; simp

end

/-- Settles O15: the checks of HFIN and of PBKDF2 in their order, and `body_error` for the commands that raise PRECONDITION. -/
theorem preconditionChecks : Obligations.PreconditionChecks := by
  refine ⟨⟨rfl, rfl, rfl, rfl, rfl⟩, fun s c n hc hp => ⟨?_, fun hn => ?_⟩,
    fun s a p salt c dk he => ⟨?_, ?_, fun hc hdk => ?_⟩, ?_⟩
  · rintro rfl; exact hfin_raises hc (hfinish_zero hp)
  · exact hfin_raises hc (hfinish_tooLong hp hn)
  · rintro rfl; exact pbkdf2_raises he checks_noIterations
  · rintro hc rfl; exact pbkdf2_raises he (checks_noOutput (BitVec.toNat_ne.1 hc))
  · exact pbkdf2_raises he (checks_outputTooLong (BitVec.toNat_ne.1 hc) hdk)
  · intro i s t r why h hr hst
    obtain ⟨e, hb⟩ := body_of_status h hr (by rw [hst]; nofun) (by rw [hst]; nofun)
    rcases body_error hb with ⟨hx, -⟩ | ⟨_, hx, -⟩ | ⟨_, hx, -, hi⟩ | ⟨hx, -⟩
    · rw [hst] at hx; cases hx
    · rw [hst] at hx; cases hx
    · rw [hst] at hx; cases hx; exact hi
    · cases hx

/-! ## The model's refusals (R256) -/

theorem finish_ne_refuse (c : DCtx) (why : Refusal) : c.finish ≠ .error (.refuse why) := fun h => by
  rcases (finish_error_iff ..).1 h with ⟨-, hx⟩ | ⟨-, hx⟩ <;> cases hx

theorem reinit_ne_refuse (c : HCtx) (why : Refusal) : c.reinit ≠ .error (.refuse why) := fun h => by
  obtain ⟨-, hx⟩ := (reinit_error_iff ..).1 h; cases hx

/-- The invariant keeps the two digests of HFIN from being stopped (`keyInv_mac`). -/
theorem hfinish_ne_refuse {c : HCtx} (hi : c.Inv) (n : Nat) (why : Refusal) : c.finish n ≠ .error (.refuse why) := fun h => by
  rcases hfinish_error h with ⟨-, hx⟩ | ⟨-, hx⟩ | ⟨-, -, hx⟩ | ⟨-, -, hx⟩ | ⟨hp, hmac⟩
  case inr.inr.inr.inr => rw [keyInv_mac (hi (by rw [hp]; decide)) hp] at hmac; cases hmac
  all_goals cases hx

/-- DINIT, DFIN, HFIN and HREINIT are not refused on a context with its invariant. -/
theorem body_ne_refuse {i : Instr} {e : Engine} (he : e.Inv)
    (hi : (∃ a, i = .dinit a) ∨ i = .dfin ∨ (∃ n, i = .hfin n) ∨ i = .hreinit) (why : Refusal) :
    body i e ≠ .error (.refuse why) := by
  by_cases hk : i.unit = e.kind
  · rcases hi with ⟨a, rfl⟩ | rfl | ⟨n, rfl⟩ | rfl <;> cases e <;> cases hk
    · nofun
    · exact fun h => finish_ne_refuse _ why (map_eq_error_iff.1 h)
    · exact fun h => hfinish_ne_refuse he _ why (map_eq_error_iff.1 h)
    · exact fun h => reinit_ne_refuse _ why (map_eq_error_iff.1 h)
  · rw [body_wrongKind hk]; nofun

/-- Settles O18: a command is refused exactly when its body is, or PBKDF2's checks are; the other four by `body_ne_refuse`. -/
theorem refusedExactlyPastBound : Obligations.RefusedExactlyPastBound := by
  refine ⟨fun s c m hc hp => ?_, fun s c m hc hi hp => ?_, fun s c a k hc => ?_,
    fun s a p salt c dk he hc hdk hmax => ?_, fun i s hi hcmd => ?_⟩
  · rw [exec_eq_refused_iff hc (by simp [Instr.unit]), body, map_eq_error_iff, update_error_iff]
    simp [hp, Config.maxMsgBits]
  · obtain ⟨hact, -⟩ := keyInv_inner_inv (hi (by rw [hp]; decide)) hp
    rw [exec_eq_refused_iff hc (by simp [Instr.unit]), body, map_eq_error_iff, hupdate_of_keyed hp, map_eq_error_iff,
      update_error_iff]
    simp [hact, Config.maxMsgBits]
  · rw [exec_eq_refused_iff hc (by simp [Instr.unit]), body, map_eq_error_iff, key_eq, ← keyTooLong_eq_true]
    cases keyTooLong a k <;> simp
  · rw [pbkdf2_eq_refused_iff he, checks_eq_refuse_iff (BitVec.toNat_ne.1 hc) (BitVec.toNat_ne.1 hdk) hmax, keyTooLong_eq_true,
      Config.maxMsgBits]
  · obtain ⟨u, hu, hmem⟩ := unit?_of_inv hi
    exact exec_next_of_body hu (body_ne_refuse (hi.engines u hmem) hcmd _)

/-! ## The order of the causes (R246) -/

/-- Settles O19: the order on a word by the tests of the decoder, the order on a command by the statements on each cause, which
name no later check. -/
theorem statusPriority : Obligations.StatusPriority := by
  obtain ⟨-, digest, hmac, -⟩ := misuseByPhase
  obtain ⟨-, -, pbkdf2, -⟩ := preconditionChecks
  obtain ⟨-, -, -, refused, -⟩ := refusedExactlyPastBound
  refine ⟨by decide, fun w k => decodeWord_eq_opcode_iff, fun w k => decodeWord_eq_reservedBits_iff,
    fun s u why rest hr hu hd => ?_, fun s c m hc => ?_, fun s c m n hc => ?_, fun s a p salt dk he => ?_,
    fun s a p salt c he hc => ?_, fun s a p salt c dk he hc hdk => ?_, fun s a p salt c dk he hc hdk hmax => ?_⟩
  · have hlt : s.cur < s.units.length := (List.getElem?_eq_some_iff.1 hu).1
    exact ⟨_, _, step_illegal hr hu hd,
      (congrArg (·[s.cur]?) (passTurn_units _)).trans (List.getElem?_set_self hlt), rfl⟩
  · obtain ⟨empty, finalized⟩ := digest s c hc
    exact ⟨fun hp => (empty hp).1 m, fun hp => (finalized hp).1 m⟩
  · obtain ⟨empty, finalized⟩ := hmac s c hc
    refine ⟨fun hp => ?_, fun hp => ?_⟩
    · obtain ⟨hupd, hfin, -⟩ := empty hp
      exact ⟨hupd m, hfin n⟩
    · obtain ⟨hupd, hfin, -⟩ := finalized hp
      exact ⟨hupd m, hfin n⟩
  · exact (pbkdf2 s a p salt 0 dk he).1 rfl
  · exact (pbkdf2 s a p salt c 0 he).2.1 hc rfl
  · exact (pbkdf2 s a p salt c dk he).2.2 hc hdk
  · exact (refused s a p salt c dk he hc hdk hmax).2

end Sys2Proof.Machine
end

section
/-! PROOFS. The statement about the reset event (spec/70_reset_and_hazards.md section 1). -/

namespace Sys2Proof.Machine

theorem step_eq_platformReset {s : State} (hr : s.resetLine = true) : step s = .next s.platformReset := if_pos hr

theorem phase_of_initial_eq_digest {k : UnitKind} {c : DCtx} (h : Engine.initial k = .digest c) : c.phase = .empty := by
  cases k <;> cases h
  case digest => rfl

theorem phase_of_initial_eq_hmac {k : UnitKind} {c : HCtx} (h : Engine.initial k = .hmac c) : c.phase = .empty := by
  cases k <;> cases h
  case hmac => rfl

/-- The reset event leaves every unit in its place, as `HwUnit.reset` has it (R270). -/
theorem platformReset_units_getElem? {s : State} {k : Nat} {u : HwUnit} (hu : s.units[k]? = some u) :
    s.platformReset.units[k]? = some u.reset := by
  rw [platformReset_units, List.getElem?_map, hu, Option.map_some]

/-- Settles O22: unit `k` is `u.reset` after the event, whose engine is `Engine.initial` of its kind. -/
theorem resetEvent : Obligations.ResetEvent := by
  intro s hr
  refine ⟨s.platformReset, step_eq_platformReset hr, by simp, fun k u hu => ?_⟩
  exact ⟨u.reset, platformReset_units_getElem? hu, unit_reset_kind u, unit_reset_rsp u,
    fun _ hc => phase_of_initial_eq_digest hc, fun _ hc => phase_of_initial_eq_hmac hc⟩

end Sys2Proof.Machine
end

section
/-! PROOFS. The round trip of frames (spec/30_encoding.md section 3): a frame is the word of its head and then its operands; the
decoder of words and the reader of operands are the inverses of the two; and the frame of a command on another unit's channel. -/

namespace Sys2Proof

/-! ## A command as its head and its operands (R70, R76) -/

/-- The mnemonic of a head. -/
def Head.op : Head → Op
  | .dinit _ => .dinit
  | .dupd => .dupd
  | .dfin => .dfin
  | .hkey _ => .hkey
  | .hupd => .hupd
  | .hfin => .hfin
  | .hreinit => .hreinit
  | .pbkdf2 _ => .pbkdf2

/-- The `ALG` field of a head: zero where the command chooses no algorithm (R72). -/
def Head.algCode : Head → BitVec 4
  | .dinit a | .hkey a | .pbkdf2 a => a.code
  | .dupd | .dfin | .hupd | .hfin | .hreinit => 0

/-- The unit kind of a head: the `unit` column of R74. -/
def Head.unit : Head → UnitKind
  | .dinit _ | .dupd | .dfin => .digest
  | .hkey _ | .hupd | .hfin | .hreinit => .hmac
  | .pbkdf2 _ => .pbkdf2

/-- The command word of a head (R70). -/
def Head.word (h : Head) : BitVec 32 := commandWord h.op h.algCode

/-- What a command's word says of it. -/
def Instr.head : Instr → Head
  | .dinit a => .dinit a
  | .dupd _ => .dupd
  | .dfin => .dfin
  | .hkey a _ => .hkey a
  | .hupd _ => .hupd
  | .hfin _ => .hfin
  | .hreinit => .hreinit
  | .pbkdf2 a _ _ _ _ => .pbkdf2 a

/-- What follows a command's word in its frame (R76, R78). -/
def Instr.operands : Instr → Bytes
  | .dinit _ | .dfin | .hreinit => []
  | .dupd m | .hkey _ m | .hupd m => stringBytes m
  | .hfin n => beBytes 4 n.toNat
  | .pbkdf2 _ p s c dk => stringBytes p ++ (stringBytes s ++ (beBytes 4 c.toNat ++ beBytes 8 dk.toNat))

@[simp] theorem Instr.head_unit (i : Instr) : i.head.unit = i.unit := by cases i <;> rfl

theorem encode_eq (i : Instr) : encode i = wordBytes i.head.word ++ i.operands := by
  cases i <;> simp [encode, Head.word, Instr.head, Head.op, Head.algCode, Instr.operands]

/-! ## The word -/

theorem decodeWord_word (h : Head) : decodeWord h.word h.unit = .ok h := by
  obtain ⟨dupd, dfin, hupd, hfin, hreinit⟩ := decodeWord_commandWord_noAlg
  cases h with
  | dinit a => exact (decodeWord_commandWord_alg a).1
  | hkey a => exact (decodeWord_commandWord_alg a).2.1
  | pbkdf2 a => exact (decodeWord_commandWord_alg a).2.2
  | dupd => exact dupd
  | dfin => exact dfin
  | hupd => exact hupd
  | hfin => exact hfin
  | hreinit => exact hreinit

/-- A word whose fields are those of a command word is that word. -/
theorem eq_commandWord {w : BitVec 32} {op : Op} {alg : BitVec 4} (hrsv : rsvField w = 0) (halg : algField w = alg)
    (hopc : opcField w = op.opc) : w = commandWord op alg := by
  rw [word_eq_fields w, hrsv, halg, hopc]; rfl

theorem headWithAlg_ok {w : BitVec 32} {mk : Alg → Head} {h : Head} (hd : headWithAlg w mk = .ok h) :
    ∃ a, algField w = a.code ∧ h = mk a := by
  unfold headWithAlg at hd
  split at hd <;> cases hd
  exact ⟨_, ofCode?_eq_some.1 ‹_›, rfl⟩

theorem headWithoutAlg_ok {w : BitVec 32} {g h : Head} (hd : headWithoutAlg w g = .ok h) : algField w = 0 ∧ h = g := by
  unfold headWithoutAlg at hd
  split at hd <;> cases hd
  exact ⟨‹_›, rfl⟩

/-- The last test of R81 passes on the head of its mnemonic, with the head's `ALG`. -/
theorem readHead_ok {op : Op} {w : BitVec 32} {h : Head} (hd : op.readHead w = .ok h) : h.op = op ∧ algField w = h.algCode := by
  cases op
  case dinit | hkey | pbkdf2 =>
    obtain ⟨a, ha, rfl⟩ := headWithAlg_ok hd
    exact ⟨rfl, ha⟩
  all_goals
    obtain ⟨ha, rfl⟩ := headWithoutAlg_ok hd
    exact ⟨rfl, ha⟩

theorem kindField_word (h : Head) : kindField h.word = h.unit.code := by
  rw [kindField_eq_code, ← opcField_toNat, Head.word, opcField_commandWord]
  cases h <;> simp [Head.op, Head.unit, Op.opc, UnitKind.code]

theorem UnitKind.code_injective {k l : UnitKind} (h : k.code = l.code) : k = l := by
  revert h; cases k <;> cases l <;> decide

/-- The only word that is read as a head is the head's own, and only on the channel of its unit kind. -/
theorem decodeWord_ok {w : BitVec 32} {k : UnitKind} {h : Head} (hd : decodeWord w k = .ok h) : w = h.word ∧ k = h.unit := by
  cases hop : Op.ofOpc? (opcField w) with
  | none => rw [decodeWord, hop] at hd; cases hd
  | some op =>
    rw [decodeWord_of_ofOpc? hop] at hd
    split_ifs at hd with hkind hrsv
    obtain ⟨rfl, halg⟩ := readHead_ok hd
    have hw : w = h.word := eq_commandWord (not_not.1 hrsv) halg (ofOpc?_eq_some.1 hop)
    refine ⟨hw, UnitKind.code_injective ?_⟩
    rw [← not_not.1 hkind, hw, kindField_word]

/-! ## The operands -/

theorem readCommand_operands (i : Instr) (rest : Bytes) (hi : i.WellFormed) :
    readCommand i.head (i.operands ++ rest) = some (i, rest) := by
  cases i with
  | dinit | dfin | hreinit => rfl
  | dupd m | hkey a m | hupd m =>
    simp only [Instr.head, Instr.operands, readCommand, takeBytes_stringBytes m rest hi, Option.map_some]
  | hfin n =>
    have hn : n.toNat < 256 ^ 4 := pow_256_4 ▸ n.isLt
    simp [Instr.head, Instr.operands, readCommand, takeScalar_beBytes 4 _ rest hn]
  | pbkdf2 a p s c dk =>
    obtain ⟨hp, hs⟩ := (Bool.and_eq_true_iff).1 hi
    simp [Instr.head, Instr.operands, readCommand, List.append_assoc, takePbkdf2_operands p s rest c dk hp hs]

theorem beBytes_ofNat {n v : Nat} (hv : v < 2 ^ n) (k : Nat) : beBytes k (BitVec.ofNat n v).toNat = beBytes k v := by
  rw [BitVec.toNat_ofNat, Nat.mod_eq_of_lt hv]

/-- What the operands of a head are read from is the operands of the command, and the rest. -/
theorem readCommand_eq_some {h : Head} {bs rest : Bytes} {i : Instr} (hr : readCommand h bs = some (i, rest)) :
    i.head = h ∧ i.WellFormed ∧ bs = i.operands ++ rest := by
  cases h with
  | dinit | dfin | hreinit => cases hr; exact ⟨rfl, rfl, rfl⟩
  | dupd | hkey | hupd =>
    obtain ⟨⟨m, _⟩, hm, hx⟩ := Option.map_eq_some_iff.1 hr
    cases hx
    obtain ⟨hbs, hfits⟩ := takeBytes_eq_some hm
    exact ⟨rfl, hfits, hbs⟩
  | hfin =>
    obtain ⟨⟨v, _⟩, hv, hx⟩ := Option.map_eq_some_iff.1 hr
    cases hx
    obtain ⟨hbs, hlt⟩ := takeScalar_eq_some hv
    rw [pow_256_4] at hlt
    exact ⟨rfl, rfl, by rw [hbs, Instr.operands, beBytes_ofNat hlt]⟩
  | pbkdf2 a =>
    obtain ⟨⟨⟨p, s, c, dk⟩, _⟩, hv, hx⟩ := Option.map_eq_some_iff.1 hr
    cases hx
    obtain ⟨hbs, hp, hs, hc, hdk⟩ := takePbkdf2_eq_some hv
    refine ⟨rfl, (Bool.and_eq_true_iff).2 ⟨hp, hs⟩, ?_⟩
    simp only [hbs, Instr.operands, beBytes_ofNat hc, beBytes_ofNat hdk, List.append_assoc]

/-! ## The frame -/

theorem decodeFrame_word (h : Head) (bs : Bytes) {i : Instr} {rest : Bytes} (hr : readCommand h bs = some (i, rest)) :
    decodeFrame h.unit (wordBytes h.word ++ bs) = .command i rest := by
  simp only [decodeFrame_wordBytes, decodeAfterWord, decodeWord_word, hr]

/-- Where a command is decoded from: a word that is read as a head, and then its operands. -/
theorem decodeFrame_command {k : UnitKind} {bs rest : Bytes} {i : Instr} (hd : decodeFrame k bs = .command i rest) :
    ∃ w h bs', bs = wordBytes w ++ bs' ∧ decodeWord w k = .ok h ∧ readCommand h bs' = some (i, rest) := by
  unfold decodeFrame at hd
  cases hs : takeScalar 4 bs with
  | none => rw [hs] at hd; cases hd
  | some r =>
    obtain ⟨v, bs'⟩ := r
    obtain ⟨rfl, hlt⟩ := takeScalar_eq_some hs
    rw [pow_256_4] at hlt
    rw [hs] at hd
    refine ⟨BitVec.ofNat 32 v, ?_⟩
    simp only [decodeAfterWord] at hd
    cases hw : decodeWord (BitVec.ofNat 32 v) k with
    | error why =>
      simp only [hw] at hd
      split at hd
      · cases hd
      · split at hd <;> cases hd
    | ok h =>
      simp only [hw] at hd
      cases hr : readCommand h bs' with
      | none => rw [hr] at hd; cases hd
      | some x =>
        rw [hr] at hd; cases hd
        exact ⟨h, bs', by rw [wordBytes, beBytes_ofNat hlt], rfl, hr⟩

/-- Settles O3: the frame is the head's word and the operands, and each is read back. -/
theorem decodeEncodeRoundTrip : Obligations.DecodeEncodeRoundTrip := by
  intro i rest hi
  rw [encode_eq, List.append_assoc, ← i.head_unit]
  exact decodeFrame_word i.head _ (readCommand_operands i rest hi)

/-- Settles O4: the word read is the head's own (`decodeWord_ok`), the operands read are the command's (`readCommand_eq_some`). -/
theorem decodedFrameIsEncoded : Obligations.DecodedFrameIsEncoded := by
  intro k bs rest i hd
  obtain ⟨w, h, bs', rfl, hw, hr⟩ := decodeFrame_command hd
  obtain ⟨rfl, hi, rfl⟩ := readCommand_eq_some hr
  obtain ⟨rfl, rfl⟩ := decodeWord_ok hw
  exact ⟨hi, i.head_unit.symm, by rw [encode_eq, List.append_assoc]⟩

/-! ## The frame on another channel (R71) -/

theorem decodeWord_word_of_ne {h : Head} {k : UnitKind} (hk : h.unit ≠ k) : decodeWord h.word k = .error .opcode :=
  decodeWord_eq_opcode_iff.2 (.inr fun he => hk (UnitKind.code_injective (by rw [← he, kindField_word])))

/-- What a frame leaves in the stream is the same on every channel (R80). -/
theorem decodeFrame_encode_rest? (k : UnitKind) {i : Instr} (rest : Bytes) (hi : i.WellFormed) :
    (decodeFrame k (encode i ++ rest)).rest? = some rest := by
  have own : (decodeFrame i.unit (encode i ++ rest)).rest? = some rest := by rw [decodeEncodeRoundTrip i rest hi]; rfl
  rw [encode_eq, List.append_assoc, wordBytes, decodeFrame_rest?] at own ⊢
  exact own

theorem decodeFrame_encode_of_ne {i : Instr} {k : UnitKind} (rest : Bytes) (hi : i.WellFormed) (hk : i.unit ≠ k) :
    decodeFrame k (encode i ++ rest) = .illegal .opcode rest := by
  have hrest := decodeFrame_encode_rest? k rest hi
  rw [encode_eq, List.append_assoc] at hrest ⊢
  exact decodeFrame_illegal k _ _ rest _ (decodeWord_word_of_ne (by rwa [i.head_unit])) hrest

/-- Settles O1: each frame is decoded by evaluation. -/
theorem knownFramesDecode : Obligations.KnownFramesDecode := by
  unfold Obligations.KnownFramesDecode
  decide

end Sys2Proof

namespace Sys2Proof.Machine

theorem raises_of_wrongKind {i : Instr} {s : State} {u : HwUnit} (hu : s.unit? = some u) (hk : i.unit ≠ u.kind) :
    s.Raises i (.illegalCommand .opcode) := by
  by_cases hi : i.unit = .pbkdf2
  · cases i <;> cases hi
    exact raises_of_exec hu (exec_pbkdf2_wrong hu fun he => hk (by rw [HwUnit.kind, he]; rfl))
  · exact raises_of_body (by rw [State.engine?, hu]; rfl) hi (body_wrongKind hk)

/-- Settles O7: the word is illegal on the channel by its kind field, the command in the unit by `body_wrongKind`. -/
theorem wrongUnitKindIllegal : Obligations.WrongUnitKindIllegal :=
  ⟨fun _ _ rest hi hk => decodeFrame_encode_of_ne rest hi hk, fun _ _ _ hu hk => raises_of_wrongKind hu hk⟩

end Sys2Proof.Machine
end

section
/-! PROOFS. The statements about what every command may do (spec/60_exceptions.md section 2, spec/20_memory.md section 5): the
tables of parameters and statuses, the frame of a command, and the allocator's draw. -/

namespace Sys2Proof.Machine

/-- Settles O9: each row is a value of the parameters' definitions. -/
theorem parameterTable : Obligations.ParameterTable := ⟨rfl, rfl, rfl, rfl⟩

/-- Settles O10: the word of each status by evaluation, one for each cause. -/
theorem statusWords : Obligations.StatusWords := by
  refine ⟨rfl, rfl, rfl, rfl, rfl, rfl, rfl, rfl, rfl, rfl, rfl, rfl, rfl, fun st => ?_⟩
  cases st with
  | ok | allocFail => decide
  | illegalCommand why | misuse why | precondition why => cases why <;> decide

/-! ## The state a command answers from: the one before, or the one after a draw -/

/-- What a command answers on the context `e₀`: OK with what its body gives, or another status with `e₀` and no output (R243). -/
def BodyAnswers (i : Instr) (e₀ e : Engine) (r : Response) : Prop :=
  (r.status = .ok ∧ body i e₀ = .ok (e, r.output)) ∨ (r.status ≠ .ok ∧ r.output = none ∧ e = e₀)

section
variable {i : Instr} {s t : State} {u : HwUnit} {e₀ e : Engine} {r : Response}

/-- A PBKDF2 command moves nothing but the draw of its unit before it answers (R222). -/
theorem exec_answers_from (hu : s.unit? = some u) (h : exec i s = .next t) :
    ∃ s' e r, s'.Answers t e r ∧ (s' = s ∨ (s' = s.takeDraw ∧ i.unit = .pbkdf2 ∧ u.engine = .pbkdf2)) ∧
      BodyAnswers i u.engine e r := by
  obtain ⟨v, s', e, r, hv, hx⟩ := exec_next h
  rw [hu] at hv; cases hv
  exact ⟨s', e, r, hx⟩

theorem bodyAnswers_kind (h : BodyAnswers i e₀ e r) : e.kind = e₀.kind := by
  rcases h with ⟨-, hb⟩ | ⟨-, -, rfl⟩
  · exact body_kind hb
  · rfl

theorem bodyAnswers_of_pbkdf2 (hi : i.unit = .pbkdf2) (h : BodyAnswers i e₀ e r) : e = e₀ := by
  rcases h with ⟨-, hb⟩ | ⟨-, -, rfl⟩
  · exact body_pbkdf2_engine hi hb
  · rfl

end

/-- An answer changes the list of units and nothing else of the state. -/
theorem answers_frame {s t : State} {e : Engine} {r : Response} (h : s.Answers t e r) :
    t.cur = s.cur ∧ t.turns = s.turns ∧ t.resetLine = s.resetLine ∧ t.scratchFromAllocator = s.scratchFromAllocator := by
  obtain ⟨u, -, rfl⟩ := h
  exact ⟨rfl, rfl, rfl, rfl⟩

theorem takeDraw_eq_self {s : State} (h : s.scratchFromAllocator = false) : s.takeDraw = s := by
  rw [State.takeDraw, h]; rfl

/-- Settles O12: an answer other than OK has the old context and no output (`exec_next`), from a state that differs by a draw at
most; an illegal word by `step_illegal`. -/
theorem raisedStatusHasNoSideEffects : Obligations.RaisedStatusHasNoSideEffects := by
  refine ⟨fun i s t u hu h => ?_, fun s u why rest hr hu hd => ⟨_, step_illegal hr hu hd, passTurn_units _⟩⟩
  obtain ⟨s', e, r, ha, hs, hres⟩ := exec_answers_from hu h
  refine ⟨s', e, r, ha, hs.imp_right ?_, fun hst => ?_⟩
  · rintro ⟨rfl, hi, he⟩
    exact ⟨hi, by rw [HwUnit.kind, he]; rfl, takeDraw_drawn hu⟩
  · rcases hres with ⟨hok, -⟩ | ⟨-, hout, he⟩
    · exact absurd hok hst
    · exact ⟨he, hout⟩

/-! ## The frame of a command -/

/-- The unit served, after an answer from `s'`: the unit of `s'` with the new context and one more response. -/
theorem answers_served {s' t : State} {e : Engine} {r : Response} (h : s'.Answers t e r) {v : HwUnit} (hv : s'.unit? = some v) :
    t.units[s'.cur]? = some { v with engine := e, rsp := v.rsp ++ [r] } := by
  obtain ⟨w, hw, ht⟩ := answers_unit? h
  rw [hv] at hw; cases hw
  rwa [State.unit?, answers_cur h] at ht

/-- Settles O13: a command is one answer on the unit served, from the state before or from the one after that unit's draw. -/
theorem commandFrame : Obligations.CommandFrame := by
  intro i s t h
  obtain ⟨u, s', e, r, hu, ha, hs, hres⟩ := exec_next h
  obtain ⟨hcur, hturns, hreset, hscratch⟩ := answers_frame ha
  have hlen := answers_length ha
  have hother := answers_other ha
  rcases hs with rfl | ⟨rfl, hi, he⟩
  · exact ⟨hcur, hturns, hreset, hscratch, hlen, hother, u, _, r, hu, answers_served ha hu, bodyAnswers_kind hres, rfl, rfl,
      fun hi => bodyAnswers_of_pbkdf2 hi hres, fun _ => ⟨rfl, rfl⟩⟩
  · rw [takeDraw_cur] at hcur hother
    refine ⟨hcur, hturns.trans (takeDraw_turns s), hreset.trans (takeDraw_resetLine s), hscratch.trans (takeDraw_scratch s),
      hlen.trans (takeDraw_length s), fun k hk => (hother k hk).trans (takeDraw_other s k hk), ?_⟩
    obtain ⟨v, hv, hve, hvk, hvc, hvr⟩ := takeDraw_served hu
    have hserved := answers_served ha hv
    rw [takeDraw_cur] at hserved
    refine ⟨u, _, r, hu, hserved, bodyAnswers_kind hres, hvc, by rw [hvr], fun _ => bodyAnswers_of_pbkdf2 hi hres, ?_⟩
    rintro (hi' | hk | hf)
    · exact absurd hi hi'
    · exact absurd (by rw [HwUnit.kind, he]; rfl) hk
    · rw [takeDraw_eq_self hf, hu] at hv; cases hv
      exact ⟨rfl, rfl⟩

/-! ## The draw of PBKDF2 (R222, R245) -/

theorem drawFails_eq_true {s : State} : s.drawFails = true ↔ s.scratchFromAllocator = true ∧ s.allocNext? = some .fail := by
  simp [State.drawFails]

theorem drawFails_eq_false {s : State} (h : s.scratchFromAllocator = true → s.allocNext? = some .ok) : s.drawFails = false := by
  rw [← Bool.not_eq_true, drawFails_eq_true]
  rintro ⟨hf, hfail⟩
  rw [h hf] at hfail; cases hfail

/-- The checks of PBKDF2, as the bounds its statements name (R221, R256). -/
theorem checks_ok_of_bounds {a : Alg} {p salt : Bytes} {c : BitVec 32} {dk : BitVec 64} (hc : c ≠ 0) (hdk : dk ≠ 0)
    (hmax : dk.toNat ≤ (2 ^ 32 - 1) * a.digestBytes) (hp : p.length ≤ a.blockBytes ∨ 8 * p.length < 2 ^ 64)
    (hsalt : 8 * (a.blockBytes + salt.length + 4) < 2 ^ 64) : pbkdf2Checks a p salt c.toNat dk.toNat = .ok () :=
  (checks_ok_iff ..).2 ⟨BitVec.toNat_ne.1 hc, BitVec.toNat_ne.1 hdk, hmax, keyTooLong_eq_false.2 hp, hsalt⟩

/-- Settles O16: past its checks PBKDF2 answers by its draw (`exec_pbkdf2_of_ok`); no body raises ALLOC_FAIL (`body_error`). -/
theorem allocFailOnFailedDraw : Obligations.AllocFailOnFailedDraw := by
  refine ⟨rfl, fun s a p salt c dk he hc hdk hmax hp hsalt => ?_, fun i s t r h hr hst => ?_⟩
  · obtain ⟨u, hu, -⟩ := unit_of_engine? he
    obtain ⟨t, ht, ⟨hf, ha⟩ | ⟨hf, out, -, ha⟩⟩ := exec_pbkdf2_of_ok he (checks_ok_of_bounds hc hdk hmax hp hsalt)
    · obtain ⟨hscratch, hfail⟩ := drawFails_eq_true.1 hf
      refine ⟨s.takeDraw, t, _, takeDraw_drawn hu, ht, ha, fun _ => rfl, ?_⟩
      rintro (h | h)
      · rw [hscratch] at h; cases h
      · rw [hfail] at h; cases h
    · refine ⟨s.takeDraw, t, _, takeDraw_drawn hu, ht, ha, fun h => ?_, fun _ => rfl⟩
      rw [drawFails_eq_true.2 h] at hf; cases hf
  · obtain ⟨u, -, ⟨hok, -⟩ | ⟨st, rfl, hb⟩ | ⟨-, hi, -, hf⟩⟩ := exec_lastResponse h hr
    · rw [hst] at hok; cases hok
    · rcases body_error hb with ⟨hx, -⟩ | ⟨_, hx, -⟩ | ⟨_, hx, -⟩ | ⟨hx, -⟩ <;> cases hx <;> cases hst
    · refine ⟨?_, drawFails_eq_true.1 hf⟩
      cases i <;> cases hi
      exact ⟨_, _, _, _, _, rfl⟩

end Sys2Proof.Machine
end

section
/-! PROOFS. The statements about the state after reset and the invariant of the contexts (spec/10_state.md sections 2, 3 and 6), what
a step answers, and the host's duties (spec/70_reset_and_hazards.md section 3). -/

namespace Sys2Proof.Machine

/-! ## The state after reset (R40, R9) -/

theorem reset_units_kinds : State.reset.units.map (·.kind) = unitKinds := initialUnits_kinds 0 unitKinds

theorem reset_unit {u : HwUnit} (hu : u ∈ State.reset.units) : ∃ n k, u = HwUnit.initial n k := initialUnits_mem 0 hu

/-- The units of a kind, counted in the list of the kinds. -/
theorem length_filter_kind (us : List HwUnit) (k : UnitKind) :
    (us.filter fun u => u.kind = k).length = (us.map (·.kind)).count k := by
  rw [← List.countP_eq_length_filter, List.count, List.countP_map]
  exact List.countP_congr fun u _ => by simp

/-- Settles O23: a unit of the state is `HwUnit.initial` of its kind, and the kinds are `unitKinds`. -/
theorem resetState : Obligations.ResetState := by
  refine ⟨fun u hu => ?_, ?_, ?_, ?_⟩
  · obtain ⟨n, k, rfl⟩ := reset_unit hu
    exact ⟨fun _ h => phase_of_initial_eq_digest h, fun _ h => phase_of_initial_eq_hmac h, rfl⟩
  all_goals
    rw [length_filter_kind, reset_units_kinds]
    simp [unitKinds, List.count_replicate, Config.nDigest, Config.nHmac, Config.nPbkdf2]

theorem mem_unitKinds (k : UnitKind) : k ∈ unitKinds := by
  have first : k ∈ [UnitKind.digest, .hmac, .pbkdf2] := by cases k <;> decide
  simp only [unitKinds, List.mem_append, first, true_or]

/-- Settles O24: every context is initial (`initial_inv`), and every kind is among `unitKinds`. -/
theorem invAtReset : Obligations.InvAtReset where
  cur_lt := by
    have hlen : State.reset.units.length = unitKinds.length := by rw [← reset_units_kinds, List.length_map]
    rw [hlen]
    exact List.length_pos_of_mem (mem_unitKinds .digest)
  all_kinds := fun k => by
    have hk : k ∈ State.reset.units.map (·.kind) := reset_units_kinds ▸ mem_unitKinds k
    simpa using hk
  engines := fun u hu => by
    obtain ⟨n, k, rfl⟩ := reset_unit hu
    exact initial_inv k

/-! ## The invariant along a step (R24 to R34) -/

theorem respond_inv {s : State} (h : s.Inv) (r : Response) : (s.respond r).Inv := by
  obtain ⟨u, hu, hmem⟩ := unit?_of_inv h
  exact answers_inv h (respond_answers s r u hu) (h.engines u hmem) fun v hv => by rw [hu] at hv; cases hv; rfl

/-- Settles O25: each of the step's cases is made of operations that keep the invariant. -/
theorem stepKeepsInv : Obligations.StepKeepsInv := by
  intro s t h hst
  rcases step_cases s with ⟨-, hx⟩ | ⟨-, -, hx⟩ | ⟨u, -, -, -, hx⟩ | ⟨u, i, rest, -, -, -, -, hx⟩ |
    ⟨u, why, rest, -, -, -, -, hx⟩ | ⟨u, -, -, -, -, hx⟩ <;> rw [hx] at hst
  · cases hst; exact platformReset_inv h
  · cases hst
  · cases hst; exact passTurn_inv h
  · obtain ⟨m, hm, rfl⟩ := afterTurn_next_iff.1 hst
    exact passTurn_inv (exec_inv (consume_inv h rest) hm)
  · cases hst; exact passTurn_inv (respond_inv (consume_inv h rest) _)
  · cases hst

/-! ## A step that serves a command, and a step that serves an idle unit -/

section
variable {s t : State} {u : HwUnit}

/-- An empty stream holds no frame. -/
theorem decodeFrame_nil (k : UnitKind) : decodeFrame k [] = .truncated := rfl

theorem step_command {i : Instr} {rest : Bytes} (hr : s.resetLine = false) (hu : s.unit? = some u)
    (hd : decodeFrame u.kind u.cmd = .command i rest) : step s = afterTurn (exec i (s.consume rest)) := by
  have hidle : ¬ u.idle = true := by
    rw [unit_idle]
    intro h
    rw [h, decodeFrame_nil] at hd; cases hd
  rw [step_eq_serve hr hu, if_neg hidle, hd]; rfl

theorem step_idle (hr : s.resetLine = false) (hu : s.unit? = some u) (hc : u.cmd = []) : step s = .next s.passTurn := by
  rw [step_eq_serve hr hu, if_pos ((unit_idle u).2 hc)]

/-- Settles O20: `step_command`, with the state whose stream is the rest. -/
theorem stepRunsDecodedCommand : Obligations.StepRunsDecodedCommand := by
  rintro s u i rest hr hu hd _ rfl
  rw [step_command hr hu hd, consume_eq_set hu]
  exact ⟨fun t ht => afterTurn_next_iff.2 ⟨t, ht, rfl⟩, fun r => afterTurn_refused_iff.2, fun f => afterTurn_fault_iff.2⟩

/-- A step without a reset writes the unit served and passes the turn. -/
theorem step_eq_set (hr : s.resetLine = false) (h : step s = .next t) :
    ∃ v, t = State.passTurn { s with units := s.units.set s.cur v } := by
  obtain ⟨v, ht, -⟩ := step_local hr hr rfl rfl rfl h
  exact ⟨v, ht⟩

/-- A step without a reset leaves every unit but the one served. -/
theorem step_other (hr : s.resetLine = false) (h : step s = .next t) {k : Nat} (hk : k ≠ s.cur) : t.units[k]? = s.units[k]? := by
  obtain ⟨v, rfl⟩ := step_eq_set hr h
  rw [passTurn_units, List.getElem?_set_ne (Ne.symm hk)]

end

/-- Settles O21: where the unit is served its turn only passes (`step_idle`), where another is served it is untouched. -/
theorem idleUnitUnchanged : Obligations.IdleUnitUnchanged := by
  intro s k u hr hu hc
  by_cases hk : k = s.cur
  · subst hk
    have hst : step s = .next s.passTurn := step_idle hr hu hc
    refine ⟨fun _ => ⟨_, hst⟩, fun t ht => ?_⟩
    rw [hst] at ht; cases ht
    rw [passTurn_units, hu]
  · exact ⟨fun h => absurd h hk, fun t ht => (step_other hr ht hk).trans hu⟩

/-! ## The host's duties (R273) -/

theorem serial_of_units_eq {s t : State} (h : s.Serial) (he : t.units = s.units) : t.Serial := fun u hu => h u (he ▸ hu)

/-- The duties hold where every stream is empty. -/
theorem serial_of_empty {s : State} (h : ∀ u ∈ s.units, u.cmd = []) : s.Serial := fun u hu => .inl (h u hu)

/-- Part of a frame is on no stream of a host that keeps its duties. -/
theorem not_serial_of_truncated {s : State} {u : HwUnit} (hu : s.unit? = some u) (hc : u.cmd ≠ [])
    (hd : decodeFrame u.kind u.cmd = .truncated) : ¬ s.Serial := fun h => by
  rcases h u (unit?_mem hu) with he | hw
  · exact hc he
  · rw [wholeFrame, hd] at hw; cases hw

/-- Taking the one frame of a stream leaves an empty one. -/
theorem consume_serial {s : State} {u : HwUnit} {rest : Bytes} (h : s.Serial) (hu : s.unit? = some u) (hc : u.cmd ≠ [])
    (hd : (decodeFrame u.kind u.cmd).rest? = some rest) : (s.consume rest).Serial := by
  rw [consume_eq_set hu]
  exact serial_set h (.inl (rest_of_wholeFrame ((h u (unit?_mem hu)).resolve_left hc) hd))

theorem respond_serial {s : State} {u : HwUnit} (h : s.Serial) (hu : s.unit? = some u) (r : Response) : (s.respond r).Serial := by
  rw [respond_eq_set hu]
  exact serial_set h (h u (unit?_mem hu))

/-- A command writes no stream (`commandFrame`). -/
theorem exec_serial {i : Instr} {s t : State} (h : s.Serial) (hx : exec i s = .next t) : t.Serial := by
  obtain ⟨-, -, -, -, -, hother, u, v, r, hu, hv, hkind, hcmd, -⟩ := commandFrame i s t hx
  intro w hw
  obtain ⟨k, hk⟩ := List.mem_iff_getElem?.1 hw
  by_cases hkc : k = s.cur
  · rw [hkc, hv] at hk; cases hk
    rw [hkind, hcmd]
    exact h u (List.mem_of_getElem? hu)
  · rw [hother k hkc] at hk
    exact h w (List.mem_of_getElem? hk)

theorem step_serial {s t : State} (h : s.Serial) (hst : step s = .next t) : t.Serial := by
  rcases step_cases s with ⟨-, hx⟩ | ⟨-, -, hx⟩ | ⟨u, -, -, -, hx⟩ | ⟨u, i, rest, -, hu, hc, hd, hx⟩ |
    ⟨u, why, rest, -, hu, hc, hd, hx⟩ | ⟨u, -, -, -, -, hx⟩ <;> rw [hx] at hst
  · cases hst
    refine serial_of_empty fun u hu => ?_
    obtain ⟨v, -, rfl⟩ := List.mem_map.1 hu
    rfl
  · cases hst
  · cases hst; exact serial_of_units_eq h (passTurn_units s)
  · obtain ⟨m, hm, rfl⟩ := afterTurn_next_iff.1 hst
    exact serial_of_units_eq (exec_serial (consume_serial h hu hc (by rw [hd]; rfl)) hm) (passTurn_units m)
  · cases hst
    have hs : (s.consume rest).Serial := consume_serial h hu hc (by rw [hd]; rfl)
    exact serial_of_units_eq (respond_serial hs (consume_unit? hu rest) _) (passTurn_units _)
  · cases hst

theorem collect_serial {s : State} (h : s.Serial) (k : Nat) : (s.collect k).Serial := by
  cases hu : s.units[k]? with
  | none =>
    refine serial_of_units_eq h ?_
    rw [collect_units, List.modify_eq_self (List.getElem?_eq_none_iff.1 hu)]
  | some u =>
    refine serial_of_units_eq (serial_set (k := k) (v := { u with rsp := [] }) h (h u (List.mem_of_getElem? hu))) ?_
    rw [collect_units, modify_eq_set _ _ _ _ hu]

theorem wholeFrame_iff {k : UnitKind} {frame : Bytes} : wholeFrame k frame = true ↔ (decodeFrame k frame).rest? = some [] :=
  beq_iff_eq

/-- Settles O26: the refusals by the cases of a step and of a command, the duties by the operations that keep them, the host's move
by `submit_eq_some`. -/
theorem stepAnswersOrRefuses : Obligations.StepAnswersOrRefuses := by
  refine ⟨fun s h => ?_, serial_of_empty fun u hu => ?_, fun s t => step_serial, fun s t k frame h hsub => ?_,
    fun s k h => ⟨collect_serial h k, h⟩, fun s k frame => ⟨⟨fun ⟨t, hsub⟩ => ?_, fun ⟨u, hu, hc, hw⟩ => ?_⟩, fun t hsub => ?_⟩⟩
  · obtain ⟨w, hw, -⟩ := unit?_of_inv h
    rcases step_cases s with ⟨-, hx⟩ | ⟨-, hn, hx⟩ | ⟨u, -, -, -, hx⟩ | ⟨u, i, rest, -, hu, -, -, hx⟩ |
      ⟨u, why, rest, -, -, -, -, hx⟩ | ⟨u, -, hu, hc, hd, hx⟩
    · exact .inl ⟨_, hx⟩
    · rw [hw] at hn; cases hn
    · exact .inl ⟨_, hx⟩
    · rw [hx]
      rcases exec_cases i (consume_unit? hu rest) with ⟨_, _, _, t, -, h, -⟩ | ⟨_, t, -, h, -⟩ | ⟨t, -, -, -, h, -⟩ | ⟨-, h⟩
      · exact .inl ⟨_, afterTurn_next_iff.2 ⟨t, h, rfl⟩⟩
      · exact .inl ⟨_, afterTurn_next_iff.2 ⟨t, h, rfl⟩⟩
      · exact .inl ⟨_, afterTurn_next_iff.2 ⟨t, h, rfl⟩⟩
      · exact .inr (.inl (afterTurn_refused_iff.2 h))
    · exact .inl ⟨_, hx⟩
    · exact .inr (.inr ⟨hx, not_serial_of_truncated hu hc hd⟩)
  · obtain ⟨n, k, rfl⟩ := reset_unit hu
    rfl
  · obtain ⟨u, -, -, hw, rfl⟩ := submit_eq_some.1 hsub
    exact serial_set h (.inr hw)
  · obtain ⟨u, hu, hc, hw, -⟩ := submit_eq_some.1 hsub
    exact ⟨u, hu, hc, wholeFrame_iff.1 hw⟩
  · exact ⟨_, submit_eq_some.2 ⟨u, hu, hc, wholeFrame_iff.2 hw, rfl⟩⟩
  · obtain ⟨u, hu, -, -, ht⟩ := submit_eq_some.1 hsub
    exact ⟨u, hu, ht⟩

end Sys2Proof.Machine
end

section
/-! PROOFS. The statements about several units (spec/20_memory.md section 5, spec/70_reset_and_hazards.md sections 3 and 4): a step
depends on the unit served alone, the turns of units commute, and the order of service serves every unit. -/

namespace Sys2Proof.Machine

/-- Settles O56: both steps are the same write of the unit served (`step_local`). -/
theorem unitIsolation : Obligations.UnitIsolation := by
  intro s s' t hr hr' hc hu hf h
  obtain ⟨u, hs⟩ := step_served hr h
  have hs' : s'.units[s.cur]? = some u := hu ▸ hs
  obtain ⟨v, rfl, hx⟩ := step_local hr hr' (hc ▸ hu) hc hf h
  have hlt : s.cur < s.units.length := (List.getElem?_eq_some_iff.1 hs).1
  have hlt' : s.cur < s'.units.length := (List.getElem?_eq_some_iff.1 hs').1
  refine ⟨_, hx, ?_, fun k hk => ⟨?_, ?_⟩⟩
  · rw [passTurn_units, passTurn_units, ← hc, List.getElem?_set_self hlt, List.getElem?_set_self hlt']
  · rw [passTurn_units, List.getElem?_set_ne (Ne.symm hk)]
  · rw [passTurn_units, ← hc, List.getElem?_set_ne (Ne.symm hk)]

/-! ## Turns of units, up to the order of service (R60) -/

/-- Two states that differ in the order of service only. -/
structure State.SameUnits (s t : State) : Prop where
  units : s.units = t.units
  resetLine : s.resetLine = t.resetLine
  scratch : s.scratchFromAllocator = t.scratchFromAllocator

/-- The state in which unit `k` is `v`. -/
def State.setUnit (s : State) (k : Nat) (v : HwUnit) : State := { s with units := s.units.set k v }

section
variable {s t s' : State} {j k : Nat} {v w : HwUnit}

theorem State.SameUnits.refl (s : State) : s.SameUnits s := ⟨rfl, rfl, rfl⟩

theorem State.SameUnits.symm (h : s.SameUnits t) : t.SameUnits s := ⟨h.units.symm, h.resetLine.symm, h.scratch.symm⟩

theorem State.SameUnits.trans (h : s.SameUnits t) (h' : t.SameUnits s') : s.SameUnits s' :=
  ⟨h.units.trans h'.units, h.resetLine.trans h'.resetLine, h.scratch.trans h'.scratch⟩

theorem State.SameUnits.setUnit (h : s.SameUnits t) (k : Nat) (v : HwUnit) : (s.setUnit k v).SameUnits (t.setUnit k v) :=
  ⟨congrArg (·.set k v) h.units, h.resetLine, h.scratch⟩

theorem setUnit_comm (h : j ≠ k) (s : State) : (s.setUnit j v).setUnit k w = (s.setUnit k w).setUnit j v := by
  simp only [State.setUnit, List.set_comm v w h]

theorem setUnit_getElem?_of_ne (h : j ≠ k) : (s.setUnit j v).units[k]? = s.units[k]? := List.getElem?_set_ne h

/-- The turn of unit `k` writes that unit, and every other state with the same unit `k` writes it alike (`step_local`). -/
theorem stepUnit_local (hr : s.resetLine = false) (h : stepUnit k s = .next t) :
    ∃ v, t.SameUnits (s.setUnit k v) ∧ ∀ s' : State, s'.resetLine = false → s.units[k]? = s'.units[k]? →
      s.scratchFromAllocator = s'.scratchFromAllocator → ∃ t', stepUnit k s' = .next t' ∧ t'.SameUnits (s'.setUnit k v) := by
  have served : ∀ (x : State) (v : HwUnit),
      (State.passTurn { x with units := x.units.set k v, cur := k }).SameUnits (x.setUnit k v) := fun x v =>
    ⟨passTurn_units _, passTurn_resetLine _, passTurn_scratch _⟩
  obtain ⟨u, hu⟩ : ∃ u, s.units[k]? = some u := step_served (s := { s with cur := k }) hr h
  have hlt : k < s.units.length := (List.getElem?_eq_some_iff.1 hu).1
  obtain ⟨v, ht⟩ := step_eq_set (s := { s with cur := k }) hr h
  refine ⟨v, ht ▸ served s v, fun s' hr' hu' hf => ?_⟩
  obtain ⟨v', ht', hx⟩ := step_local (s := { s with cur := k }) (s' := { s' with cur := k }) hr hr' hu' rfl hf h
  have hset : s.units.set k v = s.units.set k v' := by
    simpa only [passTurn_units] using congrArg State.units (ht.symm.trans ht')
  obtain rfl : v = v' := by simpa [hlt] using congrArg (·[k]?) hset
  exact ⟨_, hx, served s' v⟩

theorem stepUnit_resetLine (hr : s.resetLine = false) (h : stepUnit k s = .next t) : t.resetLine = false := by
  obtain ⟨v, ht, -⟩ := stepUnit_local hr h
  exact ht.resetLine.trans hr

/-- A turn does not depend on the order of service. -/
theorem stepUnit_congr (hs : s.SameUnits s') (hr : s.resetLine = false) (h : stepUnit k s = .next t) :
    ∃ t', stepUnit k s' = .next t' ∧ t.SameUnits t' := by
  obtain ⟨v, ht, hlocal⟩ := stepUnit_local hr h
  obtain ⟨t', hx, ht'⟩ := hlocal s' (hs.resetLine ▸ hr) (by rw [hs.units]) hs.scratch
  exact ⟨t', hx, ht.trans ((hs.setUnit k v).trans ht'.symm)⟩

/-- The turns of two units, where both can be taken at first: in either order they write the same two units. -/
theorem stepUnit_comm {a b : State} (hjk : j ≠ k) (hr : s.resetLine = false) (ha : stepUnit j s = .next a)
    (hb : stepUnit k s = .next b) : ∃ x y, stepUnit k a = .next x ∧ stepUnit j b = .next y ∧ x.SameUnits y := by
  obtain ⟨v, hav, localj⟩ := stepUnit_local hr ha
  obtain ⟨w, hbw, localk⟩ := stepUnit_local hr hb
  obtain ⟨x, hx, hxw⟩ := localk a (hav.resetLine.trans hr) (by rw [hav.units, setUnit_getElem?_of_ne hjk]) hav.scratch.symm
  obtain ⟨y, hy, hyv⟩ := localj b (hbw.resetLine.trans hr) (by rw [hbw.units, setUnit_getElem?_of_ne hjk.symm]) hbw.scratch.symm
  have hxs : x.SameUnits ((s.setUnit j v).setUnit k w) := hxw.trans (hav.setUnit k w)
  have hys : y.SameUnits ((s.setUnit k w).setUnit j v) := hyv.trans (hbw.setUnit j v)
  rw [← setUnit_comm hjk] at hys
  exact ⟨x, y, hx, hy, hxs.trans hys.symm⟩

/-- A turn that can be taken after another unit's can be taken before it. -/
theorem stepUnit_of_after {a x : State} (hjk : j ≠ k) (hr : s.resetLine = false) (ha : stepUnit j s = .next a)
    (hx : stepUnit k a = .next x) : ∃ b, stepUnit k s = .next b := by
  obtain ⟨v, hav, -⟩ := stepUnit_local hr ha
  obtain ⟨w, -, localk⟩ := stepUnit_local (hav.resetLine.trans hr) hx
  obtain ⟨b, hb, -⟩ := localk s hr (by rw [hav.units, setUnit_getElem?_of_ne hjk]) hav.scratch
  exact ⟨b, hb⟩

end

theorem runTurns_cons_iff {s a : State} {k : Nat} {ks : List Nat} :
    runTurns (k :: ks) s = .next a ↔ ∃ t, stepUnit k s = .next t ∧ runTurns ks t = .next a := by
  rw [runTurns]
  cases stepUnit k s <;> simp

theorem runTurns_congr {s s' a : State} {ks : List Nat} (hs : s.SameUnits s') (hr : s.resetLine = false)
    (h : runTurns ks s = .next a) : ∃ b, runTurns ks s' = .next b ∧ a.SameUnits b := by
  induction ks generalizing s s' with
  | nil => cases h; exact ⟨s', rfl, hs⟩
  | cons k ks ih =>
    obtain ⟨t, ht, hrun⟩ := runTurns_cons_iff.1 h
    obtain ⟨t', ht', htt⟩ := stepUnit_congr hs hr ht
    obtain ⟨b, hb, hab⟩ := ih htt (stepUnit_resetLine hr ht) hrun
    exact ⟨b, runTurns_cons_iff.2 ⟨t', ht', hb⟩, hab⟩

/-- Every rearrangement of a list of turns leads to the same units. -/
theorem runTurns_perm {ks ks' : List Nat} (hp : ks.Perm ks') {s a : State} (hr : s.resetLine = false)
    (h : runTurns ks s = .next a) : ∃ b, runTurns ks' s = .next b ∧ a.SameUnits b := by
  induction hp generalizing s a with
  | nil => exact ⟨a, h, .refl a⟩
  | cons k _ ih =>
    obtain ⟨t, ht, hrun⟩ := runTurns_cons_iff.1 h
    obtain ⟨b, hb, hab⟩ := ih (stepUnit_resetLine hr ht) hrun
    exact ⟨b, runTurns_cons_iff.2 ⟨t, ht, hb⟩, hab⟩
  | swap k j l =>
    by_cases hjk : j = k
    · subst hjk; exact ⟨a, h, .refl a⟩
    · obtain ⟨t, ht, hrest⟩ := runTurns_cons_iff.1 h
      obtain ⟨x, hx, hrun⟩ := runTurns_cons_iff.1 hrest
      obtain ⟨u, hu⟩ := stepUnit_of_after hjk hr ht hx
      obtain ⟨x', y, hx', hy, hxy⟩ := stepUnit_comm hjk hr ht hu
      obtain rfl : x = x' := by rw [hx] at hx'; cases hx'; rfl
      obtain ⟨b, hb, hab⟩ := runTurns_congr hxy (stepUnit_resetLine (stepUnit_resetLine hr ht) hx) hrun
      exact ⟨b, runTurns_cons_iff.2 ⟨u, hu, runTurns_cons_iff.2 ⟨y, hy, hb⟩⟩, hab⟩
  | trans _ _ ih₁ ih₂ =>
    obtain ⟨b, hb, hab⟩ := ih₁ hr h
    obtain ⟨c, hc, hbc⟩ := ih₂ hr hb
    exact ⟨c, hc, hab.trans hbc⟩

/-- Settles O57: two turns by `stepUnit_comm`, a list of them by induction on the rearrangement. -/
theorem turnsCommute : Obligations.TurnsCommute := by
  refine ⟨fun s a b j k hjk hr ha hb => ?_, fun s a ks ks' hr hp h => ?_⟩
  · obtain ⟨x, y, hx, hy, hxy⟩ := stepUnit_comm hjk hr ha hb
    exact ⟨x, y, hx, hy, hxy.units⟩
  · obtain ⟨b, hb, hab⟩ := runTurns_perm hp hr h
    exact ⟨b, hb, hab.units.symm⟩

/-! ## The order of service (R277; log 3) -/

section
variable {s : State}

/-- Whom the turn passes to depends on the list and the number of units alone. -/
theorem passTurn_congr {t : State} (hc : s.cur = t.cur) (ht : s.turns = t.turns) (hl : s.units.length = t.units.length) :
    s.passTurn.cur = t.passTurn.cur ∧ s.passTurn.turns = t.passTurn.turns := by
  unfold State.passTurn
  rw [← ht, ← hl, ← hc]
  split <;> exact ⟨rfl, rfl⟩

theorem passTurn_of_nil (h : s.turns = []) : s.passTurn = { s with cur := (s.cur + 1) % s.units.length } := by
  rw [State.passTurn, h]

theorem passTurn_of_cons {k : Nat} {ks : List Nat} (h : s.turns = k :: ks) :
    s.passTurn = { s with cur := k % s.units.length, turns := ks } := by
  rw [State.passTurn, h]

/-- Round robin: `n` turns later the unit served is `n` further on. -/
theorem iterate_passTurn_of_nil (h : s.turns = []) (hc : s.cur < s.units.length) (n : Nat) :
    (State.passTurn^[n] s).cur = (s.cur + n) % s.units.length := by
  induction n generalizing s with
  | zero => exact (Nat.mod_eq_of_lt hc).symm
  | succ n ih =>
    have hlt : (s.cur + 1) % s.units.length < s.units.length := Nat.mod_lt _ (Nat.zero_lt_of_lt hc)
    rw [Function.iterate_succ_apply, passTurn_of_nil h, ih (s := { s with cur := (s.cur + 1) % s.units.length }) h hlt]
    exact (Nat.mod_add_mod ..).trans (by rw [Nat.add_right_comm, Nat.add_assoc])

/-- Within one round every unit is served. -/
theorem exists_iterate_passTurn_of_nil (h : s.turns = []) (hc : s.cur < s.units.length) {k : Nat} (hk : k < s.units.length) :
    ∃ n ≤ s.units.length, (State.passTurn^[n] s).cur = k := by
  by_cases hle : s.cur ≤ k
  · refine ⟨k - s.cur, by omega, ?_⟩
    rw [iterate_passTurn_of_nil h hc, Nat.add_sub_cancel' hle, Nat.mod_eq_of_lt hk]
  · refine ⟨k + s.units.length - s.cur, by omega, ?_⟩
    rw [iterate_passTurn_of_nil h hc, Nat.add_sub_cancel' (by omega), Nat.add_mod_right, Nat.mod_eq_of_lt hk]

/-- Once the list is used up, within one round more. -/
theorem exists_iterate_passTurn (hc : s.cur < s.units.length) {k : Nat} (hk : k < s.units.length) :
    ∃ n ≤ s.turns.length + s.units.length, (State.passTurn^[n] s).cur = k := by
  generalize hl : s.turns = l
  induction l generalizing s with
  | nil =>
    obtain ⟨n, hn, he⟩ := exists_iterate_passTurn_of_nil hl hc hk
    exact ⟨n, by simpa using hn, he⟩
  | cons j l ih =>
    have hpass := passTurn_of_cons hl
    obtain ⟨n, hn, he⟩ := ih (s := s.passTurn) (passTurn_cur_lt s (Nat.zero_lt_of_lt hc)) (by rwa [passTurn_units])
      (by rw [hpass])
    rw [passTurn_units] at hn
    exact ⟨n + 1, by rw [List.length_cons]; omega, by rwa [Function.iterate_succ_apply]⟩

end

/-- Settles O60: a step is a write of the unit served and one `passTurn`; the list of turns shortens, then the round is made. -/
theorem everyUnitIsServed : Obligations.EveryUnitIsServed := by
  refine ⟨fun s t hr h => ?_, fun s k hc hk => exists_iterate_passTurn hc hk⟩
  obtain ⟨v, rfl⟩ := step_eq_set hr h
  have hlen : (s.units.set s.cur v).length = s.units.length := List.length_set
  obtain ⟨hcur, hturns⟩ := passTurn_congr (s := { s with units := s.units.set s.cur v }) (t := s) rfl rfl hlen
  exact ⟨hcur, hturns, by rw [passTurn_units, hlen]⟩

end Sys2Proof.Machine
end

section
/-! PROOFS. Noninterference (spec/10_state.md sections 2, 3 and 6): on two contexts that differ in unspecified fields only, the body of
every command stops alike or gives the same output and two such contexts. -/

namespace Sys2Proof.Machine

/-- Two results that stop alike, or give the same output and contexts that agree. -/
def ResultsAgree (x y : Except Stop (Engine × Option Bytes)) : Prop :=
  (∃ z, x = .error z ∧ y = .error z) ∨ ∃ f f' out, x = .ok (f, out) ∧ y = .ok (f', out) ∧ f.Agree f'

theorem agree_kind {e e' : Engine} (h : e.Agree e') : e.kind = e'.kind := by
  cases e <;> cases e'
  case digest.digest | hmac.hmac | pbkdf2.pbkdf2 => rfl
  all_goals exact h.elim

section
variable {α : Type} {x y : Except Stop α} {R : α → α → Prop}

theorem resultsAgree_error (z : Stop) : ResultsAgree (.error z) (.error z) := .inl ⟨z, rfl, rfl⟩

/-- Two operations without output that stop alike or leave contexts that agree. -/
theorem resultsAgree_of_update {E : α → Engine} (hE : ∀ c d, R c d → (E c).Agree (E d))
    (h : (∃ z, x = .error z ∧ y = .error z) ∨ ∃ c d, x = .ok c ∧ y = .ok d ∧ R c d) :
    ResultsAgree (x.map fun c => (E c, none)) (y.map fun c => (E c, none)) := by
  rcases h with ⟨z, rfl, rfl⟩ | ⟨c, d, rfl, rfl, hR⟩
  · exact resultsAgree_error z
  · exact .inr ⟨_, _, _, rfl, rfl, hE c d hR⟩

/-- Two operations with an output that stop alike or give it alike and leave contexts that agree. -/
theorem resultsAgree_of_finish {x y : Except Stop (Bytes × α)} {E : α → Engine} (hE : ∀ c d, R c d → (E c).Agree (E d))
    (h : (∃ z, x = .error z ∧ y = .error z) ∨ ∃ o c d, x = .ok (o, c) ∧ y = .ok (o, d) ∧ R c d) :
    ResultsAgree (x.map fun r => (E r.2, some r.1)) (y.map fun r => (E r.2, some r.1)) := by
  rcases h with ⟨z, rfl, rfl⟩ | ⟨o, c, d, rfl, rfl, hR⟩
  · exact resultsAgree_error z
  · exact .inr ⟨_, _, _, rfl, rfl, hE c d hR⟩

end

/-- `HKEY` is refused by the key alone, and leaves contexts that agree whatever was held. -/
theorem key_agree (c d : HCtx) (a : Alg) (k : Bytes) :
    (∃ z, c.key a k = .error z ∧ d.key a k = .error z) ∨ ∃ c' d', c.key a k = .ok c' ∧ d.key a k = .ok d' ∧ c'.Agree d' := by
  rw [key_eq, key_eq]
  cases keyTooLong a k
  · exact .inr ⟨_, _, rfl, rfl, keyed_agree c d a k⟩
  · exact .inl ⟨_, rfl, rfl⟩

theorem body_agree_digest (i : Instr) {c d : DCtx} (h : c.Agree d) : ResultsAgree (body i (.digest c)) (body i (.digest d)) := by
  cases i with
  | dinit a => exact .inr ⟨_, _, _, rfl, rfl, activeAgree_agree (start_activeAgree c d a)⟩
  | dupd m => exact resultsAgree_of_update (E := .digest) (fun _ _ => id) (update_agree h m)
  | dfin => exact resultsAgree_of_finish (E := .digest) (fun _ _ => id) (finish_agree h)
  | hkey | hupd | hfin | hreinit | pbkdf2 => exact resultsAgree_error _

theorem body_agree_hmac (i : Instr) {c d : HCtx} (h : c.Agree d) : ResultsAgree (body i (.hmac c)) (body i (.hmac d)) := by
  cases i with
  | hkey a k => exact resultsAgree_of_update (E := .hmac) (fun _ _ => id) (key_agree c d a k)
  | hupd m => exact resultsAgree_of_update (E := .hmac) (fun _ _ => id) (hupdate_agree h m)
  | hfin n => exact resultsAgree_of_finish (E := .hmac) (fun _ _ => id) (hfinish_agree h n.toNat)
  | hreinit => exact resultsAgree_of_update (E := .hmac) (fun _ _ => id) (reinit_agree h)
  | dinit | dupd | dfin | pbkdf2 => exact resultsAgree_error _

/-- Every command of the digest unit and of the HMAC engine reads only fields on which contexts that agree are equal. -/
theorem body_agree {i : Instr} {e e' : Engine} (h : e.Agree e') (hi : i.unit ≠ .pbkdf2) : ResultsAgree (body i e) (body i e') := by
  have hkind := agree_kind h
  cases e <;> cases e' <;> cases hkind
  · exact body_agree_digest i h
  · exact body_agree_hmac i h
  · rw [body_wrongKind hi]
    exact resultsAgree_error _

/-! ## From results to answers -/

/-- The two machines answer the same response, and the contexts they leave agree. -/
def AnswersAgree (i : Instr) (s s' : State) : Prop :=
  ∃ t t' f f' r, exec i s = .next t ∧ exec i s' = .next t' ∧ t.engine? = some f ∧ t'.engine? = some f' ∧ f.Agree f' ∧
    t.lastResponse = some r ∧ t'.lastResponse = some r

section
variable {i : Instr} {s s' t t' : State} {e e' f f' : Engine} {r : Response}

theorem answersAgree_of_answers {s₁ s₂ : State} (ht : exec i s = .next t) (ht' : exec i s' = .next t') (ha : s₁.Answers t f r)
    (ha' : s₂.Answers t' f' r) (hf : f.Agree f') : AnswersAgree i s s' :=
  ⟨t, t', f, f', r, ht, ht', answers_engine? ha, answers_engine? ha', hf, answers_lastResponse ha, answers_lastResponse ha'⟩

theorem answersAgree_of_raises {st : Status} (hs : s.engine? = some e) (hs' : s'.engine? = some e') (he : e.Agree e')
    (hr : s.Raises i st) (hr' : s'.Raises i st) : AnswersAgree i s s' := by
  obtain ⟨t, e₁, hs₁, ht, ha⟩ := hr
  obtain ⟨t', e₂, hs₂, ht', ha'⟩ := hr'
  rw [hs] at hs₁; cases hs₁
  rw [hs'] at hs₂; cases hs₂
  exact answersAgree_of_answers ht ht' ha ha' he

/-- A command of the digest unit or the HMAC engine. -/
theorem exec_agree (hs : s.engine? = some e) (hs' : s'.engine? = some e') (he : e.Agree e') (hi : i.unit ≠ .pbkdf2)
    (h : exec i s = .next t) : AnswersAgree i s s' := by
  rcases body_agree he hi with ⟨st | why, hb, hb'⟩ | ⟨f, f', out, hb, hb', hf⟩
  · exact answersAgree_of_raises hs hs' he (raises_of_body hs hi hb) (raises_of_body hs' hi hb')
  · rw [refused_of_body hs hi hb] at h; cases h
  · obtain ⟨ht, ha⟩ := exec_of_body hs hi hb
    obtain ⟨ht', ha'⟩ := exec_of_body hs' hi hb'
    exact answersAgree_of_answers ht ht' ha ha' hf

/-- A PBKDF2 unit holds no context: its answer is settled by the operands and the draw. -/
theorem exec_pbkdf2_agree {a : Alg} {p salt : Bytes} {c : BitVec 32} {dk : BitVec 64} (hs : s.engine? = some .pbkdf2)
    (hs' : s'.engine? = some .pbkdf2) (hd : s.drawFails = s'.drawFails) (h : exec (.pbkdf2 a p salt c dk) s = .next t) :
    AnswersAgree (.pbkdf2 a p salt c dk) s s' := by
  cases hc : pbkdf2Checks a p salt c.toNat dk.toNat with
  | error x =>
    cases x with
    | raise st => exact answersAgree_of_raises hs hs' trivial (pbkdf2_raises hs hc) (pbkdf2_raises hs' hc)
    | refuse why => rw [exec_pbkdf2_of_check hs hc] at h; cases h
  | ok _ =>
    obtain ⟨t, ht, hcase⟩ := exec_pbkdf2_of_ok hs hc
    obtain ⟨t', ht', hcase'⟩ := exec_pbkdf2_of_ok hs' hc
    rcases hcase with ⟨hf, ha⟩ | ⟨hf, out, hx, ha⟩ <;> rcases hcase' with ⟨hf', ha'⟩ | ⟨hf', out', hx', ha'⟩
    · exact answersAgree_of_answers ht ht' ha ha' trivial
    · rw [hf, hf'] at hd; cases hd
    · rw [hf, hf'] at hd; cases hd
    · rw [hx] at hx'; cases hx'
      exact answersAgree_of_answers ht ht' ha ha' trivial

end

/-- Settles O27: PBKDF2 on its unit by its operands and its draw, the others and the wrong kinds by `body_agree`. -/
theorem unspecifiedFieldsUnread : Obligations.UnspecifiedFieldsUnread := by
  intro i s s' t e e' hs hs' he hf hn h
  have agree : AnswersAgree i s s' := by
    by_cases hi : i.unit = .pbkdf2
    · by_cases hk : e.kind = .pbkdf2
      · have hk' : e'.kind = .pbkdf2 := agree_kind he ▸ hk
        have hd : s.drawFails = s'.drawFails := by rw [State.drawFails, State.drawFails, hf, hn]
        cases i <;> cases hi
        cases e <;> cases hk
        cases e' <;> cases hk'
        exact exec_pbkdf2_agree hs hs' hd h
      · obtain ⟨u, hu, rfl⟩ := unit_of_engine? hs
        obtain ⟨u', hu', rfl⟩ := unit_of_engine? hs'
        have hne : i.unit ≠ u.kind := fun hx => hk (hx.symm.trans hi)
        have hne' : i.unit ≠ u'.kind := fun hx => hne (hx.trans (agree_kind he).symm)
        exact answersAgree_of_raises hs hs' he (raises_of_wrongKind hu hne) (raises_of_wrongKind hu' hne')
    · exact exec_agree hs hs' he hi h
  obtain ⟨t₁, t', f, f', r, ht, hrest⟩ := agree
  rw [h] at ht; cases ht
  exact ⟨t', f, f', r, hrest⟩

end Sys2Proof.Machine
end

section
/-! PROOFS. RIPEMD-160's compression (spec/44_ripemd160.md): the tables of R174 and R175, the words, functions and constants of R171
to R173, and the two lines as loops over `j`. -/

namespace Sys2Proof

/-! ## The tables (R174, R175) -/

/-- The tables of both lines, read as hexadecimal digits, step 0 first, and the bounds of the rotations. -/
theorem rmd_tables : ∀ j, j < 80 →
    rmdR.getD j 0 = 0x0123456789abcdef74d1a6f3c0952eb83ae49f812706db5c19ba08c4d37fe56240597c2ae138b6fd / 16 ^ (79 - j) % 16 ∧
    rmdR'.getD j 0 = 0x5e7092b4d6f81a3c6b370d5aef8c4912f5137e69b8c2a04d86413bf05c2d97aecfa4158762de039b / 16 ^ (79 - j) % 16 ∧
    rmdS.getD j 0 = 0xbefc5879bdef6798768db97f7cf9b7dcbd67e9dfe8d65c75bcefef989e56865c9f5b68dc5cdeb856 / 16 ^ (79 - j) % 16 ∧
    rmdS'.getD j 0 = 0x899bdff5778beec69df7c89b77c76fdb97fb866ecd5edd75f58bee6e69c9c5f885c9c5e68d65fdbb / 16 ^ (79 - j) % 16 ∧
    5 ≤ rmdS.getD j 0 ∧ rmdS.getD j 0 ≤ 15 ∧ 5 ≤ rmdS'.getD j 0 ∧ rmdS'.getD j 0 ≤ 15 := by
  decide +kernel

section
variable {j : Nat}

theorem rmdR_lt (hj : j < 80) : rmdR.getD j 0 < 16 := by
  rw [(rmd_tables j hj).1]; exact Nat.mod_lt _ (by decide)

theorem rmdR'_lt (hj : j < 80) : rmdR'.getD j 0 < 16 := by
  rw [(rmd_tables j hj).2.1]; exact Nat.mod_lt _ (by decide)

theorem rmdS_lt (hj : j < 80) : rmdS.getD j 0 < 32 := by
  obtain ⟨-, -, -, -, -, h, -⟩ := rmd_tables j hj
  omega

theorem rmdS'_lt (hj : j < 80) : rmdS'.getD j 0 < 32 := by
  obtain ⟨-, -, -, -, -, -, -, h⟩ := rmd_tables j hj
  omega

end

/-! ## The words, the functions and the constants (R171 to R173) -/

/-- A function that meets R171 lists the words of a block. -/
theorem rmdWords_eq_map {blk : Bytes} {X : Nat → Word32}
    (hX : ∀ k, k < 16 → X k = BitVec.ofNat 32 (fromLE ((blk.drop (4 * k)).take 4))) : rmdWords blk = (List.range 16).map X := by
  refine List.map_congr_left fun k hk => ?_
  rw [hX k (List.mem_range.1 hk), leWord, Nat.mul_comm]

/-- Functions that meet the five rows of R172 are those of the model. -/
theorem eq_rmdF {F : Nat → Word32 → Word32 → Word32 → Word32}
    (hF : ∀ x y z, F 0 x y z = x ^^^ y ^^^ z ∧ F 1 x y z = (x &&& y) ||| (~~~x &&& z) ∧ F 2 x y z = (x ||| ~~~y) ^^^ z ∧
      F 3 x y z = (x &&& z) ||| (y &&& ~~~z) ∧ F 4 x y z = x ^^^ (y ||| ~~~z)) {n : Nat} (hn : n < 5) : F n = rmdF n := by
  funext x y z
  obtain ⟨h₀, h₁, h₂, h₃, h₄⟩ := hF x y z
  match n with
  | 0 => exact h₀
  | 1 => exact h₁
  | 2 => exact h₂
  | 3 => exact h₃
  | 4 => exact h₄

/-- Constants that meet R173 are those of a table of five. -/
theorem eq_getD_of_five {K : Nat → Word32} {k₀ k₁ k₂ k₃ k₄ : Word32}
    (hK : K 0 = k₀ ∧ K 1 = k₁ ∧ K 2 = k₂ ∧ K 3 = k₃ ∧ K 4 = k₄) {n : Nat} (hn : n < 5) : K n = [k₀, k₁, k₂, k₃, k₄].getD n 0 := by
  obtain ⟨h₀, h₁, h₂, h₃, h₄⟩ := hK
  match n with
  | 0 => exact h₀
  | 1 => exact h₁
  | 2 => exact h₂
  | 3 => exact h₃
  | 4 => exact h₄

/-! ## The lines (R176, R177) -/

/-- A step in the rotations of R11. -/
theorem rmdStep_eq (f : Word32 → Word32 → Word32 → Word32) (x k : Word32) {n : Nat} (hn : n < 32) (v : Five) :
    rmdStep f x k n v = ⟨v.e, (v.a + f v.b v.c v.d + x + k).rotateLeft n + v.e, v.b, v.c.rotateLeft 10, v.d⟩ := by
  rw [rmdStep, rotl_eq_rotateLeft n _ hn, rotl_eq_rotateLeft 10 _ (by decide)]

/-- The `n` steps of a line from step `j` on, as a loop. -/
theorem rmdLine_eq_foldl (step : Nat → Five → Five) (n j : Nat) (v : Five) :
    rmdLine step n j v = (List.range' j n).foldl (fun x k => step k x) v := by
  induction n generalizing j v with
  | zero => rfl
  | succ n ih => exact ih (j + 1) (step j v)

/-- A line whose 80 steps are `g`'s. -/
theorem rmdLine_eq_loop {step g : Nat → Five → Five} (h : ∀ j, j < 80 → ∀ x, step j x = g j x) (v : Five) :
    rmdLine step 80 0 v = (List.range 80).foldl (fun x j => g j x) v := by
  rw [rmdLine_eq_foldl, ← List.range_eq_range']
  exact List.foldl_ext _ _ v fun x j hj => h j (List.mem_range.1 hj) x

/-- Settles O33: `rmd_tables`, and each line's step in the terms of the rules. -/
theorem ripemd160CompressionLoop : Obligations.Ripemd160CompressionLoop := by
  refine ⟨rmd_tables, ?_⟩
  rintro h blk X F K K' hX hF hK hK' _ _ rfl rfl
  have word : ∀ {k : Nat}, k < 16 → (rmdWords blk).getD k 0 = X k := fun hk => by
    rw [rmdWords_eq_map hX, getD_map_range X 16 _ 0 hk]
  have left : ∀ j, j < 80 → ∀ x, rmdLeft (rmdWords blk) j x =
      ⟨x.e, (x.a + F (j / 16) x.b x.c x.d + X (rmdR.getD j 0) + K (j / 16)).rotateLeft (rmdS.getD j 0) + x.e, x.b,
        x.c.rotateLeft 10, x.d⟩ := fun j hj x => by
    have hn : j / 16 < 5 := by omega
    rw [rmdLeft, word (rmdR_lt hj), rmdStep_eq _ _ _ (rmdS_lt hj), eq_rmdF hF hn, eq_getD_of_five hK hn]; rfl
  have right : ∀ j, j < 80 → ∀ x, rmdRight (rmdWords blk) j x =
      ⟨x.e, (x.a + F (4 - j / 16) x.b x.c x.d + X (rmdR'.getD j 0) + K' (j / 16)).rotateLeft (rmdS'.getD j 0) + x.e, x.b,
        x.c.rotateLeft 10, x.d⟩ := fun j hj x => by
    have hn : j / 16 < 5 := by omega
    have hrow : 4 - j / 16 < 5 := by omega
    rw [rmdRight, word (rmdR'_lt hj), rmdStep_eq _ _ _ (rmdS'_lt hj), eq_rmdF hF hrow, eq_getD_of_five hK' hn]; rfl
  rw [compressRmd160, rmdLine_eq_loop left, rmdLine_eq_loop right]

end Sys2Proof
end

section
/-! PROOFS. The statements about digests of whole messages (spec/40_digest.md sections 1 to 3): the initial hash values, DUPD in
closed form, chunking, the padding, the closed form of the digest, and its worked values. -/

namespace Sys2Proof.Machine

/-! ## The initial hash values (R120, R130, R131, R150, R151, R170) -/

/-- Settles O28: DINIT writes the table (`dinit_step`), and each word's bounds are a comparison of two squares. -/
theorem initialHashValues : Obligations.InitialHashValues := by
  refine ⟨fun s c a hc => ?_, rfl, rfl, rfl, rfl, rfl, rfl, ?sha256, ?sha512, ?sha384⟩
  · obtain ⟨t, ht, ha⟩ := dinit_step hc a
    exact ⟨t, _, ht, answers_engine? ha, start_h c a⟩
  case sha256 => decide +kernel
  case sha512 => decide +kernel
  case sha384 => decide +kernel

/-! ## DUPD in closed form (R101) -/

theorem length_held (c : DCtx) : (firstBytes c.buf c.bufLen.toNat).length = c.bufLen.toNat := by
  rw [length_firstBytes, Nat.min_eq_left (Nat.le_of_lt c.bufLen.isLt)]

/-- Settles O36: DUPD leaves `c.feed m` (`dupd_step`), which is `absorb_closed`. -/
theorem dupdResult : Obligations.DupdResult := by
  intro s c m hc hp hi hb
  obtain ⟨t, ht, ha⟩ := dupd_step hc hp hb
  refine ⟨t, c.feed m, ht, ha, (feed_phase c m).trans hp, feed_alg c m, feed_totBits_toNat c m hb, ?_⟩
  rintro q rfl
  rw [List.length_append, length_held]
  exact absorb_closed c m (inv_active hi hp).bufLen_lt

/-! ## Chunking (R102) -/

/-- The DUPDs of a list of chunks leave what one feed of their concatenation leaves. -/
theorem dupds_engine (ms : List Bytes) {s : State} {c : DCtx} (hc : s.engine? = some (.digest c)) (hp : c.phase = .active)
    (hb : c.totBits.toNat + 8 * ms.flatten.length < 2 ^ 64) :
    ∃ t, runCommands (ms.map Instr.dupd) s = .next t ∧ t.engine? = some (.digest (c.feed ms.flatten)) := by
  induction ms generalizing s c with
  | nil => exact ⟨s, rfl, by rw [List.flatten_nil, feed_nil, hc]⟩
  | cons m ms ih =>
    rw [List.flatten_cons, List.length_append] at hb
    have hm : c.totBits.toNat + 8 * m.length < 2 ^ 64 := by omega
    have hms : (c.feed m).totBits.toNat + 8 * ms.flatten.length < 2 ^ 64 := by rw [feed_totBits_toNat c m hm]; omega
    obtain ⟨t, ht, ha⟩ := dupd_step hc hp hm
    obtain ⟨u, hu, he⟩ := ih (answers_engine? ha) ((feed_phase c m).trans hp) hms
    exact ⟨u, by rw [List.map_cons, runCommands_cons ht, hu], by rw [he, List.flatten_cons, feed_append]⟩

/-- Settles O38: by `dupds_engine` the chunks and their concatenation leave one context, on which DFIN answers alike; HUPD by
`hupd_hupd_engine`. -/
theorem chunkingInvariance : Obligations.ChunkingInvariance := by
  refine ⟨fun s c ms hc hp hb => ?_, fun s c m1 m2 hc hp hi hb => ?_⟩
  · obtain ⟨t₁, hrun₁, he₁⟩ := dupds_engine ms hc hp hb
    obtain ⟨t₂, hrun₂, he₂⟩ := dupds_engine [ms.flatten] hc hp (by simpa using hb)
    rw [List.flatten_singleton] at he₂
    have hfed : (c.feed ms.flatten).phase = .active := (feed_phase ..).trans hp
    obtain ⟨u₁, hu₁, ha₁⟩ := dfin_step he₁ hfed
    obtain ⟨u₂, hu₂, ha₂⟩ := dfin_step he₂ hfed
    exact ⟨t₁, t₂, u₁, u₂, hrun₁, hrun₂, he₁.trans he₂.symm, hu₁, hu₂,
      (answers_lastResponse ha₁).trans (answers_lastResponse ha₂).symm⟩
  · obtain ⟨hact, -⟩ := keyInv_inner_inv (hi (by rw [hp]; decide)) hp
    exact hupd_hupd_engine hc hp hact hb

/-! ## The padding (R104) -/

theorem encodeInt_lengthBytes (a : Alg) (l : Nat) :
    a.encodeInt a.lengthBytes l = if a = .ripemd160 then leBytes 8 l else beBytes a.lengthBytes l := by
  cases a <;> rfl

/-- The padding ends the block it begins in where the length field still fits it, else the next. -/
theorem length_held_pad (a : Alg) {r : Nat} (l : Nat) (hr : r < a.blockBytes) :
    r + (pad a r l).length = if r ≤ a.blockBytes - a.lengthBytes - 1 then a.blockBytes else 2 * a.blockBytes := by
  rw [pad_length, padZeros]
  split_ifs with h
  · cases a <;> simp only [Alg.blockBytes, Alg.lengthBytes] at hr h ⊢ <;> omega
  · cases a <;> simp only [Alg.blockBytes, Alg.lengthBytes] at hr h ⊢ <;> omega

/-- Settles O40: the zero bytes are `padZeros`, and the length is `length_held_pad`. -/
theorem paddingFillsBlock : Obligations.PaddingFillsBlock := by
  intro a r l hr
  exact ⟨padZeros a r, padZeros_lt a r, by rw [pad, zeros, encodeInt_lengthBytes], length_held_pad a l hr⟩

/-! ## The closed form (R108) -/

/-- `DINIT A; DUPD m; DFIN`, whatever the context held. -/
theorem digestProgram_response {s : State} {c : DCtx} (hc : s.engine? = some (.digest c)) (a : Alg) {m : Bytes}
    (hm : 8 * m.length < 2 ^ 64) :
    ∃ t, runCommands [.dinit a, .dupd m, .dfin] s = .next t ∧ t.lastResponse = some ⟨.ok, some (digestClosed a m)⟩ := by
  obtain ⟨t₁, hinit, ha₁⟩ := dinit_step hc a
  obtain ⟨t₂, hupd, ha₂⟩ := dupd_step (m := m) (answers_engine? ha₁) (start_phase c a) (by simpa using hm)
  obtain ⟨t₃, hfin, ha₃⟩ := dfin_step (answers_engine? ha₂) (feed_phase ..)
  refine ⟨t₃, by rw [runCommands_cons hinit, runCommands_cons hupd, runCommands_cons hfin]; rfl, ?_⟩
  rw [answers_lastResponse ha₃, close_start_feed c a m hm]

/-- `Digest(A, m)` is the closed form below the bound. -/
theorem digestOf_eq_digestClosed (a : Alg) {m : Bytes} (hm : 8 * m.length < 2 ^ 64) : digestOf a m = digestClosed a m :=
  close_start_feed DCtx.initial a m hm

/-- Settles O42: `digestProgram_response`, and `digestOf_eq_digestClosed`. -/
theorem digestClosedForm : Obligations.DigestClosedForm := by
  intro s c a m hc hm
  obtain ⟨t, ht, hr⟩ := digestProgram_response hc a hm
  exact ⟨t, ht, hr, digestOf_eq_digestClosed a hm⟩

/-- Settles O43: each digest by evaluation. -/
theorem digestVectors : Obligations.DigestVectors := by
  refine ⟨?_, ?_, ?_, digestClosed_sha256_nil, ?_, ?_, ?_, ?_, ?_⟩ <;> decide +kernel

end Sys2Proof.Machine
end

section
/-! PROOFS. The statements about keys and MACs (spec/45_hmac.md R200, R201, R207, R208), the phases of both contexts
(spec/10_state.md section 6), and the commands that are idempotent (spec/20_memory.md section 3). -/

namespace Sys2Proof.Machine

/-! ## HKEY (R200) -/

section
variable {c : DCtx} {a : Alg} {p : Bytes}

theorem isBase_totBits (h : c.IsBase a p) : c.totBits.toNat = 8 * a.blockBytes := by
  have hlt : 8 * a.blockBytes < 2 ^ 64 := block_lt_bound a
  rw [h.totBits_eq, BitVec.toNat_ofNat, Nat.mod_eq_of_lt (by omega)]

/-- One block on a context just started is within the bound (R202). -/
theorem update_start_block (c : DCtx) (hp : p.length = a.blockBytes) : (c.start a).update p = .ok ((c.start a).feed p) :=
  update_ok _ _ (start_phase c a) (by simpa [hp] using block_lt_bound a)

end

section
variable (r : Reg128) (mask : Byte) (a : Alg) (k : Bytes) {j : Nat}

theorem pad_getElem (hj : j < 128) (hb : j < (keyNorm a k).length) :
    (writeBytes r 0 (maskBytes mask (keyNorm a k)))[j] = (keyNorm a k)[j] ^^^ mask := by
  rw [getElem_writeBytes _ _ _ _ hj, dif_pos ⟨Nat.zero_le j, by simpa using hb⟩]
  simp [maskBytes]

/-- The bytes of a pad from `B` on are not written (log 13). -/
theorem pad_getElem_of_le (hj : j < 128) (hb : (keyNorm a k).length ≤ j) :
    (writeBytes r 0 (maskBytes mask (keyNorm a k)))[j] = r[j] := by
  rw [getElem_writeBytes _ _ _ _ hj, dif_neg fun h => ?_]
  have hlt : j < (keyNorm a k).length := by simpa using h.2
  omega

end

theorem keyNorm_of_le {a : Alg} {k : Bytes} (hk : k.length ≤ a.blockBytes) :
    keyNorm a k = k ++ List.replicate (a.blockBytes - k.length) 0 := by
  rw [keyNorm, if_neg (Nat.not_lt.2 hk), zeros]

theorem keyNorm_nil_getElem (a : Alg) {j : Nat} (hj : j < (keyNorm a []).length) : (keyNorm a [])[j] = 0 := by
  have h : keyNorm a [] = List.replicate a.blockBytes 0 := keyNorm_of_le (k := []) (Nat.zero_le _)
  simp only [h, List.getElem_replicate]

/-- A legal word of a mnemonic but for an `ALG` that names no algorithm is illegal with DETAIL 3 (R72, R82). -/
theorem decodeWord_badAlg {w : BitVec 32} {k : UnitKind} {op : Op} (hop : w.toNat % 256 = op.opc.toNat)
    (hchoose : op.opc.toNat ∈ [0x01, 0x11, 0x21]) (hkind : op.opc.toNat / 16 = k.code.toNat) (hrsv : w.toNat / 4096 = 0)
    (halg : w.toNat / 256 % 16 ∉ [1, 2, 3, 4, 5, 6]) : decodeWord w k = .error .badAlg := by
  rw [decodeWord_of_opc hop, hop, if_neg (not_not.2 hkind), if_neg (not_not.2 hrsv)]
  exact readHead_error_iff.2 (.inl ⟨hchoose, rfl, halg⟩)

theorem decodeFrame_hkey_badAlg {w : BitVec 32} {k : Bytes} (rest : Bytes) (hopc : w.toNat % 256 = 0x11)
    (hrsv : w.toNat / 4096 = 0) (halg : w.toNat / 256 % 16 ∉ [1, 2, 3, 4, 5, 6]) (hk : k.length < 2 ^ 64) :
    decodeFrame .hmac (beBytes 4 w.toNat ++ (beBytes 8 k.length ++ k ++ rest)) = .illegal .badAlg rest := by
  have hop : w.toNat % 256 = Op.hkey.opc.toNat := hopc
  refine decodeFrame_illegal _ w _ rest _ (decodeWord_badAlg hop (by decide) rfl hrsv halg) ?_
  rw [decodeFrame_rest?_of_opc _ _ hop, skipOperands, takeBytes_of_length_lt rest hk]; rfl

/-- The unit served after a step on an illegal word: its context as before, and one more response. -/
theorem step_illegal_served {s : State} {u : HwUnit} {why : IllegalCause} {rest : Bytes} (hr : s.resetLine = false)
    (hu : s.unit? = some u) (hd : decodeFrame u.kind u.cmd = .illegal why rest) :
    ∃ t v, step s = .next t ∧ t.units[s.cur]? = some v ∧ v.engine = u.engine ∧
      v.rsp = u.rsp ++ [⟨.illegalCommand why, none⟩] := by
  have hlt : s.cur < s.units.length := (List.getElem?_eq_some_iff.1 hu).1
  exact ⟨_, _, step_illegal hr hu hd, (congrArg (·[s.cur]?) (passTurn_units _)).trans (List.getElem?_set_self hlt), rfl, rfl⟩

/-- Settles O44: HKEY leaves `c.keyed a k` (`hkey_step`), whose pads are `pad_getElem` and whose baselines are fed one block. -/
theorem hkeyResult : Obligations.HkeyResult := by
  obtain ⟨-, -, -, frame, -⟩ := frameOfEachCommand
  refine ⟨fun s c a k hc => ⟨fun hk => ?_, fun hk => ?_⟩, frame, fun s u w k rest hr hu hkind hopc hrsv halg hk hcmd => ?_⟩
  · exact refused_of_body (i := .hkey a k) hc (by simp [Instr.unit]) (by rw [body, key_eq, keyTooLong_eq_true.2 hk]; rfl)
  · obtain ⟨t, ht, ha⟩ := hkey_step (a := a) (k := k) hc (by omega)
    have block : ∀ mask : Byte, (maskBytes mask (keyNorm a k)).length = a.blockBytes := fun mask => by simp
    have base : ∀ (d : DCtx) (mask : Byte), ((d.start a).feed (maskBytes mask (keyNorm a k))).IsBase a _ :=
      fun d mask => feed_start_isBase d a _ (block mask)
    refine ⟨t, c.keyed a k, ht, ha, rfl, rfl, fun j hj hb => ⟨pad_getElem _ _ a k hj hb, pad_getElem _ _ a k hj hb⟩,
      fun j hj hb => ⟨pad_getElem_of_le _ _ a k hj hb, pad_getElem_of_le _ _ a k hj hb⟩, ?_, ?_, rfl, rfl,
      ⟨(base c.inner 0x36).bufLen_zero, isBase_totBits (base c.inner 0x36)⟩,
      ⟨(base c.outer 0x5c).bufLen_zero, isBase_totBits (base c.outer 0x5c)⟩, ?_⟩
    · rw [HCtx.keyed, firstBytes_pad]; exact update_start_block c.inner (block 0x36)
    · rw [HCtx.keyed, firstBytes_pad]; exact update_start_block c.outer (block 0x5c)
    · rintro rfl j hj hjb
      have hb : j < (keyNorm a []).length := by rwa [keyNorm_length]
      exact ⟨(pad_getElem _ _ a [] hj hb).trans (by rw [keyNorm_nil_getElem]; rfl),
        (pad_getElem _ _ a [] hj hb).trans (by rw [keyNorm_nil_getElem]; rfl)⟩
  · exact step_illegal_served hr hu (by rw [hkind, hcmd, decodeFrame_hkey_badAlg rest hopc hrsv halg hk])

/-! ## The normalized key (R201) -/

/-- Settles O45: the two branches of `keyNorm`, the digest of a long key in closed form. -/
theorem keyNormalization : Obligations.KeyNormalization := by
  refine fun a k => ⟨keyNorm_length a k, keyNorm_of_le, fun hk => ?_, fun hk hb => ⟨?_, digestBytes_lt_blockBytes a⟩⟩
  · rw [keyNorm_of_le (Nat.le_of_eq hk), hk, Nat.sub_self]; exact List.append_nil k
  · rw [keyNorm, if_pos hk, digestOf_length, digestOf_eq_digestClosed a hb, zeros]

/-! ## The closed form of HMAC (R207), and a second message (R208) -/

/-- Settles O49: HKEY leaves a context just keyed, on which `hupd_hfin_keyed` answers. -/
theorem hmacClosedForm : Obligations.HmacClosedForm := by
  intro s c a k m n hc hk hm hn hd
  obtain ⟨t, hkey, ha⟩ := hkey_step hc hk
  obtain ⟨u, hrun, hr⟩ := hupd_hfin_keyed (answers_engine? ha) hm hn hd
  exact ⟨u, (runCommands_cons hkey).trans hrun, hr⟩

/-- Settles O50: HREINIT restores the context that HKEY leaves, so that `hupd_hfin_result` is used twice on the same context. -/
theorem reinitEquivalence : Obligations.ReinitEquivalence := by
  intro s c a k m1 m2 n1 n2 hc hk hm1 hm2 hn1 hd1 hn2 hd2
  have fits : ∀ {m : Bytes}, 8 * (a.blockBytes + m.length) < 2 ^ 64 →
      (c.keyed a k).inner.totBits.toNat + 8 * m.length < 2 ^ 64 := fun hm => by rw [keyed_inner.1]; omega
  obtain ⟨t₀, hkey, ha₀⟩ := hkey_step hc hk
  obtain ⟨t₁, hrun₁, he₁, -⟩ := hupd_hfin_result (answers_engine? ha₀) (keyed_inv c a k) rfl (fits hm1) hn1 hd1
  obtain ⟨t₂, hre, ha₂⟩ := hreinit_step he₁ (fun h => nomatch h)
  have he₂ : t₂.engine? = some (.hmac (c.keyed a k)) := answers_engine? ha₂
  obtain ⟨t, hrun, he, hr⟩ := hupd_hfin_result he₂ (keyed_inv c a k) rfl (fits hm2) hn2 hd2
  obtain ⟨t', hrun', he', hr'⟩ := hupd_hfin_result (answers_engine? ha₀) (keyed_inv c a k) rfl (fits hm2) hn2 hd2
  exact ⟨t₁, t, t', _, (runCommands_cons hkey).trans hrun₁, (runCommands_cons hre).trans hrun, (runCommands_cons hkey).trans hrun',
    hr, hr', rfl, he.trans he'.symm⟩

/-- A shorter MAC begins a longer one (R204). -/
theorem hmacClosed_take (a : Alg) (k m : Bytes) {n1 n2 : Nat} (h : n1 ≤ n2) :
    (hmacClosed a k m n2).take n1 = hmacClosed a k m n1 := by
  rw [hmacClosed, List.take_take, Nat.min_eq_left h, hmacClosed]

/-- Settles O51: the MAC by evaluation, its truncation from it. -/
theorem hmacVectors : Obligations.HmacVectors := by
  intro m hm
  have full : hmacClosed .sha256 [0x6b, 0x65, 0x79] m 32 =
      beBytes 32 0xf7bc83f430538424b13298e6aa6fb143ef4d59a14946175997479dbc2d1a3cd8 := by
    subst hm; decide +kernel
  exact ⟨full, by rw [← hmacClosed_take _ _ _ (show 16 ≤ 32 by decide), full]; decide⟩

/-! ## The phases (R41) -/

/-- Settles O58: the row of each command that completes by its own step, the others by MISUSE and PRECONDITION. -/
theorem phaseTransitions : Obligations.PhaseTransitions := by
  obtain ⟨-, misuse, hmisuse, -⟩ := misuseByPhase
  obtain ⟨-, precondition, -⟩ := preconditionChecks
  refine ⟨fun s c hc => ⟨fun a => ?_, fun m hp hb => ?_, fun hp => ?_, fun hp => ?_⟩,
    fun s c hc hi => ⟨fun a k hk => ?_, fun m hp hb => ?_, fun n hp hn hd => ?_, fun n hp hn => ?_, fun hp => ?_, fun hp => ?_,
      fun hp => ⟨_, ((hmisuse s c hc).1 hp).2.2⟩⟩⟩
  · obtain ⟨t, ht, ha⟩ := dinit_step hc a
    exact ⟨t, _, ht, ha, start_phase c a⟩
  · obtain ⟨t, ht, ha⟩ := dupd_step hc hp hb
    exact ⟨t, _, ht, ha, (feed_phase c m).trans hp⟩
  · obtain ⟨t, ht, ha⟩ := dfin_step hc hp
    exact ⟨t, _, _, ht, ha, close_phase c⟩
  · obtain ⟨empty, finalized⟩ := misuse s c hc
    cases hph : c.phase with
    | empty => exact ⟨fun m => ⟨_, (empty hph).1 m⟩, _, (empty hph).2⟩
    | active => exact absurd hph hp
    | finalized => exact ⟨fun m => ⟨_, (finalized hph).1 m⟩, _, (finalized hph).2⟩
  · obtain ⟨t, ht, ha⟩ := hkey_step hc hk
    exact ⟨t, _, ht, ha, rfl⟩
  · obtain ⟨hact, -⟩ := keyInv_inner_inv (hi (by rw [hp]; decide)) hp
    obtain ⟨t, ht, ha⟩ := hupd_step hc hp hact hb
    exact ⟨t, _, ht, ha, hp⟩
  · obtain ⟨t, ht, ha⟩ := hfin_step hc (hi (by rw [hp]; decide)) hp (BitVec.toNat_ne.2 (Nat.ne_of_gt hn)) hd
    exact ⟨t, _, _, ht, ha, rfl⟩
  · obtain ⟨zero, tooLong⟩ := precondition s c n hc hp
    rcases hn with h0 | hlt
    · exact ⟨_, zero (BitVec.eq_of_toNat_eq h0)⟩
    · exact ⟨_, tooLong hlt⟩
  · obtain ⟨empty, finalized⟩ := hmisuse s c hc
    cases hph : c.phase with
    | empty =>
      obtain ⟨hupd, hfin, -⟩ := empty hph
      exact ⟨fun m => ⟨_, hupd m⟩, fun n => ⟨_, hfin n⟩⟩
    | keyed => exact absurd hph hp
    | finalized =>
      obtain ⟨hupd, hfin, -⟩ := finalized hph
      exact ⟨fun m => ⟨_, hupd m⟩, fun n => ⟨_, hfin n⟩⟩
  · obtain ⟨t, ht, ha⟩ := hreinit_step hc hp
    exact ⟨t, _, ht, ha, rfl⟩

/-! ## Idempotence (R56) -/

/-- Bytes written twice in the same place are written once. -/
theorem writeBytes_idem (r : Reg128) (i : Nat) (bs : Bytes) : writeBytes (writeBytes r i bs) i bs = writeBytes r i bs := by
  apply Vector.ext
  intro k hk
  rw [getElem_writeBytes, getElem_writeBytes]
  split_ifs <;> rfl

/-- Up to a block, the bytes absorbed are written to `BUF` one after the other (R101). -/
theorem absorb_buf (c : DCtx) (m : Bytes) (h : c.bufLen.toNat + m.length ≤ c.alg.blockBytes) :
    (c.absorb m).buf = writeBytes c.buf c.bufLen.toNat m := by
  induction m generalizing c with
  | nil => rfl
  | cons b m ih =>
    rw [List.length_cons] at h
    by_cases hfull : c.bufLen.toNat + 1 = c.alg.blockBytes
    · obtain rfl : m = [] := List.eq_nil_of_length_eq_zero (by omega)
      rw [absorb_cons, absorbByte_eq_of_full b hfull]; rfl
    · have hlen : (c.absorbByte b).bufLen.toNat = c.bufLen.toNat + 1 := (absorbByte_notFull hfull (by omega)).2.1
      rw [absorb_cons, ih _ (by rw [hlen, absorbByte_alg]; omega), hlen, absorbByte_eq_of_not_full b hfull]; rfl

/-- One block on a context just started, with every field. -/
theorem feed_start_block (c : DCtx) (a : Alg) {p : Bytes} (hp : p.length = a.blockBytes) :
    (c.start a).feed p = { phase := .active, alg := a, h := compress a (ivWords a) p, buf := writeBytes c.buf 0 p, bufLen := 0,
                           totBits := BitVec.ofNat 128 (8 * a.blockBytes) } := by
  have hbuf : ((c.start a).feed p).buf = writeBytes c.buf 0 p := absorb_buf (c.start a) p (by simp [hp])
  obtain ⟨hphase, halg, hh, hlen, htot⟩ := feed_start_isBase c a p hp
  generalize (c.start a).feed p = d at hbuf hphase halg hh hlen htot
  obtain ⟨_, _, _, _, _, _⟩ := d
  simp_all

theorem keyed_keyed (c : HCtx) (a : Alg) (k : Bytes) : (c.keyed a k).keyed a k = c.keyed a k := by
  have block : ∀ mask : Byte, (maskBytes mask (keyNorm a k)).length = a.blockBytes := fun mask => by simp
  simp only [HCtx.keyed, feed_start_block _ a (block _), writeBytes_idem]

/-- The commands of R56 that are idempotent. -/
def IdempotentCommand (i : Instr) : Prop := (∃ a, i = .dinit a) ∨ (∃ a k, i = .hkey a k) ∨ i = .hreinit

section
variable {i : Instr} {s t : State} {e e' : Engine} {o : Option Bytes}

theorem idempotent_unit (hi : IdempotentCommand i) : i.unit ≠ .pbkdf2 := by
  rcases hi with ⟨a, rfl⟩ | ⟨a, k, rfl⟩ | rfl <;> simp [Instr.unit]

/-- An idempotent command that completes completes again, and leaves the context as it is. -/
theorem body_idempotent (hi : IdempotentCommand i) (h : body i e = .ok (e', o)) : body i e' = .ok (e', o) := by
  have hk : i.unit = e.kind := by
    by_contra hne
    rw [body_wrongKind hne] at h; cases h
  rcases hi with ⟨a, rfl⟩ | ⟨a, k, rfl⟩ | rfl <;> cases e <;> cases hk
  · cases h; rfl
  · rename_i c
    rw [body, key_eq] at h
    cases hlong : keyTooLong a k <;> rw [hlong] at h <;> cases h
    rw [body, key_eq, hlong, keyed_keyed]; rfl
  · rename_i c
    cases hr : c.reinit <;> rw [body, hr] at h <;> cases h
    obtain ⟨-, rfl⟩ := (reinit_ok_iff ..).1 hr
    rfl

/-- The context a command of the digest unit or the HMAC engine leaves: its body's, or the one before where a status is raised. -/
theorem exec_engine (hs : s.engine? = some e) (hi : i.unit ≠ .pbkdf2) (h : exec i s = .next t) :
    (∃ e' o, body i e = .ok (e', o) ∧ t.engine? = some e') ∨ (∃ st, body i e = .error (.raise st) ∧ t.engine? = some e) := by
  obtain ⟨u, hu, rfl⟩ := unit_of_engine? hs
  rw [exec_eq_body hu hi] at h
  rcases conclude_cases s u hu (body i u.engine) with ⟨e', o, hb, hx, ha⟩ | ⟨st, hb, hx, ha⟩ | ⟨why, hb, hx⟩ <;>
    rw [hx] at h <;> cases h
  · exact .inl ⟨e', o, hb, answers_engine? ha⟩
  · exact .inr ⟨st, hb, answers_engine? ha⟩

end

/-- Settles O59: the first command completes with a context that the second leaves (`body_idempotent`), or both raise a status. -/
theorem idempotentCommands : Obligations.IdempotentCommands := by
  intro i s t t' hi ht ht'
  have hp : i.unit ≠ .pbkdf2 := idempotent_unit hi
  obtain ⟨u, -, -, -, hu, -⟩ := exec_next ht
  have hs : s.engine? = some u.engine := by rw [State.engine?, hu]; rfl
  rcases exec_engine hs hp ht with ⟨e, o, hb, he⟩ | ⟨st, hb, he⟩
  · have hb' := body_idempotent hi hb
    rcases exec_engine he hp ht' with ⟨e', o', hb'', he'⟩ | ⟨st, hb'', -⟩ <;> rw [hb'] at hb'' <;> cases hb''
    rw [he, he']
  · rcases exec_engine he hp ht' with ⟨e', o', hb'', -⟩ | ⟨st', -, he'⟩
    · rw [hb] at hb''; cases hb''
    · rw [he, he']

end Sys2Proof.Machine
end

section
/-! PROOFS. The statements about PBKDF2 (spec/46_pbkdf2.md R220 to R227): its result in closed form, shorter outputs, one iteration as
one HMAC, and its worked values. -/

namespace Sys2Proof.Machine

section
variable {s t : State} {a : Alg} {p salt : Bytes} {c : BitVec 32} {dk : BitVec 64} {out : Bytes}

/-! ## The answer of PBKDF2 (R220, R222, R224) -/

theorem derive_of_checks (hc : pbkdf2Checks a p salt c.toNat dk.toNat = .ok ()) :
    pbkdf2Derive a p salt c.toNat dk.toNat = .ok (pbkdf2Closed a p salt c.toNat dk.toNat) ∧
      (pbkdf2Closed a p salt c.toNat dk.toNat).length = dk.toNat := by
  obtain ⟨-, -, -, hp, hb⟩ := (checks_ok_iff ..).1 hc
  have hderive := derive_closed a p salt c.toNat dk.toNat hp hb
  exact ⟨hderive, derive_length hp hb hderive⟩

/-- Past its checks and its draw, PBKDF2 answers the closed form. -/
theorem exec_pbkdf2_closed (he : s.engine? = some .pbkdf2) (hc : pbkdf2Checks a p salt c.toNat dk.toNat = .ok ())
    (hd : s.drawFails = false) :
    ∃ t, exec (.pbkdf2 a p salt c dk) s = .next t ∧
      s.takeDraw.Answers t .pbkdf2 ⟨.ok, some (pbkdf2Closed a p salt c.toNat dk.toNat)⟩ := by
  obtain ⟨t, ht, ⟨hf, -⟩ | ⟨-, out, hx, ha⟩⟩ := exec_pbkdf2_of_ok he hc
  · rw [hd] at hf; cases hf
  · rw [(derive_of_checks hc).1] at hx; cases hx
    exact ⟨t, ht, ha⟩

/-- A PBKDF2 command that answers OK has passed its checks and answers the closed form. -/
theorem output_of_exec_pbkdf2 (h : exec (.pbkdf2 a p salt c dk) s = .next t) (hr : t.lastResponse = some ⟨.ok, some out⟩) :
    out = pbkdf2Closed a p salt c.toNat dk.toNat ∧ out.length = dk.toNat := by
  obtain ⟨u, -, ⟨-, e, hb⟩ | ⟨st, hx, -⟩ | ⟨hx, -⟩⟩ := exec_lastResponse h hr
  · cases hu : u.engine with
    | digest | hmac => rw [hu] at hb; cases hb
    | pbkdf2 =>
      rw [hu] at hb
      cases hc : pbkdf2Checks a p salt c.toNat dk.toNat with
      | error x => simp only [body, hc] at hb; cases hb
      | ok _ =>
        obtain ⟨hderive, hlen⟩ := derive_of_checks hc
        simp only [body, hc, hderive] at hb
        cases hb
        exact ⟨rfl, hlen⟩
  · cases hx
  · cases hx

end

/-- Settles O52: `exec_pbkdf2_closed` on the operands whose checks pass. -/
theorem pbkdf2Result : Obligations.Pbkdf2Result := by
  intro s a p salt c dk he hc hdk hmax hp hsalt hdraw
  have hchecks := checks_ok_of_bounds hc hdk hmax hp hsalt
  obtain ⟨u, hu, -⟩ := unit_of_engine? he
  obtain ⟨t, ht, ha⟩ := exec_pbkdf2_closed he hchecks (drawFails_eq_false hdraw)
  exact ⟨s.takeDraw, t, _, ht, takeDraw_drawn hu, ha, rfl, (derive_of_checks hchecks).2⟩

/-! ## Shorter outputs (R225) -/

theorem pbkdf2BlockCount_mono (a : Alg) {dk1 dk2 : Nat} (h : dk1 ≤ dk2) : pbkdf2BlockCount a dk1 ≤ pbkdf2BlockCount a dk2 :=
  Nat.div_le_div_right (by omega)

/-- The blocks of the shorter output are the first of the longer one's, and are enough for it. -/
theorem pbkdf2Closed_take (a : Alg) (p salt : Bytes) (c : Nat) {dk1 dk2 : Nat} (h : dk1 ≤ dk2) :
    (pbkdf2Closed a p salt c dk2).take dk1 = pbkdf2Closed a p salt c dk1 := by
  have hlen : ((List.range (pbkdf2BlockCount a dk1)).flatMap fun i => pbkdf2F a p salt c (i + 1)).length =
      pbkdf2BlockCount a dk1 * a.digestBytes := by
    rw [flatMap_length_const _ _ a.digestBytes fun i _ => pbkdf2F_length a p salt c (i + 1), List.length_range]
  rw [pbkdf2Closed, List.take_take, Nat.min_eq_left h, flatMap_range_split _ _ _ (pbkdf2BlockCount_mono a h),
    List.take_append_of_le_length (hlen ▸ blockCount_enough a dk1), pbkdf2Closed]

/-- Settles O53: both outputs are the closed form, and `pbkdf2Closed_take`. -/
theorem pbkdf2Prefix : Obligations.Pbkdf2Prefix := by
  intro s1 s2 t1 t2 a p salt c dk1 dk2 out1 out2 h1 hr1 h2 hr2 hle
  obtain ⟨ho1, hl1⟩ := output_of_exec_pbkdf2 h1 hr1
  obtain ⟨ho2, -⟩ := output_of_exec_pbkdf2 h2 hr2
  exact ⟨by rw [ho1, ho2, pbkdf2Closed_take a p salt _ hle], hl1⟩

/-! ## One iteration and one block (R225) -/

theorem pbkdf2BlockCount_eq_one {a : Alg} {dk : Nat} (h0 : dk ≠ 0) (hd : dk ≤ a.digestBytes) : pbkdf2BlockCount a dk = 1 :=
  Nat.div_eq_of_lt_le (by omega) (by have := digestBytes_pos a; omega)

/-- One iteration and one block are one MAC, of the salt and the block index 1. -/
theorem pbkdf2Closed_one (a : Alg) (p salt : Bytes) {dk : Nat} (h0 : dk ≠ 0) (hd : dk ≤ a.digestBytes) :
    pbkdf2Closed a p salt 1 dk = (hmacClosed a p (salt ++ [0x00, 0x00, 0x00, 0x01]) a.digestBytes).take dk := by
  rw [pbkdf2Closed, pbkdf2BlockCount_eq_one h0 hd]
  exact congrArg (List.take dk) (List.append_nil _)

/-- `HKEY A, p; HREINIT; HUPD m; HFIN n` answers the closed form of HMAC: HREINIT restores what HKEY has just left. -/
theorem hkey_hreinit_hupd_hfin {s : State} {c : HCtx} {a : Alg} {k m : Bytes} {n : BitVec 32} (hc : s.engine? = some (.hmac c))
    (hk : k.length ≤ a.blockBytes ∨ 8 * k.length < 2 ^ 64) (hm : 8 * (a.blockBytes + m.length) < 2 ^ 64) (hn : n ≠ 0)
    (hd : n.toNat ≤ a.digestBytes) :
    ∃ t, runCommands [.hkey a k, .hreinit, .hupd m, .hfin n] s = .next t ∧
      t.lastResponse = some ⟨.ok, some (hmacClosed a k m n.toNat)⟩ := by
  obtain ⟨t₁, hkey, ha₁⟩ := hkey_step hc hk
  obtain ⟨t₂, hre, ha₂⟩ := hreinit_step (answers_engine? ha₁) (fun h => nomatch h)
  have he₂ : t₂.engine? = some (.hmac (c.keyed a k)) := answers_engine? ha₂
  obtain ⟨t, hrun, hr⟩ := hupd_hfin_keyed he₂ hm hn hd
  exact ⟨t, (runCommands_cons hkey).trans ((runCommands_cons hre).trans hrun), hr⟩

/-- Settles O54: both sides are the closed form of one MAC (`pbkdf2Closed_one`, `hkey_hreinit_hupd_hfin`). -/
theorem pbkdf2IsHmacProgram : Obligations.Pbkdf2IsHmacProgram := by
  intro s h hc a p salt dk hLen he hh hLenEq hdk hd hp hsalt hdraw
  have hmax : dk.toNat ≤ (2 ^ 32 - 1) * a.digestBytes := by omega
  have hLen0 : hLen ≠ 0 := BitVec.toNat_ne.2 (by rw [hLenEq]; exact Nat.ne_of_gt (digestBytes_pos a))
  have hchecks := checks_ok_of_bounds (c := 1) (by decide) hdk hmax hp hsalt
  obtain ⟨t, ht, ha⟩ := exec_pbkdf2_closed he hchecks (drawFails_eq_false hdraw)
  obtain ⟨u, hu, hr⟩ := hkey_hreinit_hupd_hfin (m := salt ++ [0x00, 0x00, 0x00, 0x01]) (n := hLen) hh hp
    (by rw [List.length_append]; exact hsalt) hLen0 (Nat.le_of_eq hLenEq)
  refine ⟨t, u, _, _, ht, answers_lastResponse ha, hu, hr, ?_⟩
  rw [hLenEq]
  exact pbkdf2Closed_one a p salt (BitVec.toNat_ne.1 hdk) hd

/-- Settles O55: the longest output of one iteration and the output of two by evaluation, the shorter ones by
`pbkdf2Closed_take`. -/
theorem pbkdf2Vectors : Obligations.Pbkdf2Vectors := by
  intro p s hp hs
  have one : pbkdf2Closed .sha256 p s 1 33 =
      beBytes 33 0x120fb6cffcf8b32c43e7225256c4f837a86548c92ccc35480805987cb70be17b4d := by
    subst hp hs; decide +kernel
  have two : pbkdf2Closed .sha256 p s 2 32 =
      beBytes 32 0xae4d0c95af6b46d32d0adff928f06dd02a303f8ef3c251dfd6e2d85a95474c43 := by
    subst hp hs; decide +kernel
  refine ⟨?_, one, ?_, two⟩
  · rw [← pbkdf2Closed_take _ _ _ _ (show 32 ≤ 33 by decide), one]; decide
  · rw [← pbkdf2Closed_take _ _ _ _ (show 1 ≤ 33 by decide), one]; decide

end Sys2Proof.Machine
end
